-- ==== Sys2Proof/Word.lean ====
section
/-! DEFINITION. The widths the spec uses: every quantity is unsigned (R10). -/

namespace Sys2Proof

/-- An unsigned 8-bit quantity, 0..255 (R10). -/
abbrev Byte := BitVec 8

/-- A 16-bit unsigned field: `DLEN`, `TIMEOUT`, `RLEN`, `ERRINFO`. -/
abbrev Half := BitVec 16

/-- A 64-bit request header (R70). -/
abbrev Header := BitVec 64

end Sys2Proof
end

