-- ==== Sys2Proof/Syntax.lean ====
section
/-! DEFINITION. The requests: one constructor per row of spec/opcode_table.json, each in the one format
`REQ64` (R70). -/

namespace Sys2Proof

/-- The operands of a request: the header fields beside `OPSEL` (R71) and the data bytes. `DLEN` is the
number of data bytes (R70), so it is not stored a second time. -/
structure Operands where
  /-- `CARDTYPE`, `H[15:8]`. -/
  cardType : Byte
  /-- `TIMEOUT`, `H[47:32]`, in ms; 0 waits indefinitely. -/
  timeout : Half
  /-- `RLEN`, `H[63:48]`. -/
  rlen : Half
  /-- The `DLEN` data bytes that follow the header. -/
  data : List Byte
  deriving DecidableEq, Repr

/-- The `DLEN` field of a request with these operands. -/
def Operands.dlen (r : Operands) : Half := BitVec.ofNat 16 r.data.length

/-- The operations of the selector map (R72). A field an operation does not use is carried all the same,
because the request latch records it (R44). -/
inductive Instr where
  /-- `0x01`, R103. -/
  | encode (r : Operands)
  /-- `0x02`, R110. -/
  | validateAck (r : Operands)
  /-- `0x03`, R120. -/
  | decodeHeader (r : Operands)
  /-- `0x10`, R136. -/
  | exchange (r : Operands)
  /-- `0x20`, R170. -/
  | decodeFw (r : Operands)
  /-- `0x21`, R176. -/
  | decodeTarget (r : Operands)
  /-- `0x30`, R185. -/
  | firmwareVersion (r : Operands)
  /-- `0x31`, R190. -/
  | listPassiveTarget (r : Operands)
  deriving DecidableEq, Repr

/-- The operands of a request, whichever operation it names. -/
def Instr.operands : Instr → Operands
  | .encode r => r
  | .validateAck r => r
  | .decodeHeader r => r
  | .exchange r => r
  | .decodeFw r => r
  | .decodeTarget r => r
  | .firmwareVersion r => r
  | .listPassiveTarget r => r

end Sys2Proof
end

