-- ==== Sys2Proof/WellFormed.lean ====
section
/-! DEFINITION. Which requests a header can announce: `DLEN` is 16 bits wide (R71). -/

namespace Sys2Proof

/-- The data bytes can be counted by the 16-bit `DLEN`. Every other field has its width by its type, and
no field value is illegal as an encoding: the operand checks of R74 are errors of the operation. -/
abbrev Operands.wellFormed (r : Operands) : Prop := r.data.length < 65536

/-- A request is well formed when its operands are (R70, R71). -/
abbrev Instr.wellFormed (i : Instr) : Prop := i.operands.wellFormed

end Sys2Proof
end

