-- ==== Sys2Proof/Decode.lean ====
section
/-! DEFINITION. Decoding and encoding of request descriptors (R70 to R75), and the
reading of one word numbered as spec/opcode_table.json numbers it. -/

namespace Sys2Proof

/-- The eight operations of the selector map (R72). -/
inductive Op where
  | encode
  | validateAck
  | decodeHeader
  | exchange
  | decodeFw
  | decodeTarget
  | firmwareVersion
  | listPassiveTarget
  deriving DecidableEq, Repr

/-- Why a presented descriptor is no operation of R72. -/
inductive DecodeError where
  /-- `OPSEL` is a reserved value (R75). -/
  | reservedSelector (opsel : Byte)
  /-- The number of data bytes differs from `DLEN`: the presentation is no request of R70. -/
  | dataCount
  deriving DecidableEq, Repr

/-- The answer of the decoder. -/
inductive Decoded where
  | instr (i : Instr)
  | rejected (e : DecodeError)
  deriving DecidableEq, Repr

/-- The selector codes of R72. -/
def Op.selector : Op → Byte
  | .encode => 0x01
  | .validateAck => 0x02
  | .decodeHeader => 0x03
  | .exchange => 0x10
  | .decodeFw => 0x20
  | .decodeTarget => 0x21
  | .firmwareVersion => 0x30
  | .listPassiveTarget => 0x31

/-- The operation a selector byte names, none for a reserved one (R72, R75): the whole byte is matched. -/
def Op.ofSelector (b : Byte) : Option Op :=
  if b = 0x01 then some .encode
  else if b = 0x02 then some .validateAck
  else if b = 0x03 then some .decodeHeader
  else if b = 0x10 then some .exchange
  else if b = 0x20 then some .decodeFw
  else if b = 0x21 then some .decodeTarget
  else if b = 0x30 then some .firmwareVersion
  else if b = 0x31 then some .listPassiveTarget
  else none

/-- The request of an operation with given operands. -/
def Op.instr (op : Op) (r : Operands) : Instr :=
  match op with
  | .encode => .encode r
  | .validateAck => .validateAck r
  | .decodeHeader => .decodeHeader r
  | .exchange => .exchange r
  | .decodeFw => .decodeFw r
  | .decodeTarget => .decodeTarget r
  | .firmwareVersion => .firmwareVersion r
  | .listPassiveTarget => .listPassiveTarget r

/-- The operation a request names. -/
def Instr.op : Instr → Op
  | .encode _ => .encode
  | .validateAck _ => .validateAck
  | .decodeHeader _ => .decodeHeader
  | .exchange _ => .exchange
  | .decodeFw _ => .decodeFw
  | .decodeTarget _ => .decodeTarget
  | .firmwareVersion _ => .firmwareVersion
  | .listPassiveTarget _ => .listPassiveTarget

/-- `H[7:0]` (R71). -/
def Header.opsel (h : Header) : Byte := h.extractLsb' 0 8
/-- `H[15:8]` (R71). -/
def Header.cardType (h : Header) : Byte := h.extractLsb' 8 8
/-- `H[31:16]` (R71). -/
def Header.dlen (h : Header) : Half := h.extractLsb' 16 16
/-- `H[47:32]` (R71). -/
def Header.timeout (h : Header) : Half := h.extractLsb' 32 16
/-- `H[63:48]` (R71). -/
def Header.rlen (h : Header) : Half := h.extractLsb' 48 16

/-- The operands a header and its data bytes carry: each field copied, none scaled or extended (R71). -/
def Header.operands (h : Header) (data : List Byte) : Operands :=
  { cardType := Header.cardType h, timeout := Header.timeout h, rlen := Header.rlen h, data := data }

/-- Decoding of one descriptor: a header and the data bytes presented with it. `OPSEL` alone selects the
operation (R72); a descriptor has exactly `DLEN` data bytes (R70). -/
def decode (h : Header) (data : List Byte) : Decoded :=
  if data.length = (Header.dlen h).toNat then
    match Op.ofSelector (Header.opsel h) with
    | some op => .instr (op.instr (Header.operands h data))
    | none => .rejected (.reservedSelector (Header.opsel h))
  else .rejected .dataCount

/-- `H = OPSEL | CARDTYPE<<8 | DLEN<<16 | TIMEOUT<<32 | RLEN<<48` (R90). -/
def assembleHeader (opsel cardType : Byte) (dlen timeout rlen : Half) : Header :=
  opsel.setWidth 64 ||| cardType.setWidth 64 <<< 8 ||| dlen.setWidth 64 <<< 16 |||
    timeout.setWidth 64 <<< 32 ||| rlen.setWidth 64 <<< 48

/-- The header of a request (R71, R90). -/
def Instr.header (i : Instr) : Header :=
  assembleHeader i.op.selector i.operands.cardType i.operands.dlen i.operands.timeout i.operands.rlen

/-- The encoder: the header word and the data bytes of a request. -/
def encode (i : Instr) : Header × List Byte := (i.header, i.operands.data)

/-- The header in a word numbered as the opcode table numbers it: bits 63..0; bits above `nbits` are 0. -/
def tableHeader (nbits w : Nat) : Header := BitVec.ofNat 64 (w % 2 ^ nbits)

/-- The data bytes in such a word: `DLEN` bytes, byte `k` at bits `64+8k+7 .. 64+8k`. -/
def tableData (nbits w : Nat) : List Byte :=
  (List.range (Header.dlen (tableHeader nbits w)).toNat).map fun k =>
    BitVec.ofNat 8 ((w % 2 ^ nbits) >>> (64 + 8 * k))

/-- The instruction the decoder reads from a word numbered as spec/opcode_table.json numbers it. -/
def decodeTableWord (nbits w : Nat) : Option Instr :=
  match decode (tableHeader nbits w) (tableData nbits w) with
  | .instr i => some i
  | .rejected _ => none

end Sys2Proof
end

