-- ==== Sys2Proof/Config.lean ====
section
/-! DEFINITION. What an implementation fixes (R9) and the free values: the adapter's answers past the
environment's script (R56) and the open settle delay (D11). -/

namespace Sys2Proof

/-- The parameters of R9. They are fixed before the first request and never change while the block
runs (R243), so State carries them as data no step writes, and a statement holds for every choice. -/
structure Params where
  /-- `P_MAX_PAYLOAD`: the largest payload ENCODE and EXCHANGE accept. -/
  maxPayload : Nat
  /-- `P_SETTLE_MS`: the settle delay of the phases `SETTLE1` and `SETTLE2`. -/
  settleMs : Nat
  /-- `P_POLL_MS`: the poll interval of a ready-wait. -/
  pollMs : Nat
  /-- `P_READY`, the predicate on the status byte, written as plain data: the bytes that mean ready. -/
  readyStatuses : List Byte
  /-- `P_TARGET_RESP_LEN`: the bytes LIST_PASSIVE_TARGET reads as its response. -/
  targetRespLen : Nat
  /-- `P_UIDLEN_OFF`: the offset of the UID-length byte in the passive-target response. -/
  uidLenOff : Nat
  /-- `P_WRITE_COMMIT_MS`: a host duty after a card write (R255); the block never reads it. -/
  writeCommitMs : Nat
  deriving DecidableEq, Repr

/-- The constraints R9 puts on the parameters. -/
abbrev Params.wf (p : Params) : Prop :=
  p.maxPayload ≤ 254 ∧ 1 ≤ p.pollMs ∧ 8 ≤ p.targetRespLen ∧ p.targetRespLen ≤ 262 ∧
    8 ≤ p.uidLenOff ∧ p.uidLenOff < 262

/-- The adapter's answer to `Write(w)` (R56); `never` is the event that does not return (I14). -/
inductive WriteAnswer where
  | ok
  | fail
  | never
  deriving DecidableEq, Repr, Inhabited

/-- The adapter's answer to `Read(n)`: any byte sequence, or a failure (R56); `never` as in I14. -/
inductive ReadAnswer where
  | ok (bytes : List Byte)
  | fail
  | never
  deriving DecidableEq, Repr, Inhabited

/-- The adapter's answer to `Probe()`: any byte (R56); it has no failure answer (R59), but a probe on a
blocked bus never returns (R59, I14). -/
inductive ProbeAnswer where
  | status (s : Byte)
  | never
  deriving DecidableEq, Repr, Inhabited

/-- The value of the OPEN parameter `P_SETTLE_MS` after reset (D11): free, no number is chosen. -/
opaque Config.openSettleMs : Nat

/-- The `k`-th answer to a write that the environment's script does not give: any answer (R56, I11). -/
opaque Config.freeWrite : Nat → WriteAnswer

/-- The `k`-th answer to a read that the environment's script does not give: any answer (R56, I12). -/
opaque Config.freeRead : Nat → ReadAnswer

/-- The `k`-th answer to a probe that the environment's script does not give: any answer (R56, I13). -/
opaque Config.freeProbe : Nat → ProbeAnswer

end Sys2Proof
end

