-- ==== Sys2Proof/Machine/Params.lean ====
section
/-! DEFINITION. The values R9 recommends for the parameters. -/

namespace Sys2Proof

/-- The recommended value of every parameter of R9; `P_SETTLE_MS` has none and is a free value (D11). -/
def Params.recommended : Params :=
  { maxPayload := 254
    settleMs := Config.openSettleMs
    pollMs := 10
    readyStatuses := [0x01]
    targetRespLen := 20
    uidLenOff := 12
    writeCommitMs := 10 }

end Sys2Proof
end

