-- ==== Sys2Proof/Machine/State.lean ====
section
/-! DEFINITION. The block's state (R20 to R47), the pending inputs of its two environments, the host and
the adapter (R20), and the value of all of it after reset (R240). -/

namespace Sys2Proof.Machine

/-- The contents of a byte buffer: pairs of an index and its byte, the indices strictly rising. An index
that is not listed is unwritten: it has no value (R40). -/
abbrev Memory := List Host.Cell

/-- The values of the 4-bit register `PHASE` (R22). -/
inductive Phase where
  /-- 0: waits for a request. -/
  | idle
  /-- 1: `Write(FRAME[0..FLEN))`. -/
  | send
  /-- 2: the first ready-wait. -/
  | wait1
  /-- 3: the settle delay before the ack read. -/
  | settle1
  /-- 4: `Read(6)` and the ack check. -/
  | ackRead
  /-- 5: the settle delay before the second wait. -/
  | settle2
  /-- 6: the second ready-wait. -/
  | wait2
  /-- 7: the response read. -/
  | respRead
  /-- 8: the response decode of a composite operation. -/
  | parse
  /-- `9 + n`: the reserved codes 9 to 15, never entered; a step that finds one faults (I6). -/
  | reserved (n : Fin 7)
  deriving DecidableEq, Repr

/-- The values of the 4-bit field `STATUS.ERRCODE` (R210). -/
inductive ErrCode where
  /-- 0. -/
  | ok
  /-- 1: `E_BAD_OP`. -/
  | badOp
  /-- 2: `E_BAD_LENGTH`. -/
  | badLength
  /-- 3: `E_PAYLOAD_TOO_LONG`. -/
  | payloadTooLong
  /-- 4: `E_SEND`. -/
  | send
  /-- 5: `E_TIMEOUT1`. -/
  | timeout1
  /-- 6: `E_ACK`. -/
  | ack
  /-- 7: `E_TIMEOUT2`. -/
  | timeout2
  /-- 8: `E_RESP_READ`. -/
  | respRead
  /-- 9: `E_TRUNCATED`. -/
  | truncated
  /-- 10: `E_UNEXPECTED_RESPONSE`. -/
  | unexpectedResponse
  /-- 11: `E_TARGET_COUNT`. -/
  | targetCount
  /-- `12 + n`: the codes 12 to 15, never written; a host read that finds one faults (I8). -/
  | reserved (n : Fin 4)
  deriving DecidableEq, Repr

/-- The writable fields of `STATUS` (R29). The reserved bits are hardwired 0 and `ERR` is computed from
`ERRCODE` (R27), so neither is stored. -/
structure Status where
  busy : Bool
  done : Bool
  errCode : ErrCode
  errPhase : Phase
  deriving DecidableEq, Repr

/-- The request latch `REQ` (R24). -/
structure Req where
  opsel : Byte
  cardType : Byte
  dlen : Half
  timeout : Half
  rlen : Half
  deriving DecidableEq, Repr

/-- The byte buffers of the block, each an index space of its own (R54). -/
inductive Buffer where
  | data
  | frame
  | ackbuf
  | rxbuf
  | uid
  deriving DecidableEq, Repr

/-- What the block asks of the adapter in an event that waits for an answer (R14). -/
inductive Call where
  /-- `Write(w)`. -/
  | write (w : List Byte)
  /-- `Read(n)`. -/
  | read (n : Nat)
  /-- `Probe()`. -/
  | probe
  deriving DecidableEq, Repr

/-- An event of the trace (R14), with the adapter's answer. -/
inductive Event where
  /-- `Write(w)`; `ok` is false for the answer `fail`. -/
  | write (w : List Byte) (ok : Bool)
  /-- `Read(n)`; `r` is none for the answer `fail`. -/
  | read (n : Nat) (r : Option (List Byte))
  /-- `Probe() -> s`. -/
  | probe (s : Byte)
  /-- `Delay(ms)`. -/
  | delay (ms : Nat)
  /-- An event that the adapter never answers (R59, I14): begun, and without an answer. -/
  | unanswered (c : Call)
  deriving DecidableEq, Repr

/-- What the host can read: `STATUS`, `ERRINFO`, the result registers and counts, and one byte of a buffer
at an index (R28 to R30, R34 to R39; accesses are byte-wide, R54). -/
inductive HostReg where
  | status
  | errinfo
  | ackok
  | hdr
  | fwinfo
  | uidlen
  | flen
  | ackcnt
  | rxcnt
  | uid (i : Nat)
  | frame (i : Nat)
  | ackbuf (i : Nat)
  | rxbuf (i : Nat)
  deriving DecidableEq, Repr

/-- One action of the host, the environment that issues requests, reads results and applies reset (R20,
R241). The list of them in State says which agent moves next. -/
inductive HostAction where
  /-- The host presents a descriptor: the header and the data bytes (R44, R70). -/
  | request (h : Header) (data : List Byte)
  /-- The host reads a register or a byte of a buffer (R40). -/
  | read (r : HostReg)
  /-- Reset is applied, between two steps of the block (R241). -/
  | reset
  /-- The host does nothing during one step of the block. -/
  | pass
  /-- The host blocks until the operation in progress has ended (R20). -/
  | await
  deriving DecidableEq, Repr

/-- The adapter as an environment: the answers it is going to give, per kind of event. Where a list has
run out, an answer is a free value of Config, and `draws` counts those. -/
structure Adapter where
  writes : List WriteAnswer
  reads : List ReadAnswer
  probes : List ProbeAnswer
  draws : Nat
  deriving DecidableEq, Repr

/-- A result or count register (R28, R34 to R39): the bits it holds, and whether they are written. The spec's
state `unwritten` (R40, R240) is a mark beside the bits, which the register holds at any time. -/
structure Register (w : Nat) where
  value : BitVec w
  written : Bool
  deriving DecidableEq, Repr

/-- The machine. -/
structure State where
  /-- The parameters of R9; no step writes them (R243). -/
  cfg : Params
  /-- `PHASE` (R22). -/
  phase : Phase
  /-- `WSUB`, 1 bit (R32). -/
  wsub : Bool
  /-- `WAITACC` (R31), held as an unbounded natural number as R31 allows. -/
  waitacc : Nat
  /-- `LASTSTAT` (R47). -/
  laststat : Byte
  /-- `REQ` (R24). -/
  req : Req
  /-- `STATUS` (R29). -/
  status : Status
  /-- `ERRINFO` (R30). -/
  errinfo : Half
  /-- `ACKOK` (R28). -/
  ackok : Register 1
  /-- `HDR` (R37). -/
  hdr : Register 24
  /-- `FWINFO` (R38). -/
  fwinfo : Register 32
  /-- `UIDLEN` (R39). -/
  uidlen : Register 8
  /-- `FLEN` (R34). -/
  flen : Register 9
  /-- `ACKCNT` (R35). -/
  ackcnt : Register 3
  /-- `RXCNT` (R36). -/
  rxcnt : Register 9
  /-- `DATA` (R33). -/
  data : Memory
  /-- `FRAME` (R34). -/
  frame : Memory
  /-- `ACKBUF` (R35). -/
  ackbuf : Memory
  /-- `RXBUF` (R36). -/
  rxbuf : Memory
  /-- `UID` (R39). -/
  uid : Memory
  /-- The event in progress at the adapter, if any (R241): one that it never answers. While there is one the
  block takes no further step (R59, I14). -/
  inProgress : Option Call
  /-- The block's event trace, oldest event first (R14). -/
  trace : List Event
  /-- The host's pending actions, the next one first. -/
  host : List HostAction
  /-- What the host's reads have delivered, zero-extended to 32 bits, oldest first. -/
  hostReads : List (HostReg × BitVec 32)
  /-- The adapter's pending answers. -/
  adapter : Adapter
  deriving DecidableEq, Repr

/-- Why a step stops with a fault. -/
inductive Fault where
  /-- A buffer read at or above the valid count, or of an unwritten byte (R53, I5). Raised by the block's
  buffer reads and the host's byte reads; safe: the spec says that a model faults it. -/
  | bufferRead (b : Buffer)
  /-- A buffer write beyond the capacity (R52, R54). Raised by the block's buffer writes; safe: the index
  does not exist. -/
  | bufferWrite (b : Buffer)
  /-- A host read of an unwritten result or count (R40, R240, I2: "a model faults it"). Raised by the host
  port's read; safe, the spec's own. -/
  | unwrittenResult (r : HostReg)
  /-- A host read of a result while `BUSY = 1` (R251, I3). Raised by the host port's read; safe, the
  spec's own. -/
  | resultWhileBusy (r : HostReg)
  /-- `PHASE` holds a reserved code (I6). Raised by the block's step; safe: never entered. -/
  | reservedPhase (n : Fin 7)
  /-- `ERRCODE` holds a reserved code (I8). Raised by a host read of `STATUS`; safe: never written. -/
  | reservedErrCode (n : Fin 4)
  /-- A phase after `IDLE` while `REQ.OPSEL` names no operation that enters it. Raised by the block's step;
  safe: R136, R185 and R190 are the only rules that leave `IDLE`, and no run reaches such a state. -/
  | phaseWithoutOperation (p : Phase)
  deriving DecidableEq, Repr

/-- Why a step gives no meaning. -/
inductive Refusal where
  /-- An instruction that has no meaning yet. Raised by exec's refused arms only; safe. -/
  | notModelled (mnemonic : String)
  /-- A request presented while `STATUS.BUSY = 1`: the run is marked refused (R44, R250, I1). Raised by the
  acceptance of a request; safe, the spec's own. -/
  | busy
  /-- A presentation whose number of data bytes is not its `DLEN`, which is no request of R70. Raised by
  the host port; safe. -/
  | malformedRequest
  deriving DecidableEq, Repr

/-- The state right after reset (R240, R46). The parameters stand at R9's recommended values, and
`REQ`, `LASTSTAT` and the bits of the unwritten results and counts, for which the spec states no value, at
zeros. -/
def State.reset : State :=
  { cfg := Params.recommended
    phase := .idle
    wsub := false
    waitacc := 0
    laststat := 0
    req := { opsel := 0, cardType := 0, dlen := 0, timeout := 0, rlen := 0 }
    status := { busy := false, done := false, errCode := .ok, errPhase := .idle }
    errinfo := 0
    ackok := { value := 0, written := false }
    hdr := { value := 0, written := false }
    fwinfo := { value := 0, written := false }
    uidlen := { value := 0, written := false }
    flen := { value := 0, written := false }
    ackcnt := { value := 0, written := false }
    rxcnt := { value := 0, written := false }
    data := []
    frame := []
    ackbuf := []
    rxbuf := []
    uid := []
    inProgress := none
    trace := []
    host := []
    hostReads := []
    adapter := { writes := [], reads := [], probes := [], draws := 0 } }

end Sys2Proof.Machine
end

