-- ==== Sys2Proof/Machine/Flags.lean ====
section
/-! DEFINITION. The encodings of `PHASE`, `ERRCODE` and `STATUS` (R22, R29, R210), the error classes
(R211) and the layouts of `ERRINFO` (R210). -/

namespace Sys2Proof.Machine

/-- The 4-bit code of a phase (R22). -/
def Phase.code : Phase → BitVec 4
  | .idle => 0
  | .send => 1
  | .wait1 => 2
  | .settle1 => 3
  | .ackRead => 4
  | .settle2 => 5
  | .wait2 => 6
  | .respRead => 7
  | .parse => 8
  | .reserved n => BitVec.ofNat 4 (9 + n.val)

/-- The 4-bit code of an error (R210). -/
def ErrCode.code : ErrCode → BitVec 4
  | .ok => 0
  | .badOp => 1
  | .badLength => 2
  | .payloadTooLong => 3
  | .send => 4
  | .timeout1 => 5
  | .ack => 6
  | .timeout2 => 7
  | .respRead => 8
  | .truncated => 9
  | .unexpectedResponse => 10
  | .targetCount => 11
  | .reserved n => BitVec.ofNat 4 (12 + n.val)

/-- The classes (a) to (d) of the error taxonomy (R19, R211). -/
inductive ErrClass where
  | timeout
  | linkIntegrity
  | chipReported
  | callerMisuse
  deriving DecidableEq, Repr

/-- The class column of R210; success and the reserved codes have none. -/
def ErrCode.errClass : ErrCode → Option ErrClass
  | .ok => none
  | .badOp => some .callerMisuse
  | .badLength => some .callerMisuse
  | .payloadTooLong => some .callerMisuse
  | .send => some .linkIntegrity
  | .timeout1 => some .timeout
  | .ack => some .linkIntegrity
  | .timeout2 => some .timeout
  | .respRead => some .linkIntegrity
  | .truncated => some .linkIntegrity
  | .unexpectedResponse => some .chipReported
  | .targetCount => some .chipReported
  | .reserved _ => none

/-- `STATUS.ERR`, always equal to `ERRCODE ≠ OK` (R27). -/
def Status.err (st : Status) : Bool := st.errCode.code ≠ 0

/-- `STATUS` as the host reads it (R29): bit 0 `BUSY`, bit 1 `DONE`, bit 2 `ERR`, bits 11:8 `ERRCODE`,
bits 15:12 `ERRPHASE`, every other bit 0. -/
def Status.word (st : Status) : BitVec 32 :=
  BitVec.setWidth 32 (BitVec.ofBool st.busy) ||| BitVec.setWidth 32 (BitVec.ofBool st.done) <<< 1 |||
    BitVec.setWidth 32 (BitVec.ofBool st.err) <<< 2 ||| BitVec.setWidth 32 st.errCode.code <<< 8 |||
    BitVec.setWidth 32 st.errPhase.code <<< 12

/-- `zext16` of a byte, the `ERRINFO` of `E_BAD_OP`, the timeouts and `E_TARGET_COUNT` (R210). -/
def infoOfByte (b : Byte) : Half := b.setWidth 16

/-- A length as `ERRINFO` (`E_BAD_LENGTH`, `E_PAYLOAD_TOO_LONG`, `E_TRUNCATED`, R210). -/
def infoOfLength (n : Nat) : Half := BitVec.ofNat 16 n

/-- `ERRINFO` with a high and a low byte: the reason and detail of `E_ACK`, the received byte and offset
of `E_UNEXPECTED_RESPONSE` (R210). -/
def infoOfPair (high : Byte) (low : Nat) : Half := high.setWidth 16 <<< 8 ||| BitVec.ofNat 16 low

end Sys2Proof.Machine
end

