-- ==== Sys2Proof/Machine/Frames.lean ====
section
/-! DEFINITION. The wire frames: byte arithmetic (R12), the fixed bytes (R7, R8), the frame builder (R101),
the ack test (R111) and the pure decodes (R120, R169 to R176). -/

namespace Sys2Proof.Machine

/-- `sum8(s) = (Σ_k s[k]) mod 256` (R12). -/
def sum8 (s : List Byte) : Byte := BitVec.ofNat 8 (s.map BitVec.toNat).sum

/-- `neg8(x) = (256 − (x mod 256)) mod 256` (R12). -/
def neg8 (x : Nat) : Byte := BitVec.ofNat 8 (256 - x % 256)

/-- `PREAMBLE` (R8, D4). -/
def preamble : Byte := 0x00
/-- `SC1` (R8, D4). -/
def startCode1 : Byte := 0x00
/-- `SC2` (R8, D4). -/
def startCode2 : Byte := 0xFF
/-- `POSTAMBLE` (R8, D5). -/
def postamble : Byte := 0x00
/-- `TFI_H2C` (R8, D3). -/
def tfiHostToChip : Byte := 0xD4
/-- `CMD_GETFW` (R8, D25). -/
def cmdGetFw : Byte := 0x02
/-- `CMD_INLIST` (R8, D25). -/
def cmdInList : Byte := 0x4A
/-- `MAX_TARGETS` (R7). -/
def maxTargets : Byte := 0x01
/-- `ACK` (R7, R83). -/
def ackPattern : List Byte := [0x00, 0x00, 0xFF, 0x00, 0xFF, 0x00]
/-- `ACK_LEN` (R7). -/
abbrev ackLen : Nat := 6
/-- `FW_PREFIX` (R7, R85). -/
def fwPrefix : List Byte := [0x00, 0x00, 0xFF, 0x06, 0xFA, 0xD5]
/-- `FW_RESP_LEN` (R7). -/
abbrev fwRespLen : Nat := 13
/-- `DATA_MAX` (R8, D30). -/
abbrev dataMax : Nat := 262
/-- `RX_MAX` (R8, D30). -/
abbrev rxMax : Nat := 262

/-- `build_frame` (R101): the command frame of a payload, laid out as R80. -/
def buildFrame (pd : List Byte) : List Byte :=
  [preamble, startCode1, startCode2, BitVec.ofNat 8 (pd.length + 1), neg8 (pd.length + 1), tfiHostToChip] ++
    pd ++ [neg8 (tfiHostToChip.toNat + (sum8 pd).toNat), postamble]

/-- The payload of FIRMWARE_VERSION (R87). -/
def fwPayload : List Byte := [cmdGetFw]

/-- The payload of LIST_PASSIVE_TARGET (R87). -/
def inListPayload (cardType : Byte) : List Byte := [cmdInList, maxTargets, cardType]

/-- `is_ack` (R111): equality with the 6-byte pattern, length included; no checksum is applied (R83). -/
def isAck (r : List Byte) : Bool := decide (r = ackPattern)

/-- The least index at which `got` differs from `want`, with the byte received there (R139, R170). -/
def firstMismatch : (want got : List Byte) → Option (Nat × Byte)
  | w :: ws, g :: gs => if g = w then (firstMismatch ws gs).map (fun p => (p.1 + 1, p.2)) else some (0, g)
  | _, _ => none

/-- An error of an operation: the code and the value of `ERRINFO` (R210). -/
structure OpError where
  code : ErrCode
  info : Half
  deriving DecidableEq, Repr

/-- `E_TRUNCATED` with the length the decode needed (R169). -/
def truncatedError (needed : Nat) : OpError := ⟨.truncated, infoOfLength needed⟩

/-- The header decode of R120 on a frame: `TFI`, `LCS`, `LEN` from offsets 5, 4, 3. -/
def headerDecode (b : List Byte) : Except OpError (BitVec 24) :=
  if h : b.length < 6 then .error (truncatedError 6)
  else .ok (b[5].setWidth 24 <<< 16 ||| b[4].setWidth 24 <<< 8 ||| b[3].setWidth 24)

/-- `fw_decode` (R170). -/
def fwDecode (b : List Byte) : Except OpError (BitVec 32) :=
  if h : b.length < 11 then .error (truncatedError 11)
  else
    match firstMismatch fwPrefix b with
    | some (i, g) => .error ⟨.unexpectedResponse, infoOfPair g i⟩
    | none =>
      .ok (b[7].setWidth 32 <<< 24 ||| b[8].setWidth 32 <<< 16 ||| b[9].setWidth 32 <<< 8 ||| b[10].setWidth 32)

/-- `target_decode` (R176) with `u = P_UIDLEN_OFF`: the UID bytes, whose number is `UIDLEN`. -/
def targetDecode (u : Nat) (b : List Byte) : Except OpError (List Byte) :=
  if h : b.length < 8 then .error (truncatedError 8)
  else if b[7] ≠ maxTargets then .error ⟨.targetCount, infoOfByte b[7]⟩
  else if h' : b.length < u + 1 then .error (truncatedError (u + 1))
  else if b.length < u + 1 + b[u].toNat then .error (truncatedError (u + 1 + b[u].toNat))
  else .ok ((b.drop (u + 1)).take b[u].toNat)

/-- The ack check of R139 on the bytes the ack read kept: short before mismatch, none when it passes. -/
def ackError (r : List Byte) : Option OpError :=
  if r.length < ackLen then some ⟨.ack, infoOfPair 0x02 r.length⟩
  else if isAck r then none
  else (firstMismatch ackPattern r).map fun p => ⟨.ack, infoOfPair 0x01 p.1⟩

end Sys2Proof.Machine
end

