-- ==== Sys2Proof/Machine/Ops.lean ====
section
/-! DEFINITION. The named operations: buffer contents, buffer accesses (R13, R52 to R54), transport events
(R14, R56 to R58), request acceptance (R44), completion and the taking of an error (R15, R216), reset
(R241). -/

namespace Sys2Proof.Machine

/-- The outcome of an operation that answers `α`. -/
abbrev Result (α : Type) : Type := Host.Outcome α Fault Refusal

/-- One operation after another; a fault or a refusal ends both. -/
def andThen {α β : Type} (o : Result α) (k : α → Result β) : Result β :=
  match o with
  | .next a => k a
  | .fault f => .fault f
  | .refused r => .refused r

/-! ### Buffer contents -/

/-- What an unlisted index reads as: it has no value (R40). -/
def Memory.unlisted : Option Byte := none

/-- The byte at an index. -/
def Memory.read : Memory → Nat → Option Byte
  | [], _ => Memory.unlisted
  | (k, b) :: m, a => if a = k then some b else Memory.read m a

/-- The contents with one byte written; the indices stay strictly rising. -/
def Memory.write : Memory → Nat → Byte → Memory
  | [], a, v => [(a, v)]
  | (k, b) :: m, a, v =>
    if a < k then (a, v) :: (k, b) :: m
    else if a = k then (a, v) :: m
    else (k, b) :: Memory.write m a v

/-- The `n` bytes from index `a` on, none if one of them is unwritten. -/
def Memory.readBytes (m : Memory) (a : Nat) : Nat → Option (List Byte)
  | 0 => some []
  | n + 1 =>
    match Memory.read m a, Memory.readBytes m (a + 1) n with
    | some b, some bs => some (b :: bs)
    | _, _ => none

/-- The contents with a byte sequence written from index `a` on. -/
def Memory.writeBytes (m : Memory) (a : Nat) : List Byte → Memory
  | [] => m
  | b :: bs => Memory.writeBytes (Memory.write m a b) (a + 1) bs

/-- The contents that hold exactly a byte sequence, from index 0 on. -/
def Memory.ofBytes (bs : List Byte) : Memory := Memory.writeBytes [] 0 bs

/-- The canonical form: the indices strictly rising. No entry can equal what an unlisted index reads as,
since that is no byte. -/
def Memory.wf (m : Memory) : Bool := decide (m.Pairwise fun x y => x.1 < y.1)

/-! ### Buffers -/

/-- The capacity of a buffer in bytes (R54). -/
def Buffer.capacity : Buffer → Nat
  | .data => 262
  | .frame => 262
  | .ackbuf => 6
  | .rxbuf => 262
  | .uid => 255

/-- The contents of a buffer. -/
def State.buffer (s : State) : Buffer → Memory
  | .data => s.data
  | .frame => s.frame
  | .ackbuf => s.ackbuf
  | .rxbuf => s.rxbuf
  | .uid => s.uid

/-- The state with the contents of one buffer replaced. -/
def State.setBuffer (s : State) (b : Buffer) (m : Memory) : State :=
  match b with
  | .data => { s with data := m }
  | .frame => { s with frame := m }
  | .ackbuf => { s with ackbuf := m }
  | .rxbuf => { s with rxbuf := m }
  | .uid => { s with uid := m }

/-- What a register reads as: nothing while it is unwritten (R40). -/
def Register.get {w : Nat} (c : Register w) : Option (BitVec w) := if c.written then some c.value else none

/-- A register that becomes unwritten (R40); the bits it held stay under the mark, unread. -/
def Register.unwritten {w : Nat} (c : Register w) : Register w := { c with written := false }

/-- A register with a value written to it. -/
def Register.of {w : Nat} (v : BitVec w) : Register w := { value := v, written := true }

/-- The valid count of a buffer (R54), none while it is unwritten. -/
def State.count (s : State) : Buffer → Option Nat
  | .data => some s.req.dlen.toNat
  | .frame => s.flen.get.map BitVec.toNat
  | .ackbuf => s.ackcnt.get.map BitVec.toNat
  | .rxbuf => s.rxcnt.get.map BitVec.toNat
  | .uid => s.uidlen.get.map BitVec.toNat

/-- `MemRead(buf, i, n)` (R13): a read at or above the valid count, or of an unwritten byte, faults (R53). -/
def memRead (b : Buffer) (i n : Nat) (s : State) : Result (List Byte) :=
  match s.count b with
  | none => .fault (.bufferRead b)
  | some c =>
    if i + n ≤ c then
      match (s.buffer b).readBytes i n with
      | some bs => .next bs
      | none => .fault (.bufferRead b)
    else .fault (.bufferRead b)

/-- The valid bytes of a buffer: `MemRead` of all of them. -/
def readValid (b : Buffer) (s : State) : Result (List Byte) :=
  match s.count b with
  | none => .fault (.bufferRead b)
  | some c => memRead b 0 c s

/-- `MemWrite(buf, i, n, v)` (R13), legal up to the capacity (R52). -/
def memWrite (b : Buffer) (i : Nat) (v : List Byte) (s : State) : Result State :=
  if i + v.length ≤ b.capacity then .next (s.setBuffer b ((s.buffer b).writeBytes i v))
  else .fault (.bufferWrite b)

/-! ### The transport port -/

/-- An event appended to the trace (R14). -/
def State.emit (s : State) (e : Event) : State := { s with trace := s.trace ++ [e] }

/-- The adapter's next answer to a write: the script's, then a free value (R56). -/
def Adapter.drawWrite (a : Adapter) : WriteAnswer × Adapter :=
  match a.writes with
  | x :: xs => (x, { a with writes := xs })
  | [] => (Config.freeWrite a.draws, { a with draws := a.draws + 1 })

/-- The adapter's next answer to a read: the script's, then a free value (R56). -/
def Adapter.drawRead (a : Adapter) : ReadAnswer × Adapter :=
  match a.reads with
  | x :: xs => (x, { a with reads := xs })
  | [] => (Config.freeRead a.draws, { a with draws := a.draws + 1 })

/-- The adapter's next answer to a probe: the script's, then a free value (R56). -/
def Adapter.drawProbe (a : Adapter) : ProbeAnswer × Adapter :=
  match a.probes with
  | x :: xs => (x, { a with probes := xs })
  | [] => (Config.freeProbe a.draws, { a with draws := a.draws + 1 })

/-- An event that the adapter never answers (R59, I14): it stands in the trace, and it stays in progress, so that
the block takes no further step until reset (R241, entry 20). -/
def State.hang (c : Call) (s : State) : State := { s.emit (.unanswered c) with inProgress := some c }

/-- `Write(w)` (R14, R57), and what follows its answer: whether the adapter answered `ok`. -/
def portWrite (w : List Byte) (s : State) (k : Bool → State → Result State) : Result State :=
  match s.adapter.drawWrite with
  | (.ok, a) => k true ({ s with adapter := a }.emit (.write w true))
  | (.fail, a) => k false ({ s with adapter := a }.emit (.write w false))
  | (.never, a) => .next ({ s with adapter := a }.hang (.write w))

/-- `Read(n)` (R14, R57), and what follows its answer: the bytes the block keeps, at most `n` of them (R58), none
for a failed read. -/
def portRead (n : Nat) (s : State) (k : Option (List Byte) → State → Result State) : Result State :=
  match s.adapter.drawRead with
  | (.ok r, a) => k (some (r.take n)) ({ s with adapter := a }.emit (.read n (some r)))
  | (.fail, a) => k none ({ s with adapter := a }.emit (.read n none))
  | (.never, a) => .next ({ s with adapter := a }.hang (.read n))

/-- `Probe()` (R14, R57, R59), and what follows its answer: the status byte. -/
def portProbe (s : State) (k : Byte → State → Result State) : Result State :=
  match s.adapter.drawProbe with
  | (.status b, a) => k b ({ s with adapter := a }.emit (.probe b))
  | (.never, a) => .next ({ s with adapter := a }.hang .probe)

/-- `Delay(ms)` (R14). -/
def portDelay (ms : Nat) (s : State) : State := s.emit (.delay ms)

/-! ### Completion -/

/-- `complete(code, info, out)` (R15); the outputs are written before it. `ERRPHASE` records the phase of
an error and is 0 on success (R29, R216). -/
def complete (code : ErrCode) (info : Half) (s : State) : State :=
  { s with
    status := { busy := false, done := true, errCode := code,
                errPhase := if code = .ok then .idle else s.phase }
    errinfo := info
    phase := .idle }

/-- `succeed(out)` (R15). -/
def succeed (s : State) : State := complete .ok 0 s

/-- `raise E_X(info)` (R15, R216): the only form in which the block reports an error. -/
def raise (e : OpError) (s : State) : State := complete e.code e.info s

/-! ### Request acceptance -/

/-- The outputs an operation writes become unwritten (R40); `LASTSTAT` is none of them. -/
def invalidate (op : Option Op) (s : State) : State :=
  match op with
  | some .encode => { s with frame := [], flen := s.flen.unwritten }
  | some .validateAck => { s with ackok := s.ackok.unwritten }
  | some .decodeHeader => { s with hdr := s.hdr.unwritten }
  | some .exchange =>
    { s with
      frame := [], flen := s.flen.unwritten, ackbuf := [], ackcnt := s.ackcnt.unwritten
      rxbuf := [], rxcnt := s.rxcnt.unwritten }
  | some .decodeFw => { s with fwinfo := s.fwinfo.unwritten }
  | some .decodeTarget => { s with uidlen := s.uidlen.unwritten, uid := [] }
  | some .firmwareVersion =>
    { s with
      frame := [], flen := s.flen.unwritten, ackbuf := [], ackcnt := s.ackcnt.unwritten
      rxbuf := [], rxcnt := s.rxcnt.unwritten, fwinfo := s.fwinfo.unwritten }
  | some .listPassiveTarget =>
    { s with
      frame := [], flen := s.flen.unwritten, ackbuf := [], ackcnt := s.ackcnt.unwritten
      rxbuf := [], rxcnt := s.rxcnt.unwritten, uidlen := s.uidlen.unwritten, uid := [] }
  | none => s

/-- `REQ <- descriptor fields` (R44). -/
def latch (opsel : Byte) (r : Operands) : Req :=
  { opsel := opsel, cardType := r.cardType, dlen := r.dlen, timeout := r.timeout, rlen := r.rlen }

/-- The writes of the acceptance step (R44): the latch, the snapshot of the data (not copied when longer
than `DATA_MAX`; the bytes above `DLEN` are unwritten, R33), the invalidated outputs, the flags, and the
phase registers. -/
def accepted (opsel : Byte) (r : Operands) (s : State) : State :=
  invalidate (Op.ofSelector opsel)
    { s with
      req := latch opsel r
      data := if r.data.length ≤ dataMax then Memory.ofBytes r.data else s.data
      status := { s.status with busy := true, done := false }
      phase := .idle
      wsub := false
      waitacc := 0 }

/-- Acceptance (R44): while `BUSY = 1` the request is refused and nothing changes. -/
def accept (opsel : Byte) (r : Operands) (s : State) : Result State :=
  if s.status.busy then .refused .busy else .next (accepted opsel r s)

/-! ### Reset -/

/-- Reset of the block (R240, R241): it aborts an operation without a completion, and the event in progress at the
adapter, which is not retried. The parameters are fixed
(R243), the adapter is not reset (R242), and the host's actions and the records of what has already
crossed the two ports stay. -/
def applyReset (s : State) : State :=
  { State.reset with
    cfg := s.cfg, trace := s.trace, host := s.host, hostReads := s.hostReads, adapter := s.adapter }

end Sys2Proof.Machine
end

