-- ==== Sys2Proof/Machine/Operands.lean ====
section
/-! DEFINITION. The operand checks (R74), the operation a latched request names, and the operand each phase
reads from the latch (R136, R141). -/

namespace Sys2Proof.Machine

/-- The operation in the latch. -/
def State.op (s : State) : Option Op := Op.ofSelector s.req.opsel

/-- The operand checks of R74 in their order, on a latched request; none when all pass. -/
def operandError (s : State) : Option OpError :=
  match s.op with
  | none => some ⟨.badOp, infoOfByte s.req.opsel⟩
  | some .encode =>
    if s.req.dlen.toNat > s.cfg.maxPayload then some ⟨.payloadTooLong, s.req.dlen⟩ else none
  | some .exchange =>
    if s.req.dlen.toNat > s.cfg.maxPayload then some ⟨.payloadTooLong, s.req.dlen⟩
    else if s.req.rlen.toNat > rxMax then some ⟨.badLength, s.req.rlen⟩
    else none
  | some .validateAck => if s.req.dlen.toNat > dataMax then some ⟨.badLength, s.req.dlen⟩ else none
  | some .decodeHeader => if s.req.dlen.toNat > dataMax then some ⟨.badLength, s.req.dlen⟩ else none
  | some .decodeFw => if s.req.dlen.toNat > dataMax then some ⟨.badLength, s.req.dlen⟩ else none
  | some .decodeTarget => if s.req.dlen.toNat > dataMax then some ⟨.badLength, s.req.dlen⟩ else none
  | some .firmwareVersion => none
  | some .listPassiveTarget => none

/-- The start every operation shares: acceptance, then the operand checks in the same step (R44, R74). -/
def start (opsel : Byte) (r : Operands) (s : State) (k : State → Result State) : Result State :=
  andThen (accept opsel r s) fun s =>
    match operandError s with
    | some e => .next (raise e s)
    | none => k s

/-- `nresp`, the response length (R141), for the three operations that read a response. -/
def State.respLen (s : State) : Option Nat :=
  match s.op with
  | some .exchange => some s.req.rlen.toNat
  | some .firmwareVersion => some fwRespLen
  | some .listPassiveTarget => some s.cfg.targetRespLen
  | _ => none

/-- `P_READY(s)` (R9). -/
def Params.ready (p : Params) (s : Byte) : Bool := p.readyStatuses.contains s

end Sys2Proof.Machine
end

