-- ==== Sys2Proof/Machine/FrameCodec.lean ====
section
/-! DEFINITION. The Frame Codec operations ENCODE, VALIDATE_ACK and DECODE_HEADER (R100 to R122). Each
completes in its acceptance step. -/

namespace Sys2Proof.Machine

/-- The encode step (R103): the frame of a payload into `FRAME` and `FLEN`. -/
def writeFrame (pd : List Byte) (s : State) : Result State :=
  andThen (memWrite .frame 0 (buildFrame pd) s) fun s =>
    .next { s with flen := Register.of (BitVec.ofNat 9 (buildFrame pd).length) }

/-- ENCODE (R103). -/
def execEncode (r : Operands) (s : State) : Result State :=
  start 0x01 r s fun s =>
    andThen (readValid .data s) fun pd =>
      andThen (writeFrame pd s) fun s => .next (succeed s)

/-- VALIDATE_ACK (R110): a mismatch is no error, it succeeds with `ACKOK = 0`. -/
def execValidateAck (r : Operands) (s : State) : Result State :=
  start 0x02 r s fun s =>
    andThen (readValid .data s) fun b => .next (succeed { s with ackok := Register.of (BitVec.ofBool (isAck b)) })

/-- DECODE_HEADER (R120). -/
def execDecodeHeader (r : Operands) (s : State) : Result State :=
  start 0x03 r s fun s =>
    andThen (readValid .data s) fun b =>
      match headerDecode b with
      | .error e => .next (raise e s)
      | .ok v => .next (succeed { s with hdr := Register.of v })

end Sys2Proof.Machine
end

