-- ==== Sys2Proof/Machine/LinkController.lean ====
section
/-! DEFINITION. The Link Controller: EXCHANGE's acceptance (R136) and the phases `SEND` to `RESPREAD`, one
step per transport event (R131, R137 to R142). -/

namespace Sys2Proof.Machine

/-- EXCHANGE, acceptance step (R136): the frame is built and `PHASE` becomes `SEND`. -/
def execExchange (r : Operands) (s : State) : Result State :=
  start 0x10 r s fun s =>
    andThen (readValid .data s) fun pd =>
      andThen (writeFrame pd s) fun s => .next { s with phase := .send }

/-- Entry to a ready-wait (R131): `WAITACC <- 0` and `WSUB <- 0`. -/
def enterWait (p : Phase) (s : State) : State := { s with phase := p, waitacc := 0, wsub := false }

/-- `SEND` (R137). -/
def sendStep (s : State) : Result State :=
  andThen (readValid .frame s) fun w =>
    portWrite w s fun ok s =>
      if ok then .next (enterWait .wait1 s) else .next (raise ⟨.send, 0⟩ s)

/-- One step of a ready-wait (R131). `code` is the timeout error of this wait and `leave` what follows a
ready probe. -/
def waitStep (code : ErrCode) (leave : State → Result State) (s : State) : Result State :=
  if s.wsub then .next { portDelay s.cfg.pollMs s with wsub := false }
  else
    portProbe s fun b s =>
      let s := { s with laststat := b }
      if Params.ready s.cfg b then leave s
      else if s.req.timeout = 0 then .next { s with wsub := true }
      else
        let s := { s with waitacc := s.waitacc + s.cfg.pollMs }
        if s.waitacc > s.req.timeout.toNat then .next (raise ⟨code, infoOfByte b⟩ s)
        else .next { s with wsub := true }

/-- `WAIT1` (R131): a ready probe leads to `SETTLE1`. -/
def wait1Step (s : State) : Result State :=
  waitStep .timeout1 (fun s => .next { s with phase := .settle1 }) s

/-- `SETTLE1` (R140). -/
def settle1Step (s : State) : Result State :=
  .next { portDelay s.cfg.settleMs s with phase := .ackRead }

/-- `ACKREAD` (R138, R139): the reasons in the order failure, short, mismatch. -/
def ackReadStep (s : State) : Result State :=
  portRead ackLen s fun a s =>
    match a with
    | none => .next (raise ⟨.ack, infoOfPair 0x03 0⟩ { s with ackcnt := Register.of 0 })
    | some r =>
      andThen (memWrite .ackbuf 0 r s) fun s =>
        let s := { s with ackcnt := Register.of (BitVec.ofNat 3 r.length) }
        match ackError r with
        | some e => .next (raise e s)
        | none => .next { s with phase := .settle2 }

/-- `SETTLE2` (R140). -/
def settle2Step (s : State) : Result State :=
  .next (enterWait .wait2 (portDelay s.cfg.settleMs s))

/-- Leaving `WAIT2` on a ready probe (R141). -/
def leaveWait2 (s : State) : Result State :=
  match s.respLen with
  | none => .fault (.phaseWithoutOperation .wait2)
  | some 0 => .next (succeed { s with rxcnt := Register.of 0 })
  | some _ => .next { s with phase := .respRead }

/-- `WAIT2` (R131, R141). -/
def wait2Step (s : State) : Result State := waitStep .timeout2 leaveWait2 s

/-- `RESPREAD` (R141, R142): EXCHANGE succeeds with the bytes as they are, a composite goes on to `PARSE`. -/
def respReadStep (s : State) : Result State :=
  match s.respLen with
  | none => .fault (.phaseWithoutOperation .respRead)
  | some n =>
    portRead n s fun a s =>
      match a with
      | none => .next (raise ⟨.respRead, 0⟩ { s with rxcnt := Register.of 0 })
      | some r =>
        andThen (memWrite .rxbuf 0 r s) fun s =>
          let s := { s with rxcnt := Register.of (BitVec.ofNat 9 r.length) }
          if s.op = some .exchange then .next (succeed s) else .next { s with phase := .parse }

end Sys2Proof.Machine
end

