-- ==== Sys2Proof/Machine/ResponseParse.lean ====
section
/-! DEFINITION. The response parses DECODE_FW and DECODE_TARGET (R170, R176), the composite operations
(R185, R190) and the phase `PARSE` (R193). -/

namespace Sys2Proof.Machine

/-- The end of a firmware decode of `b` (R170): `FWINFO`, or the error the decode raises. -/
def finishFw (b : List Byte) (s : State) : Result State :=
  match fwDecode b with
  | .error e => .next (raise e s)
  | .ok v => .next (succeed { s with fwinfo := Register.of v })

/-- The end of a target decode of `b` (R176): `UIDLEN` and `UID`, or the error the decode raises. -/
def finishTarget (b : List Byte) (s : State) : Result State :=
  match targetDecode s.cfg.uidLenOff b with
  | .error e => .next (raise e s)
  | .ok u =>
    andThen (memWrite .uid 0 u { s with uidlen := Register.of (BitVec.ofNat 8 u.length) }) fun s =>
      .next (succeed s)

/-- DECODE_FW (R170). -/
def execDecodeFw (r : Operands) (s : State) : Result State :=
  start 0x20 r s fun s => andThen (readValid .data s) fun b => finishFw b s

/-- DECODE_TARGET (R176). -/
def execDecodeTarget (r : Operands) (s : State) : Result State :=
  start 0x21 r s fun s => andThen (readValid .data s) fun b => finishTarget b s

/-- FIRMWARE_VERSION, acceptance step (R185): no operand check applies. -/
def execFirmwareVersion (r : Operands) (s : State) : Result State :=
  start 0x30 r s fun s => andThen (writeFrame fwPayload s) fun s => .next { s with phase := .send }

/-- LIST_PASSIVE_TARGET, acceptance step (R190). -/
def execListPassiveTarget (r : Operands) (s : State) : Result State :=
  start 0x31 r s fun s =>
    andThen (writeFrame (inListPayload s.req.cardType) s) fun s => .next { s with phase := .send }

/-- `PARSE` (R185, R190, R193): one step, no transport event. -/
def parseStep (s : State) : Result State :=
  match s.op with
  | some .firmwareVersion => andThen (readValid .rxbuf s) fun b => finishFw b s
  | some .listPassiveTarget => andThen (readValid .rxbuf s) fun b => finishTarget b s
  | _ => .fault (.phaseWithoutOperation .parse)

end Sys2Proof.Machine
end

