-- ==== Sys2Proof/Machine/Dispatch.lean ====
section
/-! DEFINITION. The meaning of each request: its acceptance step (R44). -/

namespace Sys2Proof.Machine

def exec (i : Instr) (s : State) : Host.Outcome State Fault Refusal :=
  match i with
  | .encode r => Sys2Proof.Machine.execEncode r s
  | .validateAck r => Sys2Proof.Machine.execValidateAck r s
  | .decodeHeader r => Sys2Proof.Machine.execDecodeHeader r s
  | .exchange r => Sys2Proof.Machine.execExchange r s
  | .decodeFw r => Sys2Proof.Machine.execDecodeFw r s
  | .decodeTarget r => Sys2Proof.Machine.execDecodeTarget r s
  | .firmwareVersion r => Sys2Proof.Machine.execFirmwareVersion r s
  | .listPassiveTarget r => Sys2Proof.Machine.execListPassiveTarget r s

end Sys2Proof.Machine
end

