-- ==== Sys2Proof/Machine/HostPort.lean ====
section
/-! DEFINITION. The host port: the presentation of a request (R44, R70, R75), host reads (R40, R251), and
the choice of which agent moves next (R20). -/

namespace Sys2Proof.Machine

/-- A request with a reserved selector (R74 check 1, R75): accepted, and completed with `E_BAD_OP`. -/
def rejectSelector (h : Header) (data : List Byte) (s : State) : Result State :=
  start (Header.opsel h) (Header.operands h data) s .next

/-- The host presents a descriptor (R44): refused while busy, else decoded and run. -/
def present (h : Header) (data : List Byte) (s : State) : Result State :=
  if s.status.busy then .refused .busy
  else
    match decode h data with
    | .instr i => exec i s
    | .rejected (.reservedSelector _) => rejectSelector h data s
    | .rejected .dataCount => .refused .malformedRequest

/-- Whether a host read is of a result; `STATUS` and `ERRINFO` are control and status registers (R29, R30). -/
def HostReg.isResult : HostReg → Bool
  | .status => false
  | .errinfo => false
  | _ => true

/-- A result register as the host reads it: zero-extended, a fault while it is unwritten, as R40 and
R240 say. -/
def readWord {w : Nat} (r : HostReg) (v : Option (BitVec w)) : Result (BitVec 32) :=
  match v with
  | none => .fault (.unwrittenResult r)
  | some v => .next (v.setWidth 32)

/-- A byte of a result buffer as the host reads it: a fault while the buffer is unwritten (R40, R240), and for
an index at or above the valid count (R53). -/
def readByte (r : HostReg) (b : Buffer) (i : Nat) (s : State) : Result (BitVec 32) :=
  match s.count b with
  | none => .fault (.unwrittenResult r)
  | some c =>
    match (s.buffer b).read i with
    | some v => if i < c then .next (v.setWidth 32) else .fault (.bufferRead b)
    | none => .fault (.bufferRead b)

/-- The value of what the host can read, `BUSY` left aside. -/
def hostValue (r : HostReg) (s : State) : Result (BitVec 32) :=
  match r with
  | .status =>
    match s.status.errCode with
    | .reserved n => .fault (.reservedErrCode n)
    | _ => .next s.status.word
  | .errinfo => .next (s.errinfo.setWidth 32)
  | .ackok => readWord r s.ackok.get
  | .hdr => readWord r s.hdr.get
  | .fwinfo => readWord r s.fwinfo.get
  | .uidlen => readWord r s.uidlen.get
  | .flen => readWord r s.flen.get
  | .ackcnt => readWord r s.ackcnt.get
  | .rxcnt => readWord r s.rxcnt.get
  | .uid i => readByte r .uid i s
  | .frame i => readByte r .frame i s
  | .ackbuf i => readByte r .ackbuf i s
  | .rxbuf i => readByte r .rxbuf i s

/-- A host read: a result has no value while `BUSY = 1` (R251). The block's state does not change; what
was read leaves by the host port. -/
def hostRead (r : HostReg) (s : State) : Result State :=
  if r.isResult && s.status.busy then .fault (.resultWhileBusy r)
  else andThen (hostValue r s) fun v => .next { s with hostReads := s.hostReads ++ [(r, v)] }

/-- The action of the block's phase (R22); in `IDLE` it waits and nothing changes. -/
def phaseStep (s : State) : Result State :=
  match s.phase with
  | .idle => .next s
  | .send => sendStep s
  | .wait1 => wait1Step s
  | .settle1 => settle1Step s
  | .ackRead => ackReadStep s
  | .settle2 => settle2Step s
  | .wait2 => wait2Step s
  | .respRead => respReadStep s
  | .parse => parseStep s
  | .reserved n => .fault (.reservedPhase n)

/-- One step of the block: none while an event is in progress at the adapter, which blocks it (R59, R64, I14),
else the action of its phase. -/
def blockStep (s : State) : Result State := if s.inProgress.isSome then .next s else phaseStep s

/-- One step of the machine: the host's next action if there is one, else a step of the block. -/
def portStep (s : State) : Result State :=
  match s.host with
  | [] => blockStep s
  | .pass :: rest => blockStep { s with host := rest }
  | .await :: rest => if s.status.busy then blockStep s else .next { s with host := rest }
  | .reset :: rest => .next (applyReset { s with host := rest })
  | .read r :: rest => hostRead r { s with host := rest }
  | .request h data :: rest => present h data { s with host := rest }

end Sys2Proof.Machine
end

