-- ==== Sys2Proof/Machine/Step.lean ====
section
/-! DEFINITION. The step of the machine, and the placing of one request where the next step takes it. -/

namespace Sys2Proof.Machine

/-- One step: of the host, if it has an action pending, else of the block. -/
def step (s : State) : Host.Outcome State Fault Refusal := portStep s

/-- The state with the request in a word, numbered as spec/opcode_table.json numbers it, presented on the
host port as the next action. -/
def State.withFetchWord (s : State) (nbits w : Nat) : State :=
  { s with host := .request (tableHeader nbits w) (tableData nbits w) :: s.host }

end Sys2Proof.Machine
end

