-- ==== Sys2Proof/Machine/Assembler.lean ====
section
/-! DEFINITION. The textual syntax of a request (R90): a line of text, its parsed form and the descriptor it
assembles to. -/

namespace Sys2Proof

/-- A parsed line of R90: a mnemonic and the optional fields. -/
structure AsmLine where
  op : Op
  data : Option (List Byte) := none
  timeout : Option Half := none
  rlen : Option Half := none
  cardType : Option Byte := none
  deriving DecidableEq, Repr

/-- An omitted field is 0, and `data=` sets the data bytes and `DLEN` (R90). -/
def AsmLine.operands (l : AsmLine) : Operands :=
  { cardType := l.cardType.getD 0, timeout := l.timeout.getD 0, rlen := l.rlen.getD 0,
    data := l.data.getD [] }

/-- The descriptor a line assembles to (R90). R90 says nothing of a line with more than 65535 data bytes: it is
accepted here, and its `DLEN` is their number modulo 65536, so that the descriptor is no request of R70
(DESIGN CHOICE, entry 16). -/
def AsmLine.assemble (l : AsmLine) : Header × List Byte := encode (l.op.instr l.operands)

/-- The mnemonics are the operation names of R72 (R90). -/
def Op.mnemonic : Op → String
  | .encode => "ENCODE"
  | .validateAck => "VALIDATE_ACK"
  | .decodeHeader => "DECODE_HEADER"
  | .exchange => "EXCHANGE"
  | .decodeFw => "DECODE_FW"
  | .decodeTarget => "DECODE_TARGET"
  | .firmwareVersion => "FIRMWARE_VERSION"
  | .listPassiveTarget => "LIST_PASSIVE_TARGET"

/-- Every operation once. -/
def Op.all : List Op :=
  [.encode, .validateAck, .decodeHeader, .exchange, .decodeFw, .decodeTarget, .firmwareVersion,
    .listPassiveTarget]

/-- The words of a line: cut at spaces, except between brackets. `cur` holds the current word reversed. -/
def splitWords (inBrackets : Bool) (cur : List Char) : List Char → List (List Char)
  | [] => if cur = [] then [] else [cur.reverse]
  | c :: cs =>
    if c = ' ' && !inBrackets then
      if cur = [] then splitWords false [] cs else cur.reverse :: splitWords false [] cs
    else splitWords (if c = '[' then true else if c = ']' then false else inBrackets) (c :: cur) cs

/-- The rest of a word after a given beginning. -/
def stripStart : (start word : List Char) → Option (List Char)
  | [], w => some w
  | _ :: _, [] => none
  | c :: cs, d :: ds => if c = d then stripStart cs ds else none

/-- The value of a digit in a base up to 16. -/
def digitValue (base : Nat) (c : Char) : Option Nat :=
  let v :=
    if '0' ≤ c ∧ c ≤ '9' then c.toNat - '0'.toNat
    else if 'a' ≤ c ∧ c ≤ 'f' then c.toNat - 'a'.toNat + 10
    else if 'A' ≤ c ∧ c ≤ 'F' then c.toNat - 'A'.toNat + 10
    else base
  if v < base then some v else none

/-- The number the digits write after a number already read. -/
def numberFrom (base acc : Nat) : List Char → Option Nat
  | [] => some acc
  | c :: cs => (digitValue base c).bind fun d => numberFrom base (base * acc + d) cs

/-- The number a word of digits writes; a field holds it in `w` bits (R71). -/
def fieldNumber (base w : Nat) (cs : List Char) : Option (BitVec w) :=
  if cs = [] then none
  else (numberFrom base 0 cs).bind fun n => if n < 2 ^ w then some (BitVec.ofNat w n) else none

/-- The bytes of `data=[…]`, each two hexadecimal digits. -/
def hexBytes (cs : List Char) : Option (List Byte) :=
  (splitWords false [] cs).mapM fun b => if b.length = 2 then fieldNumber 16 8 b else none

/-- One field of a line added to the fields before it; a field stands once. -/
def AsmLine.addField (l : AsmLine) (word : List Char) : Option AsmLine :=
  match stripStart "data=[".toList word, stripStart "timeout=".toList word, stripStart "rlen=".toList word,
      stripStart "cardtype=0x".toList word with
  | some cs, _, _, _ =>
    if l.data = none ∧ cs.getLast? = some ']' then
      (hexBytes cs.dropLast).map fun d => { l with data := some d }
    else none
  | _, some cs, _, _ =>
    if l.timeout = none then (fieldNumber 10 16 cs).map fun t => { l with timeout := some t } else none
  | _, _, some cs, _ =>
    if l.rlen = none then (fieldNumber 10 16 cs).map fun n => { l with rlen := some n } else none
  | _, _, _, some cs =>
    if l.cardType = none then (fieldNumber 16 8 cs).map fun c => { l with cardType := some c } else none
  | none, none, none, none => none

/-- A byte as two hexadecimal digits. -/
def hexPair (b : Byte) : List Char := [Nat.digitChar (b.toNat / 16), Nat.digitChar (b.toNat % 16)]

/-- The words of the fields a line has, in the order of R90. -/
def AsmLine.fieldWords (l : AsmLine) : List (List Char) :=
  [l.data.map fun d => "data=[".toList ++ [' '].intercalate (d.map hexPair) ++ [']'],
    l.timeout.map fun t => "timeout=".toList ++ Nat.toDigits 10 t.toNat,
    l.rlen.map fun n => "rlen=".toList ++ Nat.toDigits 10 n.toNat,
    l.cardType.map fun c => "cardtype=0x".toList ++ hexPair c].filterMap id

/-- The text of a line (R90): its mnemonic and its fields, a space before each. -/
def AsmLine.text (l : AsmLine) : List Char := [' '].intercalate (l.op.mnemonic.toList :: l.fieldWords)

/-- A line of text (R90); none where it is not of that syntax. -/
def parseLine (cs : List Char) : Option AsmLine :=
  match splitWords false [] cs with
  | [] => none
  | m :: fields =>
    (Op.all.find? fun op => op.mnemonic.toList = m).bind fun op =>
      fields.foldlM (fun l w => l.addField w) { op := op }

end Sys2Proof
end

