-- ==== Sys2Proof/Safety.lean ====
section
/-! DEFINITION. What counts as a safe run: the legal states of the block, its states between two
operations, and the duties the spec puts on the host (R250 to R253). -/

namespace Sys2Proof.Machine

/-- The buffer holds bytes at exactly the indices below its valid count, none when it is unwritten. -/
def Memory.filled (m : Memory) (count : Option Nat) : Prop := m.map Prod.fst = List.range (count.getD 0)

/-- The phases of a ready-wait (R130). -/
abbrev Phase.isWait (p : Phase) : Prop := p = .wait1 ∨ p = .wait2

/-- The phases before the ack read is stored (R136). -/
abbrev Phase.beforeAck (p : Phase) : Prop :=
  p = .send ∨ p = .wait1 ∨ p = .settle1 ∨ p = .ackRead

/-- The `ERRPHASE` column of R210: the phases in which each error is raised. -/
def ErrCode.raisedIn : ErrCode → Phase → Prop
  | .ok, p => p = .idle
  | .badOp, p => p = .idle
  | .badLength, p => p = .idle
  | .payloadTooLong, p => p = .idle
  | .send, p => p = .send
  | .timeout1, p => p = .wait1
  | .ack, p => p = .ackRead
  | .timeout2, p => p = .wait2
  | .respRead, p => p = .respRead
  | .truncated, p => p = .idle ∨ p = .parse
  | .unexpectedResponse, p => p = .idle ∨ p = .parse
  | .targetCount, p => p = .idle ∨ p = .parse
  | .reserved _, _ => False

/-- The phases in which the block makes each call (R131, R137, R138, R141). -/
def Call.madeIn : Call → Phase → Prop
  | .write _, p => p = .send
  | .read _, p => p = .ackRead ∨ p = .respRead
  | .probe, p => p.isWait

/-- A legal state of the block: the relations between registers that the rules keep. -/
structure State.Inv (s : State) : Prop where
  /-- R9. -/
  params : s.cfg.wf
  /-- `PHASE` 9 to 15 are never entered (R22). -/
  phaseLegal : ∀ n, s.phase ≠ .reserved n
  /-- `ERRCODE` is a code of R210 and `ERRPHASE` the phase it was raised in, 0 on success (R29, R210). -/
  errColumn : s.status.errCode.raisedIn s.status.errPhase
  /-- `BUSY` is 1 while an operation is in progress and 0 otherwise (R25, R147). -/
  busyIff : s.status.busy = true ↔ s.phase ≠ .idle
  /-- `DONE` is cleared when a request is accepted and set when it completes (R26). -/
  doneIdle : s.status.done = true → s.phase = .idle
  /-- The counts never exceed the capacities (R54). -/
  counts : ∀ b n, b ≠ .data → s.count b = some n → n ≤ b.capacity
  /-- `FRAME`, `ACKBUF`, `RXBUF` and `UID` hold their valid bytes and no others (R34 to R36, R39, R40). -/
  results : ∀ b, b ≠ .data → (s.buffer b).filled (s.count b)
  /-- `DATA` holds an initial part of its indices, the request's bytes when they were copied (R33, R44). -/
  dataPart : ∃ n, n ≤ 262 ∧ s.data.filled (some n)
  dataCopied : s.req.dlen.toNat ≤ 262 → s.data.filled (some s.req.dlen.toNat)
  /-- An operation in progress is one that exchanges, its frame is built, and its response fits (R136, R141). -/
  exchanging : s.phase ≠ .idle → s.flen.written = true ∧ ∃ n, s.respLen = some n ∧ n ≤ 262
  /-- `WAITACC` never exceeds the timeout while the wait goes on (R131). -/
  waitBound : s.phase.isWait → s.waitacc ≤ s.req.timeout.toNat
  /-- `WAITACC` never exceeds 65535 and one poll interval (R31). -/
  waitMax : s.waitacc ≤ 65535 + s.cfg.pollMs
  /-- `WSUB` is used in the waits only (R32). -/
  wsubWait : s.wsub = true → s.phase.isWait
  /-- Results of the operation in progress are unwritten until their phase writes them (R40). -/
  ackFresh : s.phase.beforeAck → s.ackcnt.written = false
  rxFresh : s.phase ≠ .idle → s.phase ≠ .parse → s.rxcnt.written = false
  fwFresh : s.phase ≠ .idle → s.op = some .firmwareVersion → s.fwinfo.written = false
  uidFresh : s.phase ≠ .idle → s.op = some .listPassiveTarget → s.uidlen.written = false
  /-- A response is read only when some bytes of it are asked for (R141). -/
  respAsked : s.phase = .respRead → s.respLen ≠ some 0
  /-- Only a composite operation reaches `PARSE`, with its response read (R142). -/
  parseReady : s.phase = .parse → s.op ≠ some .exchange ∧ s.rxcnt.written = true
  /-- An event in progress is one of the phase, which waits for its answer (R64). -/
  callOfPhase : ∀ c, s.inProgress = some c → c.madeIn s.phase

/-- The block between two operations (R226). -/
abbrev State.quiescent (s : State) : Prop := s.phase = .idle ∧ s.status.busy = false

/-- A request the host may present in a state: none while `BUSY = 1` (R250), and no zero timeout for
FIRMWARE_VERSION (R187, R253). -/
def safeRequest (i : Instr) (s : State) : Bool :=
  !s.status.busy &&
    match i with
    | .firmwareVersion r => r.timeout ≠ 0
    | _ => true

/-- A host read that has a value: not of a result while `BUSY = 1` (R251). -/
def safeRead (r : HostReg) (s : State) : Bool := !(r.isResult && s.status.busy)

/-- A next state changed by `f`; a fault or a refusal stays. -/
def mapNext (f : State → State) (o : Result State) : Result State :=
  andThen o fun s => .next (f s)

/-- The latched request of a composite replaced by the EXCHANGE it expands to (R91): the response length
is the one the composite asks for. -/
def State.asExchange (n : Half) (s : State) : State :=
  { s with req := { s.req with opsel := 0x10, rlen := n } }

/-- The result registers and buffers an operation writes are unwritten (R40): a byte of such a buffer has
no value, and its count reads as nothing. -/
def State.outputsUnwritten (s : State) : Op → Prop
  | .encode => s.count .frame = none ∧ ∀ a, s.frame.read a = none
  | .validateAck => s.ackok.get = none
  | .decodeHeader => s.hdr.get = none
  | .exchange => ∀ b ∈ [Buffer.frame, .ackbuf, .rxbuf], s.count b = none ∧ ∀ a, (s.buffer b).read a = none
  | .decodeFw => s.fwinfo.get = none
  | .decodeTarget => s.uidlen.get = none ∧ ∀ a, s.uid.read a = none
  | .firmwareVersion => s.fwinfo.get = none ∧
      ∀ b ∈ [Buffer.frame, .ackbuf, .rxbuf], s.count b = none ∧ ∀ a, (s.buffer b).read a = none
  | .listPassiveTarget => s.uidlen.get = none ∧
      ∀ b ∈ [Buffer.frame, .ackbuf, .rxbuf, .uid], s.count b = none ∧ ∀ a, (s.buffer b).read a = none

/-- A register with other bits under its mark, if it is unwritten. -/
def Register.withUnread {w : Nat} (v : BitVec w) (c : Register w) : Register w :=
  if c.written then c else { value := v, written := false }

/-- The state with the bits of `e` where the spec states none and no agent can read them: `LASTSTAT` (R42) and
the unwritten results and counts (R40). -/
def State.withUnread (e s : State) : State :=
  { s with
    laststat := e.laststat
    ackok := s.ackok.withUnread e.ackok.value
    hdr := s.hdr.withUnread e.hdr.value
    fwinfo := s.fwinfo.withUnread e.fwinfo.value
    uidlen := s.uidlen.withUnread e.uidlen.value
    flen := s.flen.withUnread e.flen.value
    ackcnt := s.ackcnt.withUnread e.ackcnt.value
    rxcnt := s.rxcnt.withUnread e.rxcnt.value }

/-- Two states that show the same of the exchange they run: its phase, its flags, its event in progress, the
buffers it fills with their counts, and once it has ended its outcome (R136 to R142). -/
structure State.sameExchange (s t : State) : Prop where
  phase : s.phase = t.phase
  busy : s.status.busy = t.status.busy
  inProgress : s.inProgress = t.inProgress
  done : s.status.done = t.status.done
  outcome : s.status.done = true → s.status = t.status ∧ s.errinfo = t.errinfo
  buffers : ∀ b ∈ [Buffer.frame, .ackbuf, .rxbuf], s.count b = t.count b ∧ s.buffer b = t.buffer b

/-- The events of the not-ready probes of a ready-wait: each probe is followed by one delay (R131). -/
def pollEvents (ms : Nat) (statuses : List Byte) : List Event :=
  statuses.flatMap fun b => [.probe b, .delay ms]

end Sys2Proof.Machine
end

