-- ==== Sys2Proof/Certificates/Slice0/Obligations.lean ====
section
/-! DEFINITION. The statements about the machine, from the numbered rules of spec/. Each docstring names the
rules it formalises. -/

open Sys2Proof Sys2Proof.Machine

/-! ### Reset and the host port -/

/-- R22, R40, R44, R240 (derived): what reset leaves. The registers with a reset value hold it, every result is
unwritten, so a host read of it faults, and no event is in progress; and whatever bits the registers without one
hold, `REQ`, `LASTSTAT` and the unwritten results and counts, nothing reads them: host reads still fault, a step
waits in `IDLE`, and the next request runs the same. The model's choices in it: the bits at reset (entries 3 and
19), that an acceptance keeps `LASTSTAT` (entry 11), and that the results and counts it does not write keep
their bits under the mark (entry 19). -/
def Obligations.ResetLeavesSpecValues : Prop :=
  State.reset.phase = .idle ∧ State.reset.status.word = 0 ∧ State.reset.errinfo = 0 ∧
  State.reset.waitacc = 0 ∧ State.reset.wsub = false ∧ State.reset.inProgress = none ∧
  (∀ b i, (State.reset.buffer b).read i = none) ∧
  (∀ r : HostReg, r.isResult = true → hostRead r State.reset = .fault (.unwrittenResult r)) ∧
  (∀ (q : Req) (e u : State), u = { State.withUnread e State.reset with req := q } →
    (∀ r : HostReg, r.isResult = true → hostRead r u = .fault (.unwrittenResult r)) ∧
    step u = .next u ∧ ∀ i : Instr, exec i u = mapNext (State.withUnread e) (exec i State.reset))

/-- R215, R241, R242 (derived: what stays is entry 13): reset at any time, also while an event is in progress at the
adapter, leaves the reset values, without a completion and with no event in progress, and keeps the parameters,
the host, the adapter and the records of the two ports. -/
def Obligations.ResetAtAnyTime : Prop :=
  ∀ (s : State) (rest : List HostAction), s.host = .reset :: rest →
    step s = .next { State.reset with
      cfg := s.cfg, trace := s.trace, host := rest, hostReads := s.hostReads, adapter := s.adapter }

/-- R44, R250: a request presented while `BUSY = 1` is refused, whatever it is. -/
def Obligations.RequestWhileBusyRefused : Prop :=
  ∀ (s : State) (h : Header) (data : List Byte) (rest : List HostAction),
    s.host = .request h data :: rest → s.status.busy = true → step s = .refused .busy

/-- R44, R74, R75, R216 (derived): a reserved selector completes at once with `E_BAD_OP`, with no event and no
change to any result register. The whole next state is stated: the latch, the flags, `WSUB`, `WAITACC` and
`DATA` are as the acceptance of R44 writes them, and that `DATA` keeps its earlier bytes when `DLEN` is above
262 is the model's reading (entry 10). -/
def Obligations.ReservedSelectorIsBadOp : Prop :=
  ∀ (s : State) (h : Header) (data : List Byte) (rest : List HostAction),
    s.host = .request h data :: rest → s.status.busy = false → data.length = (h.extractLsb' 16 16).toNat →
    h.extractLsb' 0 8 ∉ [0x01#8, 0x02#8, 0x03#8, 0x10#8, 0x20#8, 0x21#8, 0x30#8, 0x31#8] →
    step s = .next { s with
      host := rest
      req := ⟨h.extractLsb' 0 8, h.extractLsb' 8 8, h.extractLsb' 16 16, h.extractLsb' 32 16,
        h.extractLsb' 48 16⟩
      data := if data.length ≤ 262 then Memory.ofBytes data else s.data
      status := ⟨false, true, .badOp, .idle⟩
      errinfo := (h.extractLsb' 0 8).setWidth 16
      phase := .idle, wsub := false, waitacc := 0 }

/-- R40, R251 (derived): a host read of a result register or count faults while `BUSY = 1` and while it is
unwritten; else it delivers the value. `STATUS` and `ERRINFO` are readable at any time (entry 12). Nothing
in the block changes. -/
def Obligations.HostReadsRegisters : Prop :=
  ∀ (s : State) (r : HostReg) (rest : List HostAction), s.host = .read r :: rest →
    (r.isResult = true → s.status.busy = true → step s = .fault (.resultWhileBusy r)) ∧
    (∀ p ∈ [(HostReg.ackok, s.ackok.get.map (·.setWidth 32)), (.hdr, s.hdr.get.map (·.setWidth 32)),
        (.fwinfo, s.fwinfo.get), (.uidlen, s.uidlen.get.map (·.setWidth 32)), (.flen, s.flen.get.map (·.setWidth 32)),
        (.ackcnt, s.ackcnt.get.map (·.setWidth 32)), (.rxcnt, s.rxcnt.get.map (·.setWidth 32))],
      r = p.1 → s.status.busy = false →
      step s = match p.2 with
        | some v => .next { s with host := rest, hostReads := s.hostReads ++ [(r, v)] }
        | none => .fault (.unwrittenResult r)) ∧
    (r = .status → (∀ n, s.status.errCode ≠ .reserved n) →
      step s = .next { s with host := rest, hostReads := s.hostReads ++ [(r, s.status.word)] }) ∧
    (r = .errinfo →
      step s = .next { s with host := rest, hostReads := s.hostReads ++ [(r, s.errinfo.setWidth 32)] })

/-- R40, R53, R54, R251 (derived): a host read of a byte of a result buffer faults while `BUSY = 1`, while
the buffer is unwritten, and at or above the valid count; else it delivers the byte. -/
def Obligations.HostReadsBufferBytes : Prop :=
  ∀ (s : State) (i : Nat) (rest : List HostAction),
    ∀ p ∈ [(Buffer.uid, HostReg.uid i), (.frame, .frame i), (.ackbuf, .ackbuf i), (.rxbuf, .rxbuf i)],
      s.host = .read p.2 :: rest →
      (s.status.busy = true → step s = .fault (.resultWhileBusy p.2)) ∧
      (s.status.busy = false → s.count p.1 = none → step s = .fault (.unwrittenResult p.2)) ∧
      (∀ n, s.status.busy = false → s.count p.1 = some n → n ≤ i → step s = .fault (.bufferRead p.1)) ∧
      (∀ n v, s.status.busy = false → s.count p.1 = some n → i < n → (s.buffer p.1).read i = some v →
        step s = .next { s with host := rest, hostReads := s.hostReads ++ [(p.2, v.setWidth 32)] })

/-- A step runs the decoded request: when the descriptor at the head of the host's actions decodes to an
instruction, the step is exec of it on the state with the action taken. -/
def Obligations.StepRunsDecodedRequest : Prop :=
  ∀ (s : State) (h : Header) (data : List Byte) (rest : List HostAction) (i : Instr),
    s.host = .request h data :: rest → decode h data = .instr i →
    step s = exec i { s with host := rest }

/-- The instruction placed by `withFetchWord` is the one the next step runs. -/
def Obligations.FetchWordRunsNext : Prop :=
  ∀ (s : State) (nbits w : Nat) (i : Instr), decodeTableWord nbits w = some i →
    step (s.withFetchWord nbits w) = exec i s

/-! ### Encodings -/

/-- R71, R72: a few words, written out from the encoding tables, decode to the requests they stand for. -/
def Obligations.WordsDecodeAsWritten : Prop :=
  decode 0x0000000000010001 [0x02] = .instr (.encode ⟨0, 0, 0, [0x02]⟩) ∧
  decode 0x0000000000060002 [0, 0, 0xFF, 0, 0xFF, 0] =
    .instr (.validateAck ⟨0, 0, 0, [0, 0, 0xFF, 0, 0xFF, 0]⟩) ∧
  decode 0x000D003200010010 [0x02] = .instr (.exchange ⟨0, 50, 13, [0x02]⟩) ∧
  decode 0x0000006400000030 [] = .instr (.firmwareVersion ⟨0, 100, 0, []⟩) ∧
  decode 0x0000000000000231 [] = .instr (.listPassiveTarget ⟨2, 0, 0, []⟩) ∧
  decode 0x0000000000000011 [] = .rejected (.reservedSelector 0x11)

/-- R70 to R72: decoding the encoding of any well-formed request gives it back, every operand included. -/
def Obligations.DecodeOfEncode : Prop :=
  ∀ i : Instr, i.wellFormed → decode (encode i).1 (encode i).2 = .instr i

/-- R70 to R72: a descriptor that decodes is the encoding of what it decodes to, which is well formed, so
each request has one descriptor. -/
def Obligations.EncodeOfDecode : Prop :=
  ∀ (h : Header) (data : List Byte) (i : Instr), decode h data = .instr i →
    i.wellFormed ∧ encode i = (h, data)

/-- R90 (derived): a line of text, its mnemonic (an operation name of R72) and any of the optional fields in
R90's order, parses to these fields; it assembles to the header
`OPSEL | CARDTYPE<<8 | DLEN<<16 | TIMEOUT<<32 | RLEN<<48`, an omitted field being 0, and decodes to the
operation its mnemonic names. The text here has two hexadecimal digits a byte and decimal numbers without
leading zeros (entry 16). -/
def Obligations.AssembledLineDecodes : Prop :=
  (Op.all.map fun o => (o.mnemonic, o.selector)) =
    [("ENCODE", 0x01), ("VALIDATE_ACK", 0x02), ("DECODE_HEADER", 0x03), ("EXCHANGE", 0x10),
      ("DECODE_FW", 0x20), ("DECODE_TARGET", 0x21), ("FIRMWARE_VERSION", 0x30),
      ("LIST_PASSIVE_TARGET", 0x31)] ∧
  (∀ l : AsmLine, l.op ∈ Op.all ∧ parseLine l.text = some l) ∧
  ∀ l : AsmLine, (l.data.getD []).length < 65536 →
    l.assemble.1.toNat = l.op.selector.toNat + (l.cardType.getD 0).toNat * 2 ^ 8 +
      (l.data.getD []).length * 2 ^ 16 + (l.timeout.getD 0).toNat * 2 ^ 32 + (l.rlen.getD 0).toNat * 2 ^ 48 ∧
    l.assemble.2 = l.data.getD [] ∧
    decode l.assemble.1 l.assemble.2 = .instr (l.op.instr
      ⟨l.cardType.getD 0, l.timeout.getD 0, l.rlen.getD 0, l.data.getD []⟩)

/-- R29, R210, R22: the layout of `STATUS`, with its reserved bits 0 and `ERR` equal to `ERRCODE ≠ 0`, the numbers
and the classes of the error codes (the columns `code` and `class` of R210), and the numbers of the phases. -/
def Obligations.StatusWordLayout : Prop :=
  (∀ p ∈ [(ErrCode.ok, 0, none), (.badOp, 1, some .callerMisuse), (.badLength, 2, some .callerMisuse),
      (.payloadTooLong, 3, some .callerMisuse), (.send, 4, some .linkIntegrity),
      (.timeout1, 5, some .timeout), (.ack, 6, some .linkIntegrity), (.timeout2, 7, some .timeout),
      (.respRead, 8, some .linkIntegrity), (.truncated, 9, some .linkIntegrity),
      (.unexpectedResponse, 10, some .chipReported), (.targetCount, 11, some ErrClass.chipReported)],
    p.1.code.toNat = p.2.1 ∧ p.1.errClass = p.2.2) ∧
  (∀ p ∈ [(Phase.idle, 0), (.send, 1), (.wait1, 2), (.settle1, 3), (.ackRead, 4), (.settle2, 5), (.wait2, 6),
      (.respRead, 7), (.parse, 8)], p.1.code.toNat = p.2) ∧
  (∀ n, (ErrCode.reserved n).code.toNat = 12 + n.val) ∧ (∀ n, (Phase.reserved n).code.toNat = 9 + n.val) ∧
  ∀ st : Status,
    st.word.getLsbD 0 = st.busy ∧ st.word.getLsbD 1 = st.done ∧
    (st.word.getLsbD 2 = true ↔ st.word.extractLsb' 8 4 ≠ 0) ∧
    st.word.extractLsb' 3 5 = 0 ∧ st.word.extractLsb' 8 4 = st.errCode.code ∧
    st.word.extractLsb' 12 4 = st.errPhase.code ∧ st.word.extractLsb' 16 16 = 0

/-- R80, R81: the layout of a command frame, field by field, and its length. -/
def Obligations.FrameLayout : Prop :=
  ∀ pd : List Byte, pd.length ≤ 254 →
    (buildFrame pd).length = pd.length + 8 ∧
    (buildFrame pd).take 3 = [0x00, 0x00, 0xFF] ∧
    (∃ len lcs, (buildFrame pd)[3]? = some len ∧ (buildFrame pd)[4]? = some lcs ∧
      len.toNat = pd.length + 1 ∧ (buildFrame pd).length = len.toNat + 7 ∧
      lcs.toNat = (256 - len.toNat) % 256) ∧
    (buildFrame pd)[5]? = some 0xD4 ∧
    ((buildFrame pd).drop 6).take pd.length = pd ∧
    (∃ dcs, (buildFrame pd)[6 + pd.length]? = some dcs ∧
      dcs.toNat = (256 - (0xD4 + (pd.map BitVec.toNat).sum) % 256) % 256) ∧
    (buildFrame pd)[7 + pd.length]? = some 0x00

/-- R82: the checksum laws of every command frame. -/
def Obligations.ChecksumLaws : Prop :=
  ∀ pd : List Byte, pd.length ≤ 254 →
    ∃ len lcs tfi dcs, (buildFrame pd)[3]? = some len ∧ (buildFrame pd)[4]? = some lcs ∧
      (buildFrame pd)[5]? = some tfi ∧ (buildFrame pd)[6 + pd.length]? = some dcs ∧
      len + lcs = 0 ∧ tfi + (((buildFrame pd).drop 6).take pd.length).foldr (· + ·) 0 + dcs = 0

/-- R111: `is_ack` is true of the 6-byte pattern only, and false of every single-byte mutation of it. -/
def Obligations.AckTestIsExact : Prop :=
  (∀ r : List Byte, isAck r = true ↔
    r.length = 6 ∧ ∀ i, i < 6 → r[i]? = [0x00#8, 0x00#8, 0xFF#8, 0x00#8, 0xFF#8, 0x00#8][i]?) ∧
  (∀ (i : Nat) (v : Byte), i < 6 → [0x00#8, 0x00#8, 0xFF#8, 0x00#8, 0xFF#8, 0x00#8][i]? ≠ some v →
    isAck ([0x00#8, 0x00#8, 0xFF#8, 0x00#8, 0xFF#8, 0x00#8].set i v) = false)

/-! ### The codec operations and the standalone decodes -/

/-- R103, R104: ENCODE of a payload within the limit succeeds: `FRAME` holds its command frame, `FLEN` its
length, and nothing else but the request latch, `DATA`, the flags, and `WSUB` and `WAITACC` as the model
reads R44 (entry 9) changes. -/
def Obligations.EncodeBuildsFrame : Prop :=
  ∀ (r : Operands) (s : State), s.cfg.wf → s.status.busy = false → r.data.length ≤ s.cfg.maxPayload →
    exec (.encode r) s = .next { s with
      req := ⟨0x01, r.cardType, BitVec.ofNat 16 r.data.length, r.timeout, r.rlen⟩
      data := Memory.ofBytes r.data
      frame := Memory.ofBytes (buildFrame r.data)
      flen := Register.of (BitVec.ofNat 9 (r.data.length + 8))
      status := ⟨false, true, .ok, .idle⟩
      errinfo := 0, phase := .idle, wsub := false, waitacc := 0 }

/-- R110: VALIDATE_ACK sets `ACKOK` to whether its input is the ack pattern; a mismatch is no error. `WSUB`
and `WAITACC` are as entry 9 has them. -/
def Obligations.ValidateAckComparesPattern : Prop :=
  ∀ (r : Operands) (s : State), s.status.busy = false → r.data.length ≤ 262 →
    exec (.validateAck r) s = .next { s with
      req := ⟨0x02, r.cardType, BitVec.ofNat 16 r.data.length, r.timeout, r.rlen⟩
      data := Memory.ofBytes r.data
      ackok := Register.of (if r.data = [0x00, 0x00, 0xFF, 0x00, 0xFF, 0x00] then 1 else 0)
      status := ⟨false, true, .ok, .idle⟩
      errinfo := 0, phase := .idle, wsub := false, waitacc := 0 }

/-- R120: DECODE_HEADER packs offsets 5, 4, 3 into `HDR`, whatever the other bytes are; a frame of fewer
than 6 bytes raises `E_TRUNCATED(6)` and leaves `HDR` unwritten, its bits under the mark (entry 19). `WSUB` and
`WAITACC` are as entry 9 has them. -/
def Obligations.DecodeHeaderPacksFields : Prop :=
  ∀ (r : Operands) (s : State), s.status.busy = false → r.data.length ≤ 262 →
    (∀ b0 b1 b2 len lcs tfi rest, r.data = b0 :: b1 :: b2 :: len :: lcs :: tfi :: rest →
      exec (.decodeHeader r) s = .next { s with
        req := ⟨0x03, r.cardType, BitVec.ofNat 16 r.data.length, r.timeout, r.rlen⟩
        data := Memory.ofBytes r.data
        hdr := Register.of (tfi ++ lcs ++ len)
        status := ⟨false, true, .ok, .idle⟩
        errinfo := 0, phase := .idle, wsub := false, waitacc := 0 }) ∧
    (r.data.length < 6 →
      exec (.decodeHeader r) s = .next { s with
        req := ⟨0x03, r.cardType, BitVec.ofNat 16 r.data.length, r.timeout, r.rlen⟩
        data := Memory.ofBytes r.data
        hdr := s.hdr.unwritten
        status := ⟨false, true, .truncated, .idle⟩
        errinfo := 6, phase := .idle, wsub := false, waitacc := 0 })

/-- R170, R171: DECODE_FW of a response with the prefix extracts `IC`, `VER`, `REV`, `SUP` from offsets 7
to 10 into `FWINFO`; offset 6 and every byte after offset 10 are unread. -/
def Obligations.DecodeFwExtractsFields : Prop :=
  ∀ (r : Operands) (s : State) (code ic ver rev sup : Byte) (rest : List Byte),
    s.status.busy = false → r.data.length ≤ 262 →
    r.data = [0x00, 0x00, 0xFF, 0x06, 0xFA, 0xD5, code, ic, ver, rev, sup] ++ rest →
    exec (.decodeFw r) s = .next { s with
      req := ⟨0x20, r.cardType, BitVec.ofNat 16 r.data.length, r.timeout, r.rlen⟩
      data := Memory.ofBytes r.data
      fwinfo := Register.of (ic ++ ver ++ rev ++ sup)
      status := ⟨false, true, .ok, .idle⟩
      errinfo := 0, phase := .idle, wsub := false, waitacc := 0 }

/-- R170: the errors of DECODE_FW: truncation before the prefix, then the first differing byte with its
offset. `FWINFO` stays unwritten, its bits under the mark (entry 19). -/
def Obligations.DecodeFwReportsErrors : Prop :=
  ∀ (r : Operands) (s : State), s.status.busy = false → r.data.length ≤ 262 →
    (r.data.length < 11 →
      exec (.decodeFw r) s = .next { s with
        req := ⟨0x20, r.cardType, BitVec.ofNat 16 r.data.length, r.timeout, r.rlen⟩
        data := Memory.ofBytes r.data
        fwinfo := s.fwinfo.unwritten
        status := ⟨false, true, .truncated, .idle⟩
        errinfo := 11, phase := .idle, wsub := false, waitacc := 0 }) ∧
    (∀ (i : Nat) (b : Byte), 11 ≤ r.data.length → i < 6 → r.data[i]? = some b →
      r.data.take i = [0x00#8, 0x00#8, 0xFF#8, 0x06#8, 0xFA#8, 0xD5#8].take i →
      [0x00#8, 0x00#8, 0xFF#8, 0x06#8, 0xFA#8, 0xD5#8][i]? ≠ some b →
      exec (.decodeFw r) s = .next { s with
        req := ⟨0x20, r.cardType, BitVec.ofNat 16 r.data.length, r.timeout, r.rlen⟩
        data := Memory.ofBytes r.data
        fwinfo := s.fwinfo.unwritten
        status := ⟨false, true, .unexpectedResponse, .idle⟩
        errinfo := BitVec.ofNat 16 (b.toNat * 256 + i), phase := .idle, wsub := false, waitacc := 0 })

/-- R176, R177, R178: DECODE_TARGET of a response with one target returns exactly the `L` bytes after the
UID-length byte `L`, whatever `L` is, when they are present. -/
def Obligations.DecodeTargetReturnsUid : Prop :=
  ∀ (r : Operands) (s : State) (l : Byte), s.status.busy = false → r.data.length ≤ 262 →
    r.data[7]? = some 0x01 → r.data[s.cfg.uidLenOff]? = some l → s.cfg.uidLenOff + 1 + l.toNat ≤ r.data.length →
    exec (.decodeTarget r) s = .next { s with
      req := ⟨0x21, r.cardType, BitVec.ofNat 16 r.data.length, r.timeout, r.rlen⟩
      data := Memory.ofBytes r.data
      uidlen := Register.of l
      uid := Memory.ofBytes ((r.data.drop (s.cfg.uidLenOff + 1)).take l.toNat)
      status := ⟨false, true, .ok, .idle⟩
      errinfo := 0, phase := .idle, wsub := false, waitacc := 0 }

/-- R176: the errors of DECODE_TARGET in the order of its checks: fewer than 8 bytes; a count other than 1;
no UID-length byte; a missing UID byte. `UIDLEN`, its bits under the mark (entry 19), and `UID` stay
unwritten. -/
def Obligations.DecodeTargetReportsErrors : Prop :=
  ∀ (r : Operands) (s : State) (code : ErrCode) (info : Nat),
    s.status.busy = false → r.data.length ≤ 262 →
    ((r.data.length < 8 ∧ code = .truncated ∧ info = 8) ∨
      (∃ c, r.data[7]? = some c ∧ c ≠ 0x01 ∧ code = .targetCount ∧ info = c.toNat) ∨
      (r.data[7]? = some 0x01 ∧ r.data.length ≤ s.cfg.uidLenOff ∧ code = .truncated ∧
        info = s.cfg.uidLenOff + 1) ∨
      (∃ l, r.data[7]? = some 0x01 ∧ r.data[s.cfg.uidLenOff]? = some l ∧
        r.data.length < s.cfg.uidLenOff + 1 + l.toNat ∧ code = .truncated ∧
        info = s.cfg.uidLenOff + 1 + l.toNat)) →
    exec (.decodeTarget r) s = .next { s with
      req := ⟨0x21, r.cardType, BitVec.ofNat 16 r.data.length, r.timeout, r.rlen⟩
      data := Memory.ofBytes r.data
      uidlen := s.uidlen.unwritten
      uid := []
      status := ⟨false, true, code, .idle⟩
      errinfo := BitVec.ofNat 16 info, phase := .idle, wsub := false, waitacc := 0 }

/-- R40, R74: the operand checks 2 to 4 in their order, with their errors; `ERRPHASE = IDLE`, no event, and
every output of the operation is left unwritten. Check 1 is `ReservedSelectorIsBadOp`. -/
def Obligations.OperandChecksInOrder : Prop :=
  ∀ (r : Operands) (s : State), r.wellFormed → s.status.busy = false →
    (∀ i ∈ [Instr.encode r, .exchange r], s.cfg.maxPayload < r.data.length →
      ∃ t, exec i s = .next t ∧ t.status = ⟨false, true, .payloadTooLong, .idle⟩ ∧
        t.errinfo.toNat = r.data.length ∧ t.phase = .idle ∧ t.trace = s.trace ∧ t.outputsUnwritten i.op) ∧
    (∀ i ∈ [Instr.validateAck r, .decodeHeader r, .decodeFw r, .decodeTarget r], 262 < r.data.length →
      ∃ t, exec i s = .next t ∧ t.status = ⟨false, true, .badLength, .idle⟩ ∧
        t.errinfo.toNat = r.data.length ∧ t.phase = .idle ∧ t.trace = s.trace ∧ t.outputsUnwritten i.op) ∧
    (r.data.length ≤ s.cfg.maxPayload → 262 < r.rlen.toNat →
      ∃ t, exec (.exchange r) s = .next t ∧ t.status = ⟨false, true, .badLength, .idle⟩ ∧
        t.errinfo = r.rlen ∧ t.phase = .idle ∧ t.trace = s.trace ∧ t.outputsUnwritten .exchange)

/-- R100 (derived; without its clause on `WAITACC` and `WSUB`, entry 9): the result of a Frame Codec
operation depends only on the request, never on earlier operations, and it makes no event. -/
def Obligations.CodecDependsOnRequestOnly : Prop :=
  ∀ (r : Operands) (s₁ s₂ t₁ : State), s₁.cfg = s₂.cfg → s₂.status.busy = false → r.data.length ≤ 262 →
    (exec (.encode r) s₁ = .next t₁ → ∃ t₂, exec (.encode r) s₂ = .next t₂ ∧ t₂.status = t₁.status ∧
      t₂.errinfo = t₁.errinfo ∧ t₂.frame = t₁.frame ∧ t₂.flen.get = t₁.flen.get ∧ t₂.phase = .idle ∧
      t₁.trace = s₁.trace) ∧
    (exec (.validateAck r) s₁ = .next t₁ → ∃ t₂, exec (.validateAck r) s₂ = .next t₂ ∧
      t₂.status = t₁.status ∧ t₂.errinfo = t₁.errinfo ∧ t₂.ackok.get = t₁.ackok.get ∧ t₂.phase = .idle ∧
      t₁.trace = s₁.trace) ∧
    (exec (.decodeHeader r) s₁ = .next t₁ → ∃ t₂, exec (.decodeHeader r) s₂ = .next t₂ ∧
      t₂.status = t₁.status ∧ t₂.errinfo = t₁.errinfo ∧ t₂.hdr.get = t₁.hdr.get ∧ t₂.phase = .idle ∧
      t₁.trace = s₁.trace)

/-- The frame of ENCODE, VALIDATE_ACK and DECODE_HEADER (R40, R103, R110, R120): every register but the
latch, the flags, `PHASE`, `WSUB`, `WAITACC` and the operation's own output is unchanged, and so is every
byte of every buffer but `DATA` and, for ENCODE, `FRAME`; the bytes of those two are stated (`DATA` as entry
10, `LASTSTAT` as entry 11 has it). -/
def Obligations.CodecFrame : Prop :=
  ∀ (r : Operands) (s t : State), ∀ i ∈ [Instr.encode r, .validateAck r, .decodeHeader r],
    r.wellFormed → exec i s = .next t →
    t.cfg = s.cfg ∧ t.laststat = s.laststat ∧ t.fwinfo = s.fwinfo ∧ t.uidlen = s.uidlen ∧
    t.ackcnt = s.ackcnt ∧ t.rxcnt = s.rxcnt ∧ t.trace = s.trace ∧ t.host = s.host ∧
    t.hostReads = s.hostReads ∧ t.adapter = s.adapter ∧ t.inProgress = s.inProgress ∧
    (i ≠ .encode r → t.flen = s.flen) ∧ (i ≠ .validateAck r → t.ackok = s.ackok) ∧
    (i ≠ .decodeHeader r → t.hdr = s.hdr) ∧
    (∀ a, t.ackbuf.read a = s.ackbuf.read a ∧ t.rxbuf.read a = s.rxbuf.read a ∧
      t.uid.read a = s.uid.read a) ∧
    (i ≠ .encode r → ∀ a, t.frame.read a = s.frame.read a) ∧
    (i = .encode r → ∀ a, t.frame.read a =
      if t.status.errCode = .ok then (buildFrame r.data)[a]? else none) ∧
    (∀ a, t.data.read a = if r.data.length ≤ 262 then r.data[a]? else s.data.read a)

/-- The frame of DECODE_FW and DECODE_TARGET (R40, R170, R176; entries 10 and 11), in the same form. -/
def Obligations.ResponseDecodeFrame : Prop :=
  ∀ (r : Operands) (s t : State), ∀ i ∈ [Instr.decodeFw r, .decodeTarget r],
    r.wellFormed → exec i s = .next t →
    t.cfg = s.cfg ∧ t.laststat = s.laststat ∧ t.ackok = s.ackok ∧ t.hdr = s.hdr ∧ t.flen = s.flen ∧
    t.ackcnt = s.ackcnt ∧ t.rxcnt = s.rxcnt ∧ t.trace = s.trace ∧ t.host = s.host ∧
    t.hostReads = s.hostReads ∧ t.adapter = s.adapter ∧ t.inProgress = s.inProgress ∧
    (i ≠ .decodeFw r → t.fwinfo = s.fwinfo) ∧ (i ≠ .decodeTarget r → t.uidlen = s.uidlen) ∧
    (∀ a, t.frame.read a = s.frame.read a ∧ t.ackbuf.read a = s.ackbuf.read a ∧
      t.rxbuf.read a = s.rxbuf.read a) ∧
    (i ≠ .decodeTarget r → ∀ a, t.uid.read a = s.uid.read a) ∧
    (i = .decodeTarget r → ∀ a, t.uid.read a =
      match t.uidlen.get with
      | some l => ((r.data.drop (s.cfg.uidLenOff + 1)).take l.toNat)[a]?
      | none => none) ∧
    (∀ a, t.data.read a = if r.data.length ≤ 262 then r.data[a]? else s.data.read a)

/-! ### The exchange -/

/-- R44, R136 (its acceptance step): an EXCHANGE that passes its checks builds its frame and enters `SEND`.
The whole next state is stated; that the acceptance keeps `LASTSTAT` (entry 11) and the bits of the counts it
makes unwritten (entry 19) is the model's reading. -/
def Obligations.ExchangeEntersSend : Prop :=
  ∀ (r : Operands) (s : State), s.cfg.wf → s.status.busy = false → r.data.length ≤ s.cfg.maxPayload →
    r.rlen.toNat ≤ 262 →
    exec (.exchange r) s = .next { s with
      req := ⟨0x10, r.cardType, BitVec.ofNat 16 r.data.length, r.timeout, r.rlen⟩
      data := Memory.ofBytes r.data
      frame := Memory.ofBytes (buildFrame r.data)
      flen := Register.of (BitVec.ofNat 9 (r.data.length + 8))
      ackbuf := [], ackcnt := s.ackcnt.unwritten, rxbuf := [], rxcnt := s.rxcnt.unwritten
      status := { s.status with busy := true, done := false }
      phase := .send, wsub := false, waitacc := 0 }

/-- R87, R185 (its acceptance step): FIRMWARE_VERSION builds the frame of `[02]` and enters `SEND`, with
no operand check, whatever its unused fields are. The latch, `DATA` and the flags are as R44 writes them; that
`DATA` keeps its earlier bytes when `DLEN` is above 262 (entry 10), and that `LASTSTAT` (entry 11) and the bits
of the results and counts that become unwritten (entry 19) are kept, are the model's readings. -/
def Obligations.FirmwareVersionEntersSend : Prop :=
  ∀ (r : Operands) (s : State), s.status.busy = false →
    exec (.firmwareVersion r) s = .next { s with
      req := ⟨0x30, r.cardType, BitVec.ofNat 16 r.data.length, r.timeout, r.rlen⟩
      data := if r.data.length ≤ 262 then Memory.ofBytes r.data else s.data
      frame := Memory.ofBytes [0x00, 0x00, 0xFF, 0x02, 0xFE, 0xD4, 0x02, 0x2A, 0x00]
      flen := Register.of 9
      ackbuf := [], ackcnt := s.ackcnt.unwritten, rxbuf := [], rxcnt := s.rxcnt.unwritten
      fwinfo := s.fwinfo.unwritten
      status := { s.status with busy := true, done := false }
      phase := .send, wsub := false, waitacc := 0 }

/-- R87, R190 (its acceptance step): LIST_PASSIVE_TARGET builds the frame of `[4A 01 CARDTYPE]` and enters
`SEND`. The latch, `DATA` and the flags are as R44 writes them; that `DATA` keeps its earlier bytes when `DLEN`
is above 262 (entry 10), and that `LASTSTAT` (entry 11) and the bits of the results and counts that become
unwritten (entry 19) are kept, are the model's readings. -/
def Obligations.ListPassiveTargetEntersSend : Prop :=
  ∀ (r : Operands) (s : State), s.status.busy = false →
    exec (.listPassiveTarget r) s = .next { s with
      req := ⟨0x31, r.cardType, BitVec.ofNat 16 r.data.length, r.timeout, r.rlen⟩
      data := if r.data.length ≤ 262 then Memory.ofBytes r.data else s.data
      frame := Memory.ofBytes [0x00, 0x00, 0xFF, 0x04, 0xFC, 0xD4, 0x4A, 0x01, r.cardType,
        0xE1 - r.cardType, 0x00]
      flen := Register.of 11
      ackbuf := [], ackcnt := s.ackcnt.unwritten, rxbuf := [], rxcnt := s.rxcnt.unwritten
      uidlen := s.uidlen.unwritten, uid := []
      status := { s.status with busy := true, done := false }
      phase := .send, wsub := false, waitacc := 0 }

/-- The frame of the acceptance of EXCHANGE, FIRMWARE_VERSION and LIST_PASSIVE_TARGET (R40, R44): every
register but the latch, the flags, `PHASE`, `WSUB`, `WAITACC` and the operation's outputs is unchanged, and
every byte of the buffers that are no output of it; the bytes of the others are stated (entries 10, 11
and 19). -/
def Obligations.ExchangeAcceptanceFrame : Prop :=
  ∀ (r : Operands) (s t : State),
    ∀ p ∈ [(Instr.exchange r, r.data), (.firmwareVersion r, [0x02]),
      (.listPassiveTarget r, [0x4A, 0x01, r.cardType])],
    r.wellFormed → exec p.1 s = .next t →
    t.cfg = s.cfg ∧ t.laststat = s.laststat ∧ t.ackok = s.ackok ∧ t.hdr = s.hdr ∧ t.trace = s.trace ∧
    t.host = s.host ∧ t.hostReads = s.hostReads ∧ t.adapter = s.adapter ∧ t.inProgress = s.inProgress ∧
    t.ackcnt = s.ackcnt.unwritten ∧ t.rxcnt = s.rxcnt.unwritten ∧ (t.status.busy = true → t.errinfo = s.errinfo) ∧
    (p.1 ≠ .firmwareVersion r → t.fwinfo = s.fwinfo) ∧
    (p.1 ≠ .listPassiveTarget r → t.uidlen = s.uidlen ∧ ∀ a, t.uid.read a = s.uid.read a) ∧
    (∀ a, t.frame.read a = if t.status.busy = true then (buildFrame p.2)[a]? else none) ∧
    (∀ a, t.ackbuf.read a = none ∧ t.rxbuf.read a = none) ∧
    (∀ a, t.data.read a = if r.data.length ≤ 262 then r.data[a]? else s.data.read a)

/-- R137: the `SEND` step writes `FRAME[0..FLEN)` once; `ok` enters `WAIT1`, `fail` raises `E_SEND(0)`. A
write that is never answered stays in progress, its begun event in the trace (I14; entry 20). -/
def Obligations.SendPhase : Prop :=
  ∀ (s : State) (w : List Byte) (n : BitVec 9), s.host = [] → s.inProgress = none → s.phase = .send →
    s.flen = Register.of n → n.toNat = w.length → s.frame.readBytes 0 w.length = some w →
    (s.adapter.drawWrite.1 = .ok →
      step s = .next { s with
        trace := s.trace ++ [.write w true], adapter := s.adapter.drawWrite.2
        phase := .wait1, waitacc := 0, wsub := false }) ∧
    (s.adapter.drawWrite.1 = .fail →
      step s = .next { s with
        trace := s.trace ++ [.write w false], adapter := s.adapter.drawWrite.2
        status := ⟨false, true, .send, .send⟩, errinfo := 0, phase := .idle }) ∧
    (s.adapter.drawWrite.1 = .never →
      step s = .next { s with
        trace := s.trace ++ [.unanswered (.write w)], adapter := s.adapter.drawWrite.2
        inProgress := some (.write w) })

/-- R131: each step of the first ready-wait: the delay, and the probe with its four outcomes, ready,
wait indefinitely, timed out (strictly above the timeout) and wait on. A probe that is never answered stays in
progress (R59, I14; its place in the trace is entry 20). -/
def Obligations.FirstWaitStep : Prop :=
  ∀ s : State, s.host = [] → s.inProgress = none → s.phase = .wait1 →
    (s.wsub = true →
      step s = .next { s with trace := s.trace ++ [.delay s.cfg.pollMs], wsub := false }) ∧
    (∀ b, s.wsub = false → s.adapter.drawProbe.1 = .status b →
      step s = .next (
        let u := { s with trace := s.trace ++ [Event.probe b], adapter := s.adapter.drawProbe.2, laststat := b }
        if b ∈ s.cfg.readyStatuses then { u with phase := .settle1 }
        else if s.req.timeout = 0 then { u with wsub := true }
        else if s.req.timeout.toNat < s.waitacc + s.cfg.pollMs then
          { u with waitacc := s.waitacc + s.cfg.pollMs, status := ⟨false, true, .timeout1, .wait1⟩,
                   errinfo := b.setWidth 16, phase := .idle }
        else { u with waitacc := s.waitacc + s.cfg.pollMs, wsub := true })) ∧
    (s.wsub = false → s.adapter.drawProbe.1 = .never →
      step s = .next { s with
        trace := s.trace ++ [.unanswered .probe], adapter := s.adapter.drawProbe.2, inProgress := some .probe })

/-- R131, R141: each step of the second ready-wait of an operation that reads `n` response bytes; a ready
probe leads to the response read, or ends an EXCHANGE that asks for no bytes. A probe that is never answered
stays in progress (R59, I14; its place in the trace is entry 20). -/
def Obligations.SecondWaitStep : Prop :=
  ∀ (s : State) (n : Nat), s.host = [] → s.inProgress = none → s.phase = .wait2 → s.respLen = some n →
    (s.wsub = true →
      step s = .next { s with trace := s.trace ++ [.delay s.cfg.pollMs], wsub := false }) ∧
    (∀ b, s.wsub = false → s.adapter.drawProbe.1 = .status b →
      step s = .next (
        let u := { s with trace := s.trace ++ [Event.probe b], adapter := s.adapter.drawProbe.2, laststat := b }
        if b ∈ s.cfg.readyStatuses then
          if n = 0 then
            { u with rxcnt := Register.of 0, status := ⟨false, true, .ok, .idle⟩, errinfo := 0, phase := .idle }
          else { u with phase := .respRead }
        else if s.req.timeout = 0 then { u with wsub := true }
        else if s.req.timeout.toNat < s.waitacc + s.cfg.pollMs then
          { u with waitacc := s.waitacc + s.cfg.pollMs, status := ⟨false, true, .timeout2, .wait2⟩,
                   errinfo := b.setWidth 16, phase := .idle }
        else { u with waitacc := s.waitacc + s.cfg.pollMs, wsub := true })) ∧
    (s.wsub = false → s.adapter.drawProbe.1 = .never →
      step s = .next { s with
        trace := s.trace ++ [.unanswered .probe], adapter := s.adapter.drawProbe.2, inProgress := some .probe })

/-- R140: the settle phases make their delay, whatever its value, and go on. -/
def Obligations.SettlePhases : Prop :=
  ∀ s : State, s.host = [] → s.inProgress = none →
    (s.phase = .settle1 →
      step s = .next { s with trace := s.trace ++ [.delay s.cfg.settleMs], phase := .ackRead }) ∧
    (s.phase = .settle2 →
      step s = .next { s with
        trace := s.trace ++ [.delay s.cfg.settleMs], phase := .wait2, waitacc := 0, wsub := false })

/-- R138, R139, R58: the ack read of a fresh exchange: the bytes kept, at most 6, go to `ACKBUF`; a failure,
a short read and a mismatch are told apart, in that order; the pattern leads to `SETTLE2`. A read that is never
answered stays in progress (I14; its place in the trace is entry 20). -/
def Obligations.AckReadPhase : Prop :=
  ∀ s : State, s.host = [] → s.inProgress = none → s.phase = .ackRead → s.ackbuf = [] →
    (s.adapter.drawRead.1 = .fail →
      step s = .next { s with
        trace := s.trace ++ [.read 6 none], adapter := s.adapter.drawRead.2, ackcnt := Register.of 0
        status := ⟨false, true, .ack, .ackRead⟩, errinfo := 0x0300, phase := .idle }) ∧
    (∀ r, s.adapter.drawRead.1 = .ok r → r.length < 6 →
      step s = .next { s with
        trace := s.trace ++ [.read 6 (some r)], adapter := s.adapter.drawRead.2
        ackbuf := Memory.ofBytes r, ackcnt := Register.of (BitVec.ofNat 3 r.length)
        status := ⟨false, true, .ack, .ackRead⟩, errinfo := BitVec.ofNat 16 (0x0200 + r.length)
        phase := .idle }) ∧
    (∀ r (i : Nat) (b : Byte), s.adapter.drawRead.1 = .ok r → 6 ≤ r.length → i < 6 → r[i]? = some b →
      r.take i = [0x00#8, 0x00#8, 0xFF#8, 0x00#8, 0xFF#8, 0x00#8].take i →
      [0x00#8, 0x00#8, 0xFF#8, 0x00#8, 0xFF#8, 0x00#8][i]? ≠ some b →
      step s = .next { s with
        trace := s.trace ++ [.read 6 (some r)], adapter := s.adapter.drawRead.2
        ackbuf := Memory.ofBytes (r.take 6), ackcnt := Register.of 6
        status := ⟨false, true, .ack, .ackRead⟩, errinfo := BitVec.ofNat 16 (0x0100 + i)
        phase := .idle }) ∧
    (∀ r, s.adapter.drawRead.1 = .ok r → r.take 6 = [0x00, 0x00, 0xFF, 0x00, 0xFF, 0x00] →
      step s = .next { s with
        trace := s.trace ++ [.read 6 (some r)], adapter := s.adapter.drawRead.2
        ackbuf := Memory.ofBytes (r.take 6), ackcnt := Register.of 6, phase := .settle2 }) ∧
    (s.adapter.drawRead.1 = .never →
      step s = .next { s with
        trace := s.trace ++ [.unanswered (.read 6)], adapter := s.adapter.drawRead.2, inProgress := some (.read 6) })

/-- R141, R142, R58: the response read of a fresh exchange: a failure raises `E_RESP_READ(0)`; otherwise the
bytes kept, at most `n`, go to `RXBUF`, EXCHANGE succeeds and a composite goes on to `PARSE`. A read that is
never answered stays in progress (I14; its place in the trace is entry 20). -/
def Obligations.ResponseReadPhase : Prop :=
  ∀ (s : State) (n : Nat), s.host = [] → s.inProgress = none → s.phase = .respRead → s.rxbuf = [] →
    s.respLen = some n → n ≤ 262 →
    (s.adapter.drawRead.1 = .fail →
      step s = .next { s with
        trace := s.trace ++ [.read n none], adapter := s.adapter.drawRead.2, rxcnt := Register.of 0
        status := ⟨false, true, .respRead, .respRead⟩, errinfo := 0, phase := .idle }) ∧
    (∀ r, s.adapter.drawRead.1 = .ok r →
      step s = .next (
        let u := { s with
          trace := s.trace ++ [Event.read n (some r)], adapter := s.adapter.drawRead.2
          rxbuf := Memory.ofBytes (r.take n), rxcnt := Register.of (BitVec.ofNat 9 (r.take n).length) }
        if s.req.opsel = 0x10 then
          { u with status := ⟨false, true, .ok, .idle⟩, errinfo := 0, phase := .idle }
        else { u with phase := .parse })) ∧
    (s.adapter.drawRead.1 = .never →
      step s = .next { s with
        trace := s.trace ++ [.unanswered (.read n)], adapter := s.adapter.drawRead.2, inProgress := some (.read n) })

/-- R185, R190, R193: the `PARSE` step of a composite: what DECODE_FW and DECODE_TARGET do with the bytes of
`RXBUF`, with errors recorded in the phase `PARSE`; no event, and the buffers keep their bytes. -/
def Obligations.ParsePhase : Prop :=
  ∀ (s : State) (b : List Byte) (n : BitVec 9), s.host = [] → s.inProgress = none → s.phase = .parse →
    s.rxcnt = Register.of n → n.toNat = b.length → s.rxbuf.readBytes 0 b.length = some b →
    (s.req.opsel = 0x30 →
      step s = .next (
        match fwDecode b with
        | .ok v => { s with
            fwinfo := Register.of v, status := ⟨false, true, .ok, .idle⟩, errinfo := 0, phase := .idle }
        | .error e => { s with status := ⟨false, true, e.code, .parse⟩, errinfo := e.info, phase := .idle })) ∧
    (s.req.opsel = 0x31 → s.uid = [] →
      step s = .next (
        match targetDecode s.cfg.uidLenOff b with
        | .ok u => { s with
            uidlen := Register.of (BitVec.ofNat 8 u.length), uid := Memory.ofBytes u
            status := ⟨false, true, .ok, .idle⟩, errinfo := 0, phase := .idle }
        | .error e => { s with status := ⟨false, true, e.code, .parse⟩, errinfo := e.info, phase := .idle }))

/-- R91 (derived): the decode of a composite is the standalone decode of the response: the same error and
`ERRINFO`, and the same result on success; only `ERRPHASE` differs. -/
def Obligations.CompositeDecodesAsStandalone : Prop :=
  ∀ (s u t t' : State) (r : Operands) (n : BitVec 9), s.host = [] → s.inProgress = none → s.phase = .parse →
    u.cfg = s.cfg → s.rxcnt = Register.of n → n.toNat = r.data.length → r.data.length ≤ 262 →
    s.rxbuf.readBytes 0 r.data.length = some r.data → step s = .next t →
    (s.req.opsel = 0x30 → exec (.decodeFw r) u = .next t' →
      t.status.errCode = t'.status.errCode ∧ t.errinfo = t'.errinfo ∧
      (t.status.errCode = .ok → t.fwinfo = t'.fwinfo) ∧
      (t.status.errCode ≠ .ok → t.status.errPhase = .parse ∧ t'.status.errPhase = .idle)) ∧
    (s.req.opsel = 0x31 → s.uid = [] → exec (.decodeTarget r) u = .next t' →
      t.status.errCode = t'.status.errCode ∧ t.errinfo = t'.errinfo ∧
      (t.status.errCode = .ok → t.uidlen = t'.uidlen ∧ t.uid = t'.uid) ∧
      (t.status.errCode ≠ .ok → t.status.errPhase = .parse ∧ t'.status.errPhase = .idle))

/-- R91 (derived): a composite runs as the EXCHANGE it expands to: from `SEND` to the ready probe of
`WAIT2`, replacing the latched composite by that EXCHANGE before a step or after it is the same; and the
response read completes the EXCHANGE with success where it takes the composite to `PARSE`. -/
def Obligations.CompositeRunsAsExchange : Prop :=
  ∀ (s : State) (n : Half), s.host = [] → s.respLen = some n.toNat → n ≠ 0 →
    (s.req.opsel = 0x30 ∨ s.req.opsel = 0x31) →
    (s.phase ≠ .respRead → s.phase ≠ .parse →
      step (s.asExchange n) = mapNext (State.asExchange n) (step s)) ∧
    (s.phase = .respRead →
      step (s.asExchange n) = mapNext (State.asExchange n)
        (andThen (step s) fun t => .next (if t.phase = .parse then succeed t else t)))

/-! ### Runs of the waits and of a whole exchange -/

/-- R132, first case, for both waits (derived): not ready to the first `j` probes and ready to the next,
with no timeout or `j ≤ ⌊T/P⌋`: exactly `j + 1` probes and `j` delays, an accumulated wait of `j · P`. -/
def Obligations.WaitSucceedsAfterPolls : Prop :=
  ∀ (s : State) (js : List Byte) (b : Byte) (rest : List ProbeAnswer), s.host = [] → s.inProgress = none →
    s.wsub = false → s.waitacc = 0 → (∀ x ∈ js, x ∉ s.cfg.readyStatuses) → b ∈ s.cfg.readyStatuses →
    s.adapter.probes = js.map .status ++ .status b :: rest →
    (s.req.timeout = 0 ∨ js.length * s.cfg.pollMs ≤ s.req.timeout.toNat) →
    (s.phase = .wait1 ∨ s.phase = .wait2 ∧ ∃ n, s.respLen = some (n + 1)) →
    core.run (2 * js.length + 1) s = .next { s with
      phase := if s.phase = .wait1 then .settle1 else .respRead
      laststat := b
      waitacc := if s.req.timeout = 0 then 0 else js.length * s.cfg.pollMs
      trace := s.trace ++ pollEvents s.cfg.pollMs js ++ [Event.probe b]
      adapter := { s.adapter with probes := rest } }

/-- R132, second case, for both waits (derived): `T > 0` and not ready at any of the first `⌊T/P⌋ + 1`
probes: the wait fails on the last of them, with no delay after it. -/
def Obligations.WaitTimesOut : Prop :=
  ∀ (s : State) (js : List Byte) (b : Byte) (rest : List ProbeAnswer), s.host = [] → s.inProgress = none → s.cfg.wf →
    s.wsub = false → s.waitacc = 0 → s.req.timeout ≠ 0 → (∀ x ∈ js ++ [b], x ∉ s.cfg.readyStatuses) →
    js.length = s.req.timeout.toNat / s.cfg.pollMs →
    s.adapter.probes = js.map .status ++ .status b :: rest → s.phase.isWait →
    core.run (2 * js.length + 1) s = .next { s with
      phase := .idle
      laststat := b
      waitacc := (js.length + 1) * s.cfg.pollMs
      status := ⟨false, true, if s.phase = .wait1 then .timeout1 else .timeout2, s.phase⟩
      errinfo := b.setWidth 16
      trace := s.trace ++ pollEvents s.cfg.pollMs js ++ [Event.probe b]
      adapter := { s.adapter with probes := rest } }

/-- R134, R226: with `TIMEOUT = 0` a wait has no bound: as long as the chip answers not ready, the block
stays in the wait, and `WAITACC` stays 0. -/
def Obligations.ZeroTimeoutWaitsForEver : Prop :=
  ∀ (s : State) (js : List Byte) (rest : List ProbeAnswer), s.host = [] → s.inProgress = none → s.phase.isWait →
    s.wsub = false → s.waitacc = 0 → s.req.timeout = 0 → (∀ x ∈ js, x ∉ s.cfg.readyStatuses) →
    s.adapter.probes = js.map .status ++ rest →
    ∃ t, core.run (2 * js.length) s = .next t ∧ t.phase = s.phase ∧ t.waitacc = 0 ∧ t.wsub = false ∧
      t.status = s.status ∧ t.trace = s.trace ++ pollEvents s.cfg.pollMs js ∧ t.adapter.probes = rest

/-- R143 (derived): the event sequence of a successful EXCHANGE, from its acceptance to its completion. -/
def Obligations.ExchangeEventSequence : Prop :=
  ∀ (s : State) (r : Operands) (js₁ js₂ ack resp : List Byte) (b₁ b₂ : Byte) (ws : List WriteAnswer)
    (rs : List ReadAnswer) (ps : List ProbeAnswer),
    s.cfg.wf → s.status.busy = false → s.host = [] → s.inProgress = none → r.data.length ≤ s.cfg.maxPayload →
    r.rlen.toNat ≤ 262 → b₁ ∈ s.cfg.readyStatuses → b₂ ∈ s.cfg.readyStatuses →
    (∀ x ∈ js₁ ++ js₂, x ∉ s.cfg.readyStatuses) →
    (r.timeout = 0 ∨ js₁.length * s.cfg.pollMs ≤ r.timeout.toNat ∧ js₂.length * s.cfg.pollMs ≤ r.timeout.toNat) →
    s.adapter.writes = .ok :: ws →
    s.adapter.probes = js₁.map .status ++ .status b₁ :: (js₂.map .status ++ .status b₂ :: ps) →
    s.adapter.reads = .ok ack :: .ok resp :: rs → ack.take 6 = [0x00, 0x00, 0xFF, 0x00, 0xFF, 0x00] →
    ∃ t₀ t k, exec (.exchange r) s = .next t₀ ∧ core.run k t₀ = .next t ∧
      t.phase = .idle ∧ t.status = ⟨false, true, .ok, .idle⟩ ∧ t.errinfo = 0 ∧
      t.ackcnt = Register.of 6 ∧ t.ackbuf = Memory.ofBytes (ack.take 6) ∧
      t.rxcnt = Register.of (BitVec.ofNat 9 (resp.take r.rlen.toNat).length) ∧
      t.rxbuf = Memory.ofBytes (resp.take r.rlen.toNat) ∧
      t.trace = s.trace ++ [.write (buildFrame r.data) true] ++
        pollEvents s.cfg.pollMs js₁ ++ [Event.probe b₁] ++
        [Event.delay s.cfg.settleMs, .read 6 (some ack), .delay s.cfg.settleMs] ++
        pollEvents s.cfg.pollMs js₂ ++ [Event.probe b₂] ++
        (if r.rlen = 0 then [] else [Event.read r.rlen.toNat (some resp)])

/-! ### Rules over all steps -/

/-- The legal states of the block: at reset. The clause on the request's bytes in `DATA` holds there because the
model resets `REQ.DLEN` to zero (entry 3), which R240 leaves unspecified, and the clause on the parameters
because they stand at R9's recommended values (entry 4): both are the model's choice. -/
def Obligations.ResetStateIsLegal : Prop := State.reset.Inv

/-- Every step of a legal state, of the host or of the block, leads to a legal state: the phase and error
codes stay legal, `BUSY` is 1 exactly outside `IDLE`, the counts stay within the capacities and name
exactly the bytes the buffers hold, `WAITACC` stays bounded (R22, R25, R29, R31, R32, R40, R210). -/
def Obligations.StepKeepsLegalStates : Prop :=
  ∀ s t : State, s.Inv → step s = .next t → t.Inv

/-- From any state whose buffers are in canonical form, so are the buffers of the next state. -/
def Obligations.StepKeepsCanonicalMemory : Prop :=
  ∀ s t : State, (∀ b, (s.buffer b).wf = true) → step s = .next t → ∀ b, (t.buffer b).wf = true

/-- R53, R59, I5, I6, I14: a step of the block from a legal state answers a next state: no fault can happen inside
the block. The block is stuck from the step on in which it waits for an answer that never comes, and in no other
way; a stuck block's state stays as it is. -/
def Obligations.BlockStepNeverFaultsInside : Prop :=
  ∀ s : State, s.Inv → s.host = [] → ∃ t, step s = .next t ∧
    (s.inProgress ≠ none → t = s) ∧
    (s.inProgress = none → (t.inProgress ≠ none ↔
      s.phase = .send ∧ s.adapter.drawWrite.1 = .never ∨
      (s.phase = .ackRead ∨ s.phase = .respRead) ∧ s.adapter.drawRead.1 = .never ∨
      s.phase.isWait ∧ s.wsub = false ∧ s.adapter.drawProbe.1 = .never))

/-- R44, R147: in a legal state that is not busy, every well-formed request of every operation answers a
next state; so does it after any completion, which leaves `PHASE = IDLE` and `BUSY = 0`. -/
def Obligations.EveryRequestRunsWhenNotBusy : Prop :=
  ∀ (s : State) (i : Instr), s.Inv → i.wellFormed →
    (s.status.busy = false → ∃ t, exec i s = .next t) ∧
    (s.status.done = true → s.phase = .idle ∧ s.status.busy = false)

/-- R44, R70: the only refusals are of a request presented while `BUSY = 1` and of a presentation whose data
bytes are not `DLEN` many (entry 8): no operation is refused. -/
def Obligations.OnlyPresentationsAreRefused : Prop :=
  ∀ (s : State) (e : Refusal), step s = .refused e →
    ∃ h data rest, s.host = .request h data :: rest ∧
      (e = .busy ∧ s.status.busy = true ∨
        e = .malformedRequest ∧ s.status.busy = false ∧ data.length ≠ (h.extractLsb' 16 16).toNat)

/-- R23: `PHASE` only moves forward, or to `IDLE`; it stays only in the waits, in `IDLE`, while an event is in
progress at the adapter (R59, I14), and while the host reads `STATUS` or `ERRINFO`. -/
def Obligations.PhaseMovesForward : Prop :=
  ∀ s t : State, s.Inv → step s = .next t →
    t.phase = .idle ∨ s.phase.code.toNat < t.phase.code.toNat ∨
    (t.phase = s.phase ∧ (s.phase.isWait ∨ t.inProgress ≠ none ∨ ∃ r rest, s.host = .read r :: rest))

/-- R136, R64: one event a step at most, appended to the trace, which nothing ever shortens. -/
def Obligations.OneEventAStep : Prop :=
  ∀ s t : State, step s = .next t → t.trace = s.trace ∨ ∃ e, t.trace = s.trace ++ [e]

/-- R243: the parameters do not change while the block runs. -/
def Obligations.ParametersNeverChange : Prop :=
  ∀ s t : State, step s = .next t → t.cfg = s.cfg

/-- R212: class (d) errors come from the step of a request only, and that step makes no event. -/
def Obligations.MisuseErrorsMakeNoEvent : Prop :=
  ∀ s t : State, s.Inv → step s = .next t → t.status.done = true →
    t.status.errCode.errClass = some .callerMisuse →
    (∃ h data rest, s.host = .request h data :: rest ∧ t.trace = s.trace) ∨
      (s.status.done = true ∧ t.status = s.status)

/-- R216: a step that takes an error sets `DONE`, clears `BUSY`, returns to `IDLE` and records the phase it
was in; every buffer but the one the failing phase fills keeps its bytes, and no result is written. -/
def Obligations.ErrorRecordsItsPhase : Prop :=
  ∀ s t : State, s.Inv → s.host = [] → s.phase ≠ .idle → step s = .next t → t.status.done = true →
    t.phase = .idle ∧ t.status.busy = false ∧
    (t.status.errCode = .ok → t.status.errPhase = .idle ∧ t.errinfo = 0) ∧
    (t.status.errCode ≠ .ok → t.status.errPhase = s.phase ∧ t.fwinfo = s.fwinfo ∧ t.uidlen = s.uidlen ∧
      (∀ a, t.frame.read a = s.frame.read a ∧ t.uid.read a = s.uid.read a ∧ t.data.read a = s.data.read a) ∧
      (s.phase ≠ .ackRead → ∀ a, t.ackbuf.read a = s.ackbuf.read a) ∧
      (s.phase ≠ .respRead → ∀ a, t.rxbuf.read a = s.rxbuf.read a))

/-- R145, R146: an operation in progress goes on or completes; only reset ends it otherwise. -/
def Obligations.OnlyResetAbortsAnOperation : Prop :=
  ∀ s t : State, s.Inv → s.status.busy = true → step s = .next t →
    (t.status.busy = true ∧ t.req = s.req) ∨ (t.status.done = true ∧ t.req = s.req) ∨
    ∃ rest, s.host = .reset :: rest

/-- The frame of the block's own steps (R22, R145, R28, R37, R24, R33, R142): in `IDLE` nothing changes, the block
waits for a request and starts no event by itself, and nothing changes while an event is in progress at the
adapter (I14); whatever its phase, a step of the block leaves the latch, `DATA`, `FRAME`, `FLEN`, `ACKOK`, `HDR`,
the host's side and, outside `PARSE`, `FWINFO`, `UIDLEN` and `UID` as they are; `ACKBUF` changes in `ACKREAD`
only and `RXBUF` in `RESPREAD` only. -/
def Obligations.BlockStepFrame : Prop :=
  ∀ s t : State, s.host = [] → step s = .next t →
    (s.phase = .idle → t = s) ∧ (s.inProgress ≠ none → t = s) ∧
    t.req = s.req ∧ t.ackok = s.ackok ∧ t.hdr = s.hdr ∧ t.flen = s.flen ∧ t.host = s.host ∧
    t.hostReads = s.hostReads ∧
    (∀ a, t.data.read a = s.data.read a ∧ t.frame.read a = s.frame.read a) ∧
    (s.phase ≠ .ackRead → t.ackcnt = s.ackcnt ∧ ∀ a, t.ackbuf.read a = s.ackbuf.read a) ∧
    (s.phase ≠ .respRead → ∀ a, t.rxbuf.read a = s.rxbuf.read a) ∧
    (s.phase ≠ .respRead → s.phase ≠ .wait2 → t.rxcnt = s.rxcnt) ∧
    (s.phase ≠ .parse → t.fwinfo = s.fwinfo ∧ t.uidlen = s.uidlen ∧ ∀ a, t.uid.read a = s.uid.read a) ∧
    (¬ s.phase.isWait → t.laststat = s.laststat)

/-- R28, R37, R148 (derived): an exchange depends on nothing earlier operations left. From any two states that
are not busy, have no event in progress and agree on the parameters and on what the adapter is going to answer,
whatever else they hold, the same EXCHANGE or composite makes the same events, fills `FRAME`, `ACKBUF`, `RXBUF`
and its results with the same values, and ends alike. Besides, no step of the block reads or writes `ACKOK` and
`HDR`. -/
def Obligations.ExchangeIgnoresEarlierResults : Prop :=
  (∀ (r : Operands) (s₁ s₂ t₁ u₁ : State) (k : Nat),
    ∀ i ∈ [Instr.exchange r, .firmwareVersion r, .listPassiveTarget r],
    r.wellFormed → s₁.cfg = s₂.cfg → s₁.adapter = s₂.adapter → s₁.host = [] → s₂.host = [] →
    s₁.inProgress = none → s₂.inProgress = none → s₂.status.busy = false →
    exec i s₁ = .next t₁ → core.run k t₁ = .next u₁ →
    ∃ t₂ u₂ events, exec i s₂ = .next t₂ ∧ core.run k t₂ = .next u₂ ∧
      u₁.trace = s₁.trace ++ events ∧ u₂.trace = s₂.trace ++ events ∧ State.sameExchange u₁ u₂ ∧
      (i = .firmwareVersion r → u₁.fwinfo.get = u₂.fwinfo.get) ∧
      (i = .listPassiveTarget r → u₁.uidlen.get = u₂.uidlen.get ∧ u₁.uid = u₂.uid)) ∧
  (∀ (s : State) (a : Register 1) (h : Register 24), s.host = [] →
    step { s with ackok := a, hdr := h } = mapNext (fun t => { t with ackok := a, hdr := h }) (step s))

/-- R20 (derived; the host's actions are entry 1): a step under a pending `pass`, or under `await` while
`BUSY = 1`, is the step the block makes when the host has nothing pending, with the host's list as it then
stands; `await` ends without a step of the block when the block is not busy. -/
def Obligations.PassAndAwaitStepTheBlock : Prop :=
  ∀ (s : State) (rest : List HostAction),
    (s.host = .pass :: rest →
      step s = mapNext (fun t => { t with host := rest }) (step { s with host := [] })) ∧
    (s.host = .await :: rest → s.status.busy = true →
      step s = mapNext (fun t => { t with host := s.host }) (step { s with host := [] })) ∧
    (s.host = .await :: rest → s.status.busy = false → step s = .next { s with host := rest })

/-- R13, R52, R54: a byte sequence written to a buffer within its capacity reads back, every byte outside
it reads as before, and the canonical form is kept; a write beyond the capacity faults. -/
def Obligations.BufferReadAfterWrite : Prop :=
  ∀ (s : State) (b : Buffer) (i : Nat) (v : List Byte),
    (i + v.length ≤ b.capacity → ∃ t, memWrite b i v s = .next t ∧
      (t.buffer b).readBytes i v.length = some v ∧
      (∀ a, a < i ∨ i + v.length ≤ a → (t.buffer b).read a = (s.buffer b).read a) ∧
      (∀ c, c ≠ b → t.buffer c = s.buffer c) ∧
      ((s.buffer b).wf = true → (t.buffer b).wf = true)) ∧
    (b.capacity < i + v.length → memWrite b i v s = .fault (.bufferWrite b))
end

