-- ==== Sys2Proof/Laws/Encoding.lean ====
section
/-! SUPPORT. The header word as a number, its fields, and the selector map in both directions. -/

namespace Sys2Proof

/-- The assembled header is its fields side by side. -/
theorem assembleHeader_eq_append (o c : Byte) (d t l : Half) :
    assembleHeader o c d t l = (l ++ t ++ d ++ c ++ o : BitVec 64) := by
  apply BitVec.eq_of_getLsbD_eq
  intro i hi
  simp only [assembleHeader, BitVec.getLsbD_or, BitVec.getLsbD_shiftLeft, BitVec.getLsbD_setWidth,
    BitVec.getLsbD_append]
  by_cases h8 : i < 8
  · simp [h8, hi, show i < 16 by omega, show i < 32 by omega, show i < 48 by omega]
  have go := BitVec.getLsbD_of_ge o i (by omega)
  by_cases h16 : i < 16
  · simp [h8, hi, h16, show i < 32 by omega, show i < 48 by omega, show i - 8 < 8 by omega,
      show i - 8 < 64 by omega, go]
  have gc := BitVec.getLsbD_of_ge c (i - 8) (by omega)
  have e8 : i - 8 - 8 = i - 16 := by omega
  by_cases h32 : i < 32
  · simp [h8, hi, h16, h32, show i < 48 by omega, show ¬ i - 8 < 8 by omega, go, gc, e8,
      show i - 16 < 64 by omega, show i - 16 < 16 by omega]
  have gd := BitVec.getLsbD_of_ge d (i - 16) (by omega)
  have e16 : i - 16 - 16 = i - 32 := by omega
  by_cases h48 : i < 48
  · simp [h8, hi, h16, h32, h48, show ¬ i - 8 < 8 by omega, go, gc, e8, show ¬ i - 16 < 16 by omega, gd,
      e16, show i - 32 < 16 by omega, show i - 32 < 64 by omega]
  · simp [h8, hi, h16, h32, h48, show ¬ i - 8 < 8 by omega, go, gc, e8, show ¬ i - 16 < 16 by omega, gd,
      e16, show ¬ i - 32 < 16 by omega, BitVec.getLsbD_of_ge t (i - 32) (by omega),
      show i - 32 - 16 = i - 48 by omega, show i - 48 < 64 by omega]

theorem toNat_assembleHeader (o c : Byte) (d t l : Half) :
    (assembleHeader o c d t l).toNat =
      o.toNat + c.toNat * 2 ^ 8 + d.toNat * 2 ^ 16 + t.toNat * 2 ^ 32 + l.toNat * 2 ^ 48 := by
  have ho := o.isLt
  have hc := c.isLt
  have hd := d.isLt
  have ht := t.isLt
  have e : ∀ a b k : Nat, b < 2 ^ k → a * 2 ^ k ||| b = a * 2 ^ k + b := fun a b k h => by
    rw [Nat.mul_comm, Nat.two_pow_add_eq_or_of_lt h]
  rw [assembleHeader_eq_append]
  simp only [BitVec.toNat_append, Nat.shiftLeft_eq]
  rw [e _ _ _ (by simpa using ho), e _ _ _ (by simpa using hc), e _ _ _ (by simpa using hd),
    e _ _ _ (by simpa using ht)]
  omega

/-- The fields of an assembled header are the ones it was assembled from (R71, R90). -/
theorem fields_assembleHeader (o c : Byte) (d t l : Half) :
    Header.opsel (assembleHeader o c d t l) = o ∧ Header.cardType (assembleHeader o c d t l) = c ∧
      Header.dlen (assembleHeader o c d t l) = d ∧ Header.timeout (assembleHeader o c d t l) = t ∧
      Header.rlen (assembleHeader o c d t l) = l := by
  have ho := o.isLt
  have hc := c.isLt
  have hd := d.isLt
  have ht := t.isLt
  have hl := l.isLt
  refine ⟨?_, ?_, ?_, ?_, ?_⟩ <;> apply BitVec.eq_of_toNat_eq <;>
    simp only [Header.opsel, Header.cardType, Header.dlen, Header.timeout, Header.rlen,
      BitVec.extractLsb'_toNat, toNat_assembleHeader, Nat.shiftRight_eq_div_pow] <;> omega

/-- A header is assembled from its fields. -/
theorem assembleHeader_fields (h : Header) :
    assembleHeader (Header.opsel h) (Header.cardType h) (Header.dlen h) (Header.timeout h)
      (Header.rlen h) = h := by
  apply BitVec.eq_of_toNat_eq
  have := h.isLt
  simp only [toNat_assembleHeader, Header.opsel, Header.cardType, Header.dlen, Header.timeout,
    Header.rlen, BitVec.extractLsb'_toNat, Nat.shiftRight_eq_div_pow]
  omega

@[simp] theorem ofSelector_selector (op : Op) : Op.ofSelector op.selector = some op := by cases op <;> rfl

theorem selector_of_ofSelector {b : Byte} {op : Op} (h : Op.ofSelector b = some op) : op.selector = b := by
  unfold Op.ofSelector at h
  repeat' split at h
  all_goals first
    | (cases h; subst b; rfl)
    | cases h

@[simp] theorem op_instr_operands (i : Instr) : i.op.instr i.operands = i := by cases i <;> rfl
@[simp] theorem instr_op (op : Op) (r : Operands) : (op.instr r).op = op := by cases op <;> rfl
@[simp] theorem instr_operands (op : Op) (r : Operands) : (op.instr r).operands = r := by cases op <;> rfl

end Sys2Proof
end

