-- ==== Sys2Proof/Laws/Memory.lean ====
section
/-! SUPPORT. The laws of buffer contents: read after write, the canonical form, and byte sequences. -/

namespace Sys2Proof.Machine

@[simp] theorem Memory.read_nil (a : Nat) : Memory.read [] a = none := rfl

theorem Memory.read_write_same (m : Memory) (a : Nat) (v : Byte) : (m.write a v).read a = some v := by
  induction m with
  | nil => simp [Memory.write, Memory.read]
  | cons c m ih =>
    obtain ⟨k, b⟩ := c
    simp only [Memory.write]
    split
    · simp [Memory.read]
    · split
      · simp [Memory.read]
      · rename_i h1 h2
        simp [Memory.read, h2, ih]

theorem Memory.read_write_other (m : Memory) {a x : Nat} (v : Byte) (h : x ≠ a) :
    (m.write a v).read x = m.read x := by
  induction m with
  | nil => simp [Memory.write, Memory.read, h, Memory.unlisted]
  | cons c m ih =>
    obtain ⟨k, b⟩ := c
    simp only [Memory.write]
    split
    · simp [Memory.read, h]
    · split
      · rename_i h1 h2
        subst h2
        simp [Memory.read, h]
      · simp only [Memory.read, ih]

theorem Memory.mem_write {m : Memory} {a : Nat} {v : Byte} {x : Host.Cell} (h : x ∈ m.write a v) :
    x = (a, v) ∨ x ∈ m := by
  induction m with
  | nil => simpa [Memory.write] using h
  | cons c m ih =>
    obtain ⟨k, b⟩ := c
    simp only [Memory.write] at h
    split at h
    · simpa using h
    · split at h
      · simp only [List.mem_cons] at h ⊢
        tauto
      · simp only [List.mem_cons] at h ⊢
        rcases h with h | h
        · exact .inr (.inl h)
        · rcases ih h with h | h
          · exact .inl h
          · exact .inr (.inr h)

theorem Memory.wf_iff (m : Memory) : m.wf = true ↔ m.Pairwise (fun x y => x.1 < y.1) := by
  simp [Memory.wf]

theorem Memory.wf_nil : Memory.wf [] = true := rfl

/-- A write keeps the canonical form. -/
theorem Memory.wf_write {m : Memory} (h : m.wf = true) (a : Nat) (v : Byte) : (m.write a v).wf = true := by
  rw [Memory.wf_iff] at h ⊢
  induction m with
  | nil => simp [Memory.write]
  | cons c m ih =>
    obtain ⟨k, b⟩ := c
    rw [List.pairwise_cons] at h
    simp only [Memory.write]
    split
    · rename_i hk
      refine List.pairwise_cons.2 ⟨fun x hx => ?_, List.pairwise_cons.2 h⟩
      rcases List.mem_cons.1 hx with rfl | hx
      · exact hk
      · exact Nat.lt_trans hk (h.1 x hx)
    · split
      · rename_i h2
        subst h2
        exact List.pairwise_cons.2 h
      · refine List.pairwise_cons.2 ⟨fun x hx => ?_, ih h.2⟩
        rcases Memory.mem_write hx with rfl | hx
        · simp only
          omega
        · exact h.1 x hx

/-- Writing a byte sequence keeps the canonical form. -/
theorem Memory.wf_writeBytes {m : Memory} (h : m.wf = true) (a : Nat) (bs : List Byte) :
    (m.writeBytes a bs).wf = true := by
  induction bs generalizing m a with
  | nil => exact h
  | cons b bs ih => exact ih (Memory.wf_write h a b) (a + 1)

/-- The bytes outside a written range read as before. -/
theorem Memory.read_writeBytes_other (m : Memory) {a x : Nat} (bs : List Byte)
    (h : x < a ∨ a + bs.length ≤ x) : (m.writeBytes a bs).read x = m.read x := by
  induction bs generalizing m a with
  | nil => rfl
  | cons b bs ih =>
    simp only [List.length_cons] at h
    rw [Memory.writeBytes, ih _ (by omega), Memory.read_write_other _ _ (by omega)]

/-- A byte of a written range reads as written. -/
theorem Memory.read_writeBytes_same (m : Memory) (a : Nat) (bs : List Byte) {i : Nat} (h : i < bs.length) :
    (m.writeBytes a bs).read (a + i) = some bs[i] := by
  induction bs generalizing m a i with
  | nil => simp at h
  | cons b bs ih =>
    cases i with
    | zero =>
      rw [Memory.writeBytes, Memory.read_writeBytes_other _ _ (by omega)]
      exact Memory.read_write_same m a b
    | succ i =>
      have := ih (Memory.write m a b) (a + 1) (i := i) (by simpa using h)
      rw [Memory.writeBytes, show a + (i + 1) = a + 1 + i by omega, this]
      rfl

/-- Reading bytes one by one: the sequence read is the list of the bytes at those indices. -/
theorem Memory.readBytes_eq {m : Memory} {a : Nat} {bs : List Byte}
    (h : ∀ i, (hi : i < bs.length) → m.read (a + i) = some bs[i]) :
    m.readBytes a bs.length = some bs := by
  induction bs generalizing a with
  | nil => rfl
  | cons b bs ih =>
    have h0 := h 0 (by simp)
    have ht : m.readBytes (a + 1) bs.length = some bs :=
      ih fun i hi => by
        have := h (i + 1) (by simpa using hi)
        rw [show a + 1 + i = a + (i + 1) by omega, this]
        rfl
    simp only [Nat.add_zero] at h0
    simp [Memory.readBytes, h0, ht]

/-- A written byte sequence reads back. -/
theorem Memory.readBytes_writeBytes (m : Memory) (a : Nat) (bs : List Byte) :
    (m.writeBytes a bs).readBytes a bs.length = some bs :=
  Memory.readBytes_eq fun _ hi => Memory.read_writeBytes_same m a bs hi

theorem Memory.readBytes_ofBytes (bs : List Byte) : (Memory.ofBytes bs).readBytes 0 bs.length = some bs :=
  Memory.readBytes_writeBytes [] 0 bs

/-- The bytes of a sequence stand at its indices, and nothing else does. -/
theorem Memory.read_ofBytes (bs : List Byte) (a : Nat) : (Memory.ofBytes bs).read a = bs[a]? := by
  by_cases h : a < bs.length
  · have := Memory.read_writeBytes_same [] 0 bs h
    simpa [Memory.ofBytes, h] using this
  · rw [List.getElem?_eq_none (by omega)]
    exact Memory.read_writeBytes_other [] bs (.inr (by omega))

/-- The sequence read has the length asked for. -/
theorem Memory.length_of_readBytes {m : Memory} {a n : Nat} {bs : List Byte}
    (h : m.readBytes a n = some bs) : bs.length = n := by
  induction n generalizing a bs with
  | zero => simp only [Memory.readBytes, Option.some.injEq] at h; simp [← h]
  | succ n ih =>
    simp only [Memory.readBytes] at h
    split at h
    · rename_i b bs' h1 h2
      simp only [Option.some.injEq] at h
      rw [← h, List.length_cons, ih h2]
    · cases h

theorem Memory.fst_write_append {m : Memory} {n : Nat} (h : ∀ x ∈ m, x.1 < n) (v : Byte) :
    m.write n v = m ++ [(n, v)] := by
  induction m with
  | nil => rfl
  | cons c m ih =>
    obtain ⟨k, b⟩ := c
    have hk : k < n := h (k, b) (by simp)
    simp only [Memory.write]
    rw [if_neg (by omega), if_neg (by omega), ih fun x hx => h x (by simp [hx])]
    rfl

/-- Contents with the indices below `n` extended by the bytes from `n` on. -/
theorem Memory.filled_writeBytes {m : Memory} {n : Nat} (h : m.filled (some n)) (bs : List Byte) :
    (m.writeBytes n bs).filled (some (n + bs.length)) := by
  induction bs generalizing m n with
  | nil => exact h
  | cons b bs ih =>
    have hlt : ∀ x ∈ m, x.1 < n := fun x hx => by
      have : x.1 ∈ m.map Prod.fst := List.mem_map_of_mem hx
      rw [h] at this
      simpa using this
    have h1 : (m.write n b).filled (some (n + 1)) := by
      rw [Memory.fst_write_append hlt]
      simp only [Memory.filled, Option.getD_some, List.map_append, List.map_cons, List.map_nil] at h ⊢
      rw [h, List.range_succ]
    have := ih h1
    rw [List.length_cons, show n + (bs.length + 1) = n + 1 + bs.length by omega]
    exact this

theorem Memory.filled_nil : Memory.filled [] none := rfl

theorem Memory.filled_ofBytes (bs : List Byte) : (Memory.ofBytes bs).filled (some bs.length) := by
  have h : Memory.filled [] (some 0) := rfl
  simpa [Memory.ofBytes] using Memory.filled_writeBytes h bs

theorem Memory.wf_of_filled {m : Memory} {c : Option Nat} (h : m.filled c) : m.wf = true := by
  rw [Memory.wf_iff]
  have : (m.map Prod.fst).Pairwise (· < ·) := by
    rw [h]
    exact List.pairwise_lt_range
  exact List.pairwise_map.1 this

theorem Memory.read_isSome_of_mem {m : Memory} {a : Nat} (h : a ∈ m.map Prod.fst) : ∃ b, m.read a = some b := by
  induction m with
  | nil => simp at h
  | cons c m ih =>
    obtain ⟨k, b⟩ := c
    simp only [Memory.read]
    split
    · exact ⟨b, rfl⟩
    · rename_i hk
      refine ih ?_
      simpa [hk] using h

/-- Every index below the count of a filled buffer reads a byte. -/
theorem Memory.read_of_filled {m : Memory} {n i : Nat} (h : m.filled (some n)) (hi : i < n) :
    ∃ b, m.read i = some b :=
  Memory.read_isSome_of_mem (by rw [h]; simpa using hi)

/-- All the valid bytes of a filled buffer can be read. -/
theorem Memory.readBytes_of_filled {m : Memory} {n : Nat} (h : m.filled (some n)) :
    ∃ bs, m.readBytes 0 n = some bs ∧ bs.length = n := by
  have key : ∀ k a, a + k = n → ∃ bs, m.readBytes a k = some bs := by
    intro k
    induction k with
    | zero => exact fun a _ => ⟨[], rfl⟩
    | succ k ih =>
      intro a ha
      obtain ⟨b, hb⟩ := Memory.read_of_filled (i := a) h (by omega)
      obtain ⟨bs, hbs⟩ := ih (a + 1) (by omega)
      exact ⟨b :: bs, by simp [Memory.readBytes, hb, hbs]⟩
  obtain ⟨bs, hbs⟩ := key n 0 (by omega)
  exact ⟨bs, hbs, Memory.length_of_readBytes hbs⟩

end Sys2Proof.Machine
end

