-- ==== Sys2Proof/Laws/State.lean ====
section
/-! SUPPORT. One lemma per field and per named update of State, true by the update's definition. -/

namespace Sys2Proof.Machine

/-! ### A register -/

@[simp] theorem get_of {w : Nat} (v : BitVec w) : (Register.of v).get = some v := rfl
@[simp] theorem written_of {w : Nat} (v : BitVec w) : (Register.of v).written = true := rfl
@[simp] theorem value_of {w : Nat} (v : BitVec w) : (Register.of v).value = v := rfl
@[simp] theorem get_unwritten {w : Nat} (c : Register w) : c.unwritten.get = none := rfl
@[simp] theorem written_unwritten {w : Nat} (c : Register w) : c.unwritten.written = false := rfl
@[simp] theorem value_unwritten {w : Nat} (c : Register w) : c.unwritten.value = c.value := rfl

@[simp] theorem get_mk_false {w : Nat} (v : BitVec w) : (Register.mk v false).get = none := rfl
@[simp] theorem get_mk_true {w : Nat} (v : BitVec w) : (Register.mk v true).get = some v := rfl

/-- A register reads as nothing exactly while it is unwritten. -/
theorem get_eq_none {w : Nat} {c : Register w} : c.get = none ↔ c.written = false := by
  cases h : c.written <;> simp [Register.get, h]

/-- A register that reads as `v` holds it, written. -/
theorem get_eq_some {w : Nat} {c : Register w} {v : BitVec w} : c.get = some v ↔ c = Register.of v := by
  cases c with
  | mk x m => cases m <;> simp [Register.get, Register.of]

/-- A register that is written reads as something. -/
theorem get_of_written {w : Nat} {c : Register w} (h : c.written = true) : ∃ v, c.get = some v :=
  ⟨c.value, by simp [Register.get, h]⟩

/-! ### An event appended to the trace -/

@[simp] theorem emit_trace (s : State) (e : Event) : (s.emit e).trace = s.trace ++ [e] := rfl
@[simp] theorem emit_cfg (s : State) (e : Event) : (s.emit e).cfg = s.cfg := rfl
@[simp] theorem emit_phase (s : State) (e : Event) : (s.emit e).phase = s.phase := rfl
@[simp] theorem emit_wsub (s : State) (e : Event) : (s.emit e).wsub = s.wsub := rfl
@[simp] theorem emit_waitacc (s : State) (e : Event) : (s.emit e).waitacc = s.waitacc := rfl
@[simp] theorem emit_laststat (s : State) (e : Event) : (s.emit e).laststat = s.laststat := rfl
@[simp] theorem emit_req (s : State) (e : Event) : (s.emit e).req = s.req := rfl
@[simp] theorem emit_status (s : State) (e : Event) : (s.emit e).status = s.status := rfl
@[simp] theorem emit_errinfo (s : State) (e : Event) : (s.emit e).errinfo = s.errinfo := rfl
@[simp] theorem emit_ackok (s : State) (e : Event) : (s.emit e).ackok = s.ackok := rfl
@[simp] theorem emit_hdr (s : State) (e : Event) : (s.emit e).hdr = s.hdr := rfl
@[simp] theorem emit_fwinfo (s : State) (e : Event) : (s.emit e).fwinfo = s.fwinfo := rfl
@[simp] theorem emit_uidlen (s : State) (e : Event) : (s.emit e).uidlen = s.uidlen := rfl
@[simp] theorem emit_flen (s : State) (e : Event) : (s.emit e).flen = s.flen := rfl
@[simp] theorem emit_ackcnt (s : State) (e : Event) : (s.emit e).ackcnt = s.ackcnt := rfl
@[simp] theorem emit_rxcnt (s : State) (e : Event) : (s.emit e).rxcnt = s.rxcnt := rfl
@[simp] theorem emit_data (s : State) (e : Event) : (s.emit e).data = s.data := rfl
@[simp] theorem emit_frame (s : State) (e : Event) : (s.emit e).frame = s.frame := rfl
@[simp] theorem emit_ackbuf (s : State) (e : Event) : (s.emit e).ackbuf = s.ackbuf := rfl
@[simp] theorem emit_rxbuf (s : State) (e : Event) : (s.emit e).rxbuf = s.rxbuf := rfl
@[simp] theorem emit_uid (s : State) (e : Event) : (s.emit e).uid = s.uid := rfl
@[simp] theorem emit_host (s : State) (e : Event) : (s.emit e).host = s.host := rfl
@[simp] theorem emit_hostReads (s : State) (e : Event) : (s.emit e).hostReads = s.hostReads := rfl
@[simp] theorem emit_adapter (s : State) (e : Event) : (s.emit e).adapter = s.adapter := rfl
@[simp] theorem emit_inProgress (s : State) (e : Event) : (s.emit e).inProgress = s.inProgress := rfl

/-! ### An event that is never answered -/

@[simp] theorem hang_trace (c : Call) (s : State) : (s.hang c).trace = s.trace ++ [.unanswered c] := rfl
@[simp] theorem hang_inProgress (c : Call) (s : State) : (s.hang c).inProgress = some c := rfl
@[simp] theorem hang_cfg (c : Call) (s : State) : (s.hang c).cfg = s.cfg := rfl
@[simp] theorem hang_phase (c : Call) (s : State) : (s.hang c).phase = s.phase := rfl
@[simp] theorem hang_wsub (c : Call) (s : State) : (s.hang c).wsub = s.wsub := rfl
@[simp] theorem hang_waitacc (c : Call) (s : State) : (s.hang c).waitacc = s.waitacc := rfl
@[simp] theorem hang_laststat (c : Call) (s : State) : (s.hang c).laststat = s.laststat := rfl
@[simp] theorem hang_req (c : Call) (s : State) : (s.hang c).req = s.req := rfl
@[simp] theorem hang_status (c : Call) (s : State) : (s.hang c).status = s.status := rfl
@[simp] theorem hang_errinfo (c : Call) (s : State) : (s.hang c).errinfo = s.errinfo := rfl
@[simp] theorem hang_ackok (c : Call) (s : State) : (s.hang c).ackok = s.ackok := rfl
@[simp] theorem hang_hdr (c : Call) (s : State) : (s.hang c).hdr = s.hdr := rfl
@[simp] theorem hang_fwinfo (c : Call) (s : State) : (s.hang c).fwinfo = s.fwinfo := rfl
@[simp] theorem hang_uidlen (c : Call) (s : State) : (s.hang c).uidlen = s.uidlen := rfl
@[simp] theorem hang_flen (c : Call) (s : State) : (s.hang c).flen = s.flen := rfl
@[simp] theorem hang_ackcnt (c : Call) (s : State) : (s.hang c).ackcnt = s.ackcnt := rfl
@[simp] theorem hang_rxcnt (c : Call) (s : State) : (s.hang c).rxcnt = s.rxcnt := rfl
@[simp] theorem hang_data (c : Call) (s : State) : (s.hang c).data = s.data := rfl
@[simp] theorem hang_frame (c : Call) (s : State) : (s.hang c).frame = s.frame := rfl
@[simp] theorem hang_ackbuf (c : Call) (s : State) : (s.hang c).ackbuf = s.ackbuf := rfl
@[simp] theorem hang_rxbuf (c : Call) (s : State) : (s.hang c).rxbuf = s.rxbuf := rfl
@[simp] theorem hang_uid (c : Call) (s : State) : (s.hang c).uid = s.uid := rfl
@[simp] theorem hang_host (c : Call) (s : State) : (s.hang c).host = s.host := rfl
@[simp] theorem hang_hostReads (c : Call) (s : State) : (s.hang c).hostReads = s.hostReads := rfl
@[simp] theorem hang_adapter (c : Call) (s : State) : (s.hang c).adapter = s.adapter := rfl

/-! ### A delay -/

@[simp] theorem portDelay_trace (n : Nat) (s : State) : (portDelay n s).trace = s.trace ++ [.delay n] := rfl
@[simp] theorem portDelay_cfg (n : Nat) (s : State) : (portDelay n s).cfg = s.cfg := rfl
@[simp] theorem portDelay_phase (n : Nat) (s : State) : (portDelay n s).phase = s.phase := rfl
@[simp] theorem portDelay_wsub (n : Nat) (s : State) : (portDelay n s).wsub = s.wsub := rfl
@[simp] theorem portDelay_waitacc (n : Nat) (s : State) : (portDelay n s).waitacc = s.waitacc := rfl
@[simp] theorem portDelay_laststat (n : Nat) (s : State) : (portDelay n s).laststat = s.laststat := rfl
@[simp] theorem portDelay_req (n : Nat) (s : State) : (portDelay n s).req = s.req := rfl
@[simp] theorem portDelay_status (n : Nat) (s : State) : (portDelay n s).status = s.status := rfl
@[simp] theorem portDelay_errinfo (n : Nat) (s : State) : (portDelay n s).errinfo = s.errinfo := rfl
@[simp] theorem portDelay_ackok (n : Nat) (s : State) : (portDelay n s).ackok = s.ackok := rfl
@[simp] theorem portDelay_hdr (n : Nat) (s : State) : (portDelay n s).hdr = s.hdr := rfl
@[simp] theorem portDelay_fwinfo (n : Nat) (s : State) : (portDelay n s).fwinfo = s.fwinfo := rfl
@[simp] theorem portDelay_uidlen (n : Nat) (s : State) : (portDelay n s).uidlen = s.uidlen := rfl
@[simp] theorem portDelay_flen (n : Nat) (s : State) : (portDelay n s).flen = s.flen := rfl
@[simp] theorem portDelay_ackcnt (n : Nat) (s : State) : (portDelay n s).ackcnt = s.ackcnt := rfl
@[simp] theorem portDelay_rxcnt (n : Nat) (s : State) : (portDelay n s).rxcnt = s.rxcnt := rfl
@[simp] theorem portDelay_data (n : Nat) (s : State) : (portDelay n s).data = s.data := rfl
@[simp] theorem portDelay_frame (n : Nat) (s : State) : (portDelay n s).frame = s.frame := rfl
@[simp] theorem portDelay_ackbuf (n : Nat) (s : State) : (portDelay n s).ackbuf = s.ackbuf := rfl
@[simp] theorem portDelay_rxbuf (n : Nat) (s : State) : (portDelay n s).rxbuf = s.rxbuf := rfl
@[simp] theorem portDelay_uid (n : Nat) (s : State) : (portDelay n s).uid = s.uid := rfl
@[simp] theorem portDelay_host (n : Nat) (s : State) : (portDelay n s).host = s.host := rfl
@[simp] theorem portDelay_hostReads (n : Nat) (s : State) : (portDelay n s).hostReads = s.hostReads := rfl
@[simp] theorem portDelay_adapter (n : Nat) (s : State) : (portDelay n s).adapter = s.adapter := rfl
@[simp] theorem portDelay_inProgress (n : Nat) (s : State) : (portDelay n s).inProgress = s.inProgress := rfl

/-! ### Entry to a ready-wait -/

@[simp] theorem enterWait_cfg (p : Phase) (s : State) : (enterWait p s).cfg = s.cfg := rfl
@[simp] theorem enterWait_phase (p : Phase) (s : State) : (enterWait p s).phase = p := rfl
@[simp] theorem enterWait_wsub (p : Phase) (s : State) : (enterWait p s).wsub = false := rfl
@[simp] theorem enterWait_waitacc (p : Phase) (s : State) : (enterWait p s).waitacc = 0 := rfl
@[simp] theorem enterWait_laststat (p : Phase) (s : State) : (enterWait p s).laststat = s.laststat := rfl
@[simp] theorem enterWait_req (p : Phase) (s : State) : (enterWait p s).req = s.req := rfl
@[simp] theorem enterWait_status (p : Phase) (s : State) : (enterWait p s).status = s.status := rfl
@[simp] theorem enterWait_errinfo (p : Phase) (s : State) : (enterWait p s).errinfo = s.errinfo := rfl
@[simp] theorem enterWait_ackok (p : Phase) (s : State) : (enterWait p s).ackok = s.ackok := rfl
@[simp] theorem enterWait_hdr (p : Phase) (s : State) : (enterWait p s).hdr = s.hdr := rfl
@[simp] theorem enterWait_fwinfo (p : Phase) (s : State) : (enterWait p s).fwinfo = s.fwinfo := rfl
@[simp] theorem enterWait_uidlen (p : Phase) (s : State) : (enterWait p s).uidlen = s.uidlen := rfl
@[simp] theorem enterWait_flen (p : Phase) (s : State) : (enterWait p s).flen = s.flen := rfl
@[simp] theorem enterWait_ackcnt (p : Phase) (s : State) : (enterWait p s).ackcnt = s.ackcnt := rfl
@[simp] theorem enterWait_rxcnt (p : Phase) (s : State) : (enterWait p s).rxcnt = s.rxcnt := rfl
@[simp] theorem enterWait_data (p : Phase) (s : State) : (enterWait p s).data = s.data := rfl
@[simp] theorem enterWait_frame (p : Phase) (s : State) : (enterWait p s).frame = s.frame := rfl
@[simp] theorem enterWait_ackbuf (p : Phase) (s : State) : (enterWait p s).ackbuf = s.ackbuf := rfl
@[simp] theorem enterWait_rxbuf (p : Phase) (s : State) : (enterWait p s).rxbuf = s.rxbuf := rfl
@[simp] theorem enterWait_uid (p : Phase) (s : State) : (enterWait p s).uid = s.uid := rfl
@[simp] theorem enterWait_trace (p : Phase) (s : State) : (enterWait p s).trace = s.trace := rfl
@[simp] theorem enterWait_host (p : Phase) (s : State) : (enterWait p s).host = s.host := rfl
@[simp] theorem enterWait_hostReads (p : Phase) (s : State) : (enterWait p s).hostReads = s.hostReads := rfl
@[simp] theorem enterWait_adapter (p : Phase) (s : State) : (enterWait p s).adapter = s.adapter := rfl
@[simp] theorem enterWait_inProgress (p : Phase) (s : State) : (enterWait p s).inProgress = s.inProgress := rfl

/-! ### Completion -/

@[simp] theorem complete_cfg (c : ErrCode) (i : Half) (s : State) : (complete c i s).cfg = s.cfg := rfl
@[simp] theorem complete_phase (c : ErrCode) (i : Half) (s : State) : (complete c i s).phase = .idle := rfl
@[simp] theorem complete_wsub (c : ErrCode) (i : Half) (s : State) : (complete c i s).wsub = s.wsub := rfl
@[simp] theorem complete_waitacc (c : ErrCode) (i : Half) (s : State) : (complete c i s).waitacc = s.waitacc := rfl
@[simp] theorem complete_laststat (c : ErrCode) (i : Half) (s : State) : (complete c i s).laststat = s.laststat := rfl
@[simp] theorem complete_req (c : ErrCode) (i : Half) (s : State) : (complete c i s).req = s.req := rfl
@[simp] theorem complete_errinfo (c : ErrCode) (i : Half) (s : State) : (complete c i s).errinfo = i := rfl
@[simp] theorem complete_ackok (c : ErrCode) (i : Half) (s : State) : (complete c i s).ackok = s.ackok := rfl
@[simp] theorem complete_hdr (c : ErrCode) (i : Half) (s : State) : (complete c i s).hdr = s.hdr := rfl
@[simp] theorem complete_fwinfo (c : ErrCode) (i : Half) (s : State) : (complete c i s).fwinfo = s.fwinfo := rfl
@[simp] theorem complete_uidlen (c : ErrCode) (i : Half) (s : State) : (complete c i s).uidlen = s.uidlen := rfl
@[simp] theorem complete_flen (c : ErrCode) (i : Half) (s : State) : (complete c i s).flen = s.flen := rfl
@[simp] theorem complete_ackcnt (c : ErrCode) (i : Half) (s : State) : (complete c i s).ackcnt = s.ackcnt := rfl
@[simp] theorem complete_rxcnt (c : ErrCode) (i : Half) (s : State) : (complete c i s).rxcnt = s.rxcnt := rfl
@[simp] theorem complete_data (c : ErrCode) (i : Half) (s : State) : (complete c i s).data = s.data := rfl
@[simp] theorem complete_frame (c : ErrCode) (i : Half) (s : State) : (complete c i s).frame = s.frame := rfl
@[simp] theorem complete_ackbuf (c : ErrCode) (i : Half) (s : State) : (complete c i s).ackbuf = s.ackbuf := rfl
@[simp] theorem complete_rxbuf (c : ErrCode) (i : Half) (s : State) : (complete c i s).rxbuf = s.rxbuf := rfl
@[simp] theorem complete_uid (c : ErrCode) (i : Half) (s : State) : (complete c i s).uid = s.uid := rfl
@[simp] theorem complete_trace (c : ErrCode) (i : Half) (s : State) : (complete c i s).trace = s.trace := rfl
@[simp] theorem complete_host (c : ErrCode) (i : Half) (s : State) : (complete c i s).host = s.host := rfl
@[simp] theorem complete_hostReads (c : ErrCode) (i : Half) (s : State) : (complete c i s).hostReads = s.hostReads := rfl
@[simp] theorem complete_adapter (c : ErrCode) (i : Half) (s : State) : (complete c i s).adapter = s.adapter := rfl
@[simp] theorem complete_inProgress (c : ErrCode) (i : Half) (s : State) : (complete c i s).inProgress = s.inProgress := rfl
@[simp] theorem complete_busy (c : ErrCode) (i : Half) (s : State) :
    (complete c i s).status.busy = false := rfl
@[simp] theorem complete_done (c : ErrCode) (i : Half) (s : State) :
    (complete c i s).status.done = true := rfl
@[simp] theorem complete_errCode (c : ErrCode) (i : Half) (s : State) :
    (complete c i s).status.errCode = c := rfl
@[simp] theorem complete_errPhase (c : ErrCode) (i : Half) (s : State) :
    (complete c i s).status.errPhase = if c = .ok then .idle else s.phase := rfl

@[simp] theorem succeed_eq (s : State) : succeed s = complete .ok 0 s := rfl
@[simp] theorem raise_eq (e : OpError) (s : State) : raise e s = complete e.code e.info s := rfl

/-! ### Reset -/

@[simp] theorem applyReset_cfg (s : State) : (applyReset s).cfg = s.cfg := rfl
@[simp] theorem applyReset_phase (s : State) : (applyReset s).phase = State.reset.phase := rfl
@[simp] theorem applyReset_wsub (s : State) : (applyReset s).wsub = State.reset.wsub := rfl
@[simp] theorem applyReset_waitacc (s : State) : (applyReset s).waitacc = State.reset.waitacc := rfl
@[simp] theorem applyReset_laststat (s : State) : (applyReset s).laststat = State.reset.laststat := rfl
@[simp] theorem applyReset_req (s : State) : (applyReset s).req = State.reset.req := rfl
@[simp] theorem applyReset_status (s : State) : (applyReset s).status = State.reset.status := rfl
@[simp] theorem applyReset_errinfo (s : State) : (applyReset s).errinfo = State.reset.errinfo := rfl
@[simp] theorem applyReset_ackok (s : State) : (applyReset s).ackok = State.reset.ackok := rfl
@[simp] theorem applyReset_hdr (s : State) : (applyReset s).hdr = State.reset.hdr := rfl
@[simp] theorem applyReset_fwinfo (s : State) : (applyReset s).fwinfo = State.reset.fwinfo := rfl
@[simp] theorem applyReset_uidlen (s : State) : (applyReset s).uidlen = State.reset.uidlen := rfl
@[simp] theorem applyReset_flen (s : State) : (applyReset s).flen = State.reset.flen := rfl
@[simp] theorem applyReset_ackcnt (s : State) : (applyReset s).ackcnt = State.reset.ackcnt := rfl
@[simp] theorem applyReset_rxcnt (s : State) : (applyReset s).rxcnt = State.reset.rxcnt := rfl
@[simp] theorem applyReset_data (s : State) : (applyReset s).data = State.reset.data := rfl
@[simp] theorem applyReset_frame (s : State) : (applyReset s).frame = State.reset.frame := rfl
@[simp] theorem applyReset_ackbuf (s : State) : (applyReset s).ackbuf = State.reset.ackbuf := rfl
@[simp] theorem applyReset_rxbuf (s : State) : (applyReset s).rxbuf = State.reset.rxbuf := rfl
@[simp] theorem applyReset_uid (s : State) : (applyReset s).uid = State.reset.uid := rfl
@[simp] theorem applyReset_trace (s : State) : (applyReset s).trace = s.trace := rfl
@[simp] theorem applyReset_host (s : State) : (applyReset s).host = s.host := rfl
@[simp] theorem applyReset_hostReads (s : State) : (applyReset s).hostReads = s.hostReads := rfl
@[simp] theorem applyReset_adapter (s : State) : (applyReset s).adapter = s.adapter := rfl
@[simp] theorem applyReset_inProgress (s : State) : (applyReset s).inProgress = State.reset.inProgress := rfl

/-! ### Invalidated outputs: the fields no operation's outputs are among -/

@[simp] theorem invalidate_cfg (op : Option Op) (s : State) : (invalidate op s).cfg = s.cfg := by
  rcases op with _ | op
  · rfl
  · cases op <;> rfl
@[simp] theorem invalidate_phase (op : Option Op) (s : State) : (invalidate op s).phase = s.phase := by
  rcases op with _ | op
  · rfl
  · cases op <;> rfl
@[simp] theorem invalidate_wsub (op : Option Op) (s : State) : (invalidate op s).wsub = s.wsub := by
  rcases op with _ | op
  · rfl
  · cases op <;> rfl
@[simp] theorem invalidate_waitacc (op : Option Op) (s : State) : (invalidate op s).waitacc = s.waitacc := by
  rcases op with _ | op
  · rfl
  · cases op <;> rfl
@[simp] theorem invalidate_laststat (op : Option Op) (s : State) : (invalidate op s).laststat = s.laststat := by
  rcases op with _ | op
  · rfl
  · cases op <;> rfl
@[simp] theorem invalidate_req (op : Option Op) (s : State) : (invalidate op s).req = s.req := by
  rcases op with _ | op
  · rfl
  · cases op <;> rfl
@[simp] theorem invalidate_status (op : Option Op) (s : State) : (invalidate op s).status = s.status := by
  rcases op with _ | op
  · rfl
  · cases op <;> rfl
@[simp] theorem invalidate_errinfo (op : Option Op) (s : State) : (invalidate op s).errinfo = s.errinfo := by
  rcases op with _ | op
  · rfl
  · cases op <;> rfl
@[simp] theorem invalidate_data (op : Option Op) (s : State) : (invalidate op s).data = s.data := by
  rcases op with _ | op
  · rfl
  · cases op <;> rfl
@[simp] theorem invalidate_trace (op : Option Op) (s : State) : (invalidate op s).trace = s.trace := by
  rcases op with _ | op
  · rfl
  · cases op <;> rfl
@[simp] theorem invalidate_host (op : Option Op) (s : State) : (invalidate op s).host = s.host := by
  rcases op with _ | op
  · rfl
  · cases op <;> rfl
@[simp] theorem invalidate_hostReads (op : Option Op) (s : State) : (invalidate op s).hostReads = s.hostReads := by
  rcases op with _ | op
  · rfl
  · cases op <;> rfl
@[simp] theorem invalidate_adapter (op : Option Op) (s : State) : (invalidate op s).adapter = s.adapter := by
  rcases op with _ | op
  · rfl
  · cases op <;> rfl
@[simp] theorem invalidate_inProgress (op : Option Op) (s : State) : (invalidate op s).inProgress = s.inProgress := by
  rcases op with _ | op
  · rfl
  · cases op <;> rfl

/-! ### Acceptance -/

@[simp] theorem accepted_cfg (o : Byte) (r : Operands) (s : State) :
    (accepted o r s).cfg = s.cfg := by
  simp [accepted]
@[simp] theorem accepted_phase (o : Byte) (r : Operands) (s : State) :
    (accepted o r s).phase = .idle := by
  simp [accepted]
@[simp] theorem accepted_wsub (o : Byte) (r : Operands) (s : State) :
    (accepted o r s).wsub = false := by
  simp [accepted]
@[simp] theorem accepted_waitacc (o : Byte) (r : Operands) (s : State) :
    (accepted o r s).waitacc = 0 := by
  simp [accepted]
@[simp] theorem accepted_laststat (o : Byte) (r : Operands) (s : State) :
    (accepted o r s).laststat = s.laststat := by
  simp [accepted]
@[simp] theorem accepted_req (o : Byte) (r : Operands) (s : State) :
    (accepted o r s).req = latch o r := by
  simp [accepted]
@[simp] theorem accepted_status (o : Byte) (r : Operands) (s : State) :
    (accepted o r s).status = { s.status with busy := true, done := false } := by
  simp [accepted]
@[simp] theorem accepted_errinfo (o : Byte) (r : Operands) (s : State) :
    (accepted o r s).errinfo = s.errinfo := by
  simp [accepted]
@[simp] theorem accepted_data (o : Byte) (r : Operands) (s : State) :
    (accepted o r s).data = if r.data.length ≤ dataMax then Memory.ofBytes r.data else s.data := by
  simp [accepted]
@[simp] theorem accepted_trace (o : Byte) (r : Operands) (s : State) :
    (accepted o r s).trace = s.trace := by
  simp [accepted]
@[simp] theorem accepted_host (o : Byte) (r : Operands) (s : State) :
    (accepted o r s).host = s.host := by
  simp [accepted]
@[simp] theorem accepted_hostReads (o : Byte) (r : Operands) (s : State) :
    (accepted o r s).hostReads = s.hostReads := by
  simp [accepted]
@[simp] theorem accepted_adapter (o : Byte) (r : Operands) (s : State) :
    (accepted o r s).adapter = s.adapter := by
  simp [accepted]
@[simp] theorem accepted_inProgress (o : Byte) (r : Operands) (s : State) :
    (accepted o r s).inProgress = s.inProgress := by
  simp [accepted]

/-! ### One buffer replaced -/

@[simp] theorem setBuffer_cfg (s : State) (b : Buffer) (m : Memory) : (s.setBuffer b m).cfg = s.cfg := by
  cases b <;> rfl
@[simp] theorem setBuffer_phase (s : State) (b : Buffer) (m : Memory) : (s.setBuffer b m).phase = s.phase := by
  cases b <;> rfl
@[simp] theorem setBuffer_wsub (s : State) (b : Buffer) (m : Memory) : (s.setBuffer b m).wsub = s.wsub := by
  cases b <;> rfl
@[simp] theorem setBuffer_waitacc (s : State) (b : Buffer) (m : Memory) : (s.setBuffer b m).waitacc = s.waitacc := by
  cases b <;> rfl
@[simp] theorem setBuffer_laststat (s : State) (b : Buffer) (m : Memory) : (s.setBuffer b m).laststat = s.laststat := by
  cases b <;> rfl
@[simp] theorem setBuffer_req (s : State) (b : Buffer) (m : Memory) : (s.setBuffer b m).req = s.req := by
  cases b <;> rfl
@[simp] theorem setBuffer_status (s : State) (b : Buffer) (m : Memory) : (s.setBuffer b m).status = s.status := by
  cases b <;> rfl
@[simp] theorem setBuffer_errinfo (s : State) (b : Buffer) (m : Memory) : (s.setBuffer b m).errinfo = s.errinfo := by
  cases b <;> rfl
@[simp] theorem setBuffer_ackok (s : State) (b : Buffer) (m : Memory) : (s.setBuffer b m).ackok = s.ackok := by
  cases b <;> rfl
@[simp] theorem setBuffer_hdr (s : State) (b : Buffer) (m : Memory) : (s.setBuffer b m).hdr = s.hdr := by
  cases b <;> rfl
@[simp] theorem setBuffer_fwinfo (s : State) (b : Buffer) (m : Memory) : (s.setBuffer b m).fwinfo = s.fwinfo := by
  cases b <;> rfl
@[simp] theorem setBuffer_uidlen (s : State) (b : Buffer) (m : Memory) : (s.setBuffer b m).uidlen = s.uidlen := by
  cases b <;> rfl
@[simp] theorem setBuffer_flen (s : State) (b : Buffer) (m : Memory) : (s.setBuffer b m).flen = s.flen := by
  cases b <;> rfl
@[simp] theorem setBuffer_ackcnt (s : State) (b : Buffer) (m : Memory) : (s.setBuffer b m).ackcnt = s.ackcnt := by
  cases b <;> rfl
@[simp] theorem setBuffer_rxcnt (s : State) (b : Buffer) (m : Memory) : (s.setBuffer b m).rxcnt = s.rxcnt := by
  cases b <;> rfl
@[simp] theorem setBuffer_trace (s : State) (b : Buffer) (m : Memory) : (s.setBuffer b m).trace = s.trace := by
  cases b <;> rfl
@[simp] theorem setBuffer_host (s : State) (b : Buffer) (m : Memory) : (s.setBuffer b m).host = s.host := by
  cases b <;> rfl
@[simp] theorem setBuffer_hostReads (s : State) (b : Buffer) (m : Memory) : (s.setBuffer b m).hostReads = s.hostReads := by
  cases b <;> rfl
@[simp] theorem setBuffer_adapter (s : State) (b : Buffer) (m : Memory) : (s.setBuffer b m).adapter = s.adapter := by
  cases b <;> rfl
@[simp] theorem setBuffer_inProgress (s : State) (b : Buffer) (m : Memory) : (s.setBuffer b m).inProgress = s.inProgress := by
  cases b <;> rfl
@[simp] theorem buffer_setBuffer_same (s : State) (b : Buffer) (m : Memory) : (s.setBuffer b m).buffer b = m := by
  cases b <;> rfl
theorem buffer_setBuffer_other (s : State) {b c : Buffer} (m : Memory) (h : c ≠ b) :
    (s.setBuffer b m).buffer c = s.buffer c := by
  cases b <;> cases c <;> first | rfl | exact absurd rfl h
@[simp] theorem count_setBuffer (s : State) (b c : Buffer) (m : Memory) : (s.setBuffer b m).count c = s.count c := by
  cases b <;> rfl
@[simp] theorem op_setBuffer (s : State) (b : Buffer) (m : Memory) : (s.setBuffer b m).op = s.op := by
  cases b <;> rfl
@[simp] theorem respLen_setBuffer (s : State) (b : Buffer) (m : Memory) : (s.setBuffer b m).respLen = s.respLen := by
  cases b <;> rfl

end Sys2Proof.Machine
end

