-- ==== Sys2Proof/Laws/Ops.lean ====
section
/-! SUPPORT. For each shared operation, what it can do when it answers a next state, and when it must. -/

namespace Sys2Proof.Machine

@[simp] theorem andThen_next {α β : Type} (a : α) (k : α → Result β) : andThen (.next a) k = k a := rfl
@[simp] theorem andThen_fault {α β : Type} (f : Fault) (k : α → Result β) :
    andThen (.fault f : Result α) k = .fault f := rfl
@[simp] theorem andThen_refused {α β : Type} (r : Refusal) (k : α → Result β) :
    andThen (.refused r : Result α) k = .refused r := rfl

/-- A sequence answers next exactly when both of its parts do. -/
theorem andThen_eq_next {α β : Type} {o : Result α} {k : α → Result β} {b : β} :
    andThen o k = .next b ↔ ∃ a, o = .next a ∧ k a = .next b := by
  cases o <;> simp [andThen]

@[simp] theorem ofSelector_encode : Op.ofSelector 0x01#8 = some .encode := rfl
@[simp] theorem ofSelector_validateAck : Op.ofSelector 0x02#8 = some .validateAck := rfl
@[simp] theorem ofSelector_decodeHeader : Op.ofSelector 0x03#8 = some .decodeHeader := rfl
@[simp] theorem ofSelector_exchange : Op.ofSelector 0x10#8 = some .exchange := rfl
@[simp] theorem ofSelector_decodeFw : Op.ofSelector 0x20#8 = some .decodeFw := rfl
@[simp] theorem ofSelector_decodeTarget : Op.ofSelector 0x21#8 = some .decodeTarget := rfl
@[simp] theorem ofSelector_firmwareVersion : Op.ofSelector 0x30#8 = some .firmwareVersion := rfl
@[simp] theorem ofSelector_listPassiveTarget : Op.ofSelector 0x31#8 = some .listPassiveTarget := rfl

/-- The latched operation after acceptance is the one the selector names. -/
@[simp] theorem op_accepted (o : Byte) (r : Operands) (s : State) :
    (accepted o r s).op = Op.ofSelector o := by
  simp [State.op, latch]

/-- What a buffer read delivers: bytes below the valid count, as they stand. -/
theorem memRead_eq_next {b : Buffer} {i n : Nat} {s : State} {bs : List Byte} :
    memRead b i n s = .next bs ↔
      ∃ c, s.count b = some c ∧ i + n ≤ c ∧ (s.buffer b).readBytes i n = some bs := by
  unfold memRead
  split
  · rename_i h
    simp [h]
  · rename_i c h
    split
    · rename_i hle
      split
      · rename_i bs' hb
        simp [h, hle, hb]
      · rename_i hb
        simp [h, hb]
    · rename_i hle
      simp [h, hle]

theorem readValid_eq_next {b : Buffer} {s : State} {bs : List Byte} :
    readValid b s = .next bs ↔ ∃ c, s.count b = some c ∧ (s.buffer b).readBytes 0 c = some bs := by
  unfold readValid
  split
  · rename_i h
    simp [h]
  · rename_i c h
    rw [memRead_eq_next]
    simp [h]

/-- Reading a buffer whose count and bytes are known. -/
theorem readValid_of {b : Buffer} {s : State} {bs : List Byte} (hc : s.count b = some bs.length)
    (hb : (s.buffer b).readBytes 0 bs.length = some bs) : readValid b s = .next bs :=
  readValid_eq_next.2 ⟨_, hc, hb⟩

theorem memWrite_eq_next {b : Buffer} {i : Nat} {v : List Byte} {s t : State} :
    memWrite b i v s = .next t ↔
      i + v.length ≤ b.capacity ∧ s.setBuffer b ((s.buffer b).writeBytes i v) = t := by
  unfold memWrite
  split <;> rename_i h <;> simp [h]

theorem memWrite_of {b : Buffer} {i : Nat} {v : List Byte} {s : State} (h : i + v.length ≤ b.capacity) :
    memWrite b i v s = .next (s.setBuffer b ((s.buffer b).writeBytes i v)) :=
  memWrite_eq_next.2 ⟨h, rfl⟩

/-- The state after a call that the adapter never answers. -/
abbrev State.stuck (c : Call) (a : Adapter) (s : State) : State :=
  { s with adapter := a, trace := s.trace ++ [.unanswered c], inProgress := some c }

/-! ### A transport event, by the adapter's answer -/

theorem portWrite_ok {w : List Byte} {s : State} {k : Bool → State → Result State}
    (h : s.adapter.drawWrite.1 = .ok) : portWrite w s k =
      k true { s with adapter := s.adapter.drawWrite.2, trace := s.trace ++ [.write w true] } := by
  unfold portWrite
  rcases hd : s.adapter.drawWrite with ⟨x, a⟩
  cases (show x = .ok by simpa [hd] using h)
  rfl

theorem portWrite_fail {w : List Byte} {s : State} {k : Bool → State → Result State}
    (h : s.adapter.drawWrite.1 = .fail) : portWrite w s k =
      k false { s with adapter := s.adapter.drawWrite.2, trace := s.trace ++ [.write w false] } := by
  unfold portWrite
  rcases hd : s.adapter.drawWrite with ⟨x, a⟩
  cases (show x = .fail by simpa [hd] using h)
  rfl

theorem portWrite_never {w : List Byte} {s : State} {k : Bool → State → Result State}
    (h : s.adapter.drawWrite.1 = .never) :
    portWrite w s k = .next (s.stuck (.write w) s.adapter.drawWrite.2) := by
  unfold portWrite
  rcases hd : s.adapter.drawWrite with ⟨x, a⟩
  cases (show x = .never by simpa [hd] using h)
  rfl

theorem portRead_ok {n : Nat} {s : State} {k : Option (List Byte) → State → Result State} {bs : List Byte}
    (h : s.adapter.drawRead.1 = .ok bs) : portRead n s k =
      k (some (bs.take n)) { s with adapter := s.adapter.drawRead.2, trace := s.trace ++ [.read n (some bs)] } := by
  unfold portRead
  rcases hd : s.adapter.drawRead with ⟨x, a⟩
  cases (show x = .ok bs by simpa [hd] using h)
  rfl

theorem portRead_fail {n : Nat} {s : State} {k : Option (List Byte) → State → Result State}
    (h : s.adapter.drawRead.1 = .fail) : portRead n s k =
      k none { s with adapter := s.adapter.drawRead.2, trace := s.trace ++ [.read n none] } := by
  unfold portRead
  rcases hd : s.adapter.drawRead with ⟨x, a⟩
  cases (show x = .fail by simpa [hd] using h)
  rfl

theorem portRead_never {n : Nat} {s : State} {k : Option (List Byte) → State → Result State}
    (h : s.adapter.drawRead.1 = .never) :
    portRead n s k = .next (s.stuck (.read n) s.adapter.drawRead.2) := by
  unfold portRead
  rcases hd : s.adapter.drawRead with ⟨x, a⟩
  cases (show x = .never by simpa [hd] using h)
  rfl

theorem portProbe_status {s : State} {k : Byte → State → Result State} {b : Byte}
    (h : s.adapter.drawProbe.1 = .status b) : portProbe s k =
      k b { s with adapter := s.adapter.drawProbe.2, trace := s.trace ++ [.probe b] } := by
  unfold portProbe
  rcases hd : s.adapter.drawProbe with ⟨x, a⟩
  cases (show x = .status b by simpa [hd] using h)
  rfl

theorem portProbe_never {s : State} {k : Byte → State → Result State} (h : s.adapter.drawProbe.1 = .never) :
    portProbe s k = .next (s.stuck .probe s.adapter.drawProbe.2) := by
  unfold portProbe
  rcases hd : s.adapter.drawProbe with ⟨x, a⟩
  cases (show x = .never by simpa [hd] using h)
  rfl

/-- Each transport event: its answers, each with what follows it, and the event that is never answered. -/
theorem portWrite_eq_next {w : List Byte} {s t : State} {k : Bool → State → Result State} :
    portWrite w s k = .next t ↔
      (s.adapter.drawWrite.1 = .ok ∧
        k true { s with adapter := s.adapter.drawWrite.2, trace := s.trace ++ [.write w true] } = .next t) ∨
      (s.adapter.drawWrite.1 = .fail ∧
        k false { s with adapter := s.adapter.drawWrite.2, trace := s.trace ++ [.write w false] } = .next t) ∨
      (s.adapter.drawWrite.1 = .never ∧ t = s.stuck (.write w) s.adapter.drawWrite.2) := by
  cases h : s.adapter.drawWrite.1 with
  | ok => simp [portWrite_ok h]
  | fail => simp [portWrite_fail h]
  | never => simp [portWrite_never h, eq_comm (a := t)]

theorem portRead_eq_next {n : Nat} {s t : State} {k : Option (List Byte) → State → Result State} :
    portRead n s k = .next t ↔
      (∃ bs, s.adapter.drawRead.1 = .ok bs ∧
        k (some (bs.take n))
          { s with adapter := s.adapter.drawRead.2, trace := s.trace ++ [.read n (some bs)] } = .next t) ∨
      (s.adapter.drawRead.1 = .fail ∧
        k none { s with adapter := s.adapter.drawRead.2, trace := s.trace ++ [.read n none] } = .next t) ∨
      (s.adapter.drawRead.1 = .never ∧ t = s.stuck (.read n) s.adapter.drawRead.2) := by
  cases h : s.adapter.drawRead.1 with
  | ok bs => simp [portRead_ok h]
  | fail => simp [portRead_fail h]
  | never => simp [portRead_never h, eq_comm (a := t)]

theorem portProbe_eq_next {s t : State} {k : Byte → State → Result State} :
    portProbe s k = .next t ↔
      (∃ b, s.adapter.drawProbe.1 = .status b ∧
        k b { s with adapter := s.adapter.drawProbe.2, trace := s.trace ++ [.probe b] } = .next t) ∨
      (s.adapter.drawProbe.1 = .never ∧ t = s.stuck .probe s.adapter.drawProbe.2) := by
  cases h : s.adapter.drawProbe.1 with
  | status b => simp [portProbe_status h]
  | never => simp [portProbe_never h, eq_comm (a := t)]

theorem accept_eq_next {o : Byte} {r : Operands} {s t : State} :
    accept o r s = .next t ↔ s.status.busy = false ∧ accepted o r s = t := by
  unfold accept
  cases h : s.status.busy <;> simp

/-- The shared start of every operation, on an idle block. -/
theorem start_idle {o : Byte} {r : Operands} {s : State} {k : State → Result State}
    (h : s.status.busy = false) :
    start o r s k =
      match operandError (accepted o r s) with
      | some e => .next (raise e (accepted o r s))
      | none => k (accepted o r s) := by
  unfold start
  rw [accept_eq_next.2 ⟨h, rfl⟩]
  rfl

theorem start_busy {o : Byte} {r : Operands} {s : State} {k : State → Result State}
    (h : s.status.busy = true) : start o r s k = .refused .busy := by
  simp [start, accept, h]

/-- What an operation can do in its acceptance step: raise an operand error, or go on. -/
theorem start_eq_next {o : Byte} {r : Operands} {s t : State} {k : State → Result State}
    (h : start o r s k = .next t) :
    s.status.busy = false ∧
      ((∃ e, operandError (accepted o r s) = some e ∧ t = raise e (accepted o r s)) ∨
        (operandError (accepted o r s) = none ∧ k (accepted o r s) = .next t)) := by
  cases hb : s.status.busy
  · refine ⟨rfl, ?_⟩
    rw [start_idle hb] at h
    split at h
    · rename_i e he
      exact .inl ⟨e, he, by simpa using h.symm⟩
    · rename_i he
      exact .inr ⟨he, h⟩
  · rw [start_busy hb] at h
    cases h

theorem writeFrame_eq_next {pd : List Byte} {s t : State} :
    writeFrame pd s = .next t ↔
      (buildFrame pd).length ≤ 262 ∧
        t = { s with frame := s.frame.writeBytes 0 (buildFrame pd),
                     flen := Register.of (BitVec.ofNat 9 (buildFrame pd).length) } := by
  unfold writeFrame
  rw [andThen_eq_next]
  simp only [memWrite_eq_next, Buffer.capacity, Nat.zero_add]
  constructor
  · rintro ⟨a, ⟨h, rfl⟩, h'⟩
    refine ⟨h, ?_⟩
    simpa [State.setBuffer, State.buffer] using h'.symm
  · rintro ⟨h, rfl⟩
    exact ⟨_, ⟨h, rfl⟩, rfl⟩

@[simp] theorem length_buildFrame (pd : List Byte) : (buildFrame pd).length = pd.length + 8 := by
  simp [buildFrame]

theorem toNat_dlen {r : Operands} (h : r.data.length < 65536) : r.dlen.toNat = r.data.length := by
  simp [Operands.dlen, Nat.mod_eq_of_lt h]

/-- After acceptance the valid bytes of `DATA` are the request's (R44, R45). -/
theorem readValid_data_accepted {o : Byte} {r : Operands} {s : State} (h : r.data.length ≤ 262) :
    readValid .data (accepted o r s) = .next r.data := by
  have hd : (accepted o r s).data = Memory.ofBytes r.data := by simp [dataMax, h]
  refine readValid_of ?_ ?_
  · simp [State.count, latch, toNat_dlen (show r.data.length < 65536 by omega)]
  · show (accepted o r s).data.readBytes 0 r.data.length = some r.data
    rw [hd]
    exact Memory.readBytes_ofBytes r.data

end Sys2Proof.Machine
end

