-- ==== Sys2Proof/Laws/Frames.lean ====
section
/-! SUPPORT. The arithmetic of the wire frames and of the packed registers. -/

namespace Sys2Proof.Machine

theorem toNat_neg8 (x : Nat) : (neg8 x).toNat = (256 - x % 256) % 256 := by simp [neg8]

/-- The bytes of a frame after the direction byte: the payload, the checksum, the postamble (R80). -/
theorem buildFrame_getElem? (pd : List Byte) (k : Nat) :
    (buildFrame pd)[6 + k]? = (pd ++ [neg8 (tfiHostToChip.toNat + (sum8 pd).toNat), postamble])[k]? := by
  simp [buildFrame, Nat.add_comm 6 k]

/-- `sum8` is the sum in bytes (R12). -/
theorem foldr_add_eq_sum8 (bs : List Byte) : bs.foldr (· + ·) 0 = sum8 bs := by
  induction bs with
  | nil => rfl
  | cons b bs ih =>
    simp only [List.foldr_cons, ih]
    apply BitVec.eq_of_toNat_eq
    simp [sum8]

/-- The first differing byte is the one that ends the common part (R139, R170). -/
theorem firstMismatch_eq {want got : List Byte} {i : Nat} {b : Byte} (hw : i < want.length)
    (hg : got[i]? = some b) (ht : got.take i = want.take i) (hne : want[i]? ≠ some b) :
    firstMismatch want got = some (i, b) := by
  induction want generalizing got i with
  | nil => simp at hw
  | cons w ws ih =>
    cases got with
    | nil => simp at hg
    | cons g gs =>
      cases i with
      | zero =>
        simp at hg hne
        simp [firstMismatch, hg, Ne.symm hne]
      | succ i =>
        simp at hg hne ht hw
        simp [firstMismatch, ht.1, ih hw hg ht.2 (by simpa using hne)]

/-- No byte differs where a sequence begins with the pattern. -/
theorem firstMismatch_append (want rest : List Byte) : firstMismatch want (want ++ rest) = none := by
  induction want with
  | nil => cases rest <;> rfl
  | cons w ws ih => simp [firstMismatch, ih]

theorem infoOfPair_eq (b : Byte) (n : Nat) (h : n < 256) :
    infoOfPair b n = BitVec.ofNat 16 (b.toNat * 256 + n) := by
  have hb := b.isLt
  apply BitVec.eq_of_toNat_eq
  simp only [infoOfPair, BitVec.toNat_or, BitVec.toNat_shiftLeft, BitVec.toNat_setWidth, BitVec.toNat_ofNat]
  rw [Nat.mod_eq_of_lt (a := b.toNat) (by omega), Nat.shiftLeft_eq, Nat.mod_eq_of_lt (by omega),
    Nat.mod_eq_of_lt (by omega : n < 2 ^ 16), Nat.mul_comm, ← Nat.two_pow_add_eq_or_of_lt (by simpa using h),
    Nat.mod_eq_of_lt (by omega)]

end Sys2Proof.Machine
end

