-- ==== Sys2Proof/Laws/Step.lean ====
section
/-! SUPPORT. What a step can do, said once: the pure decodes, an acceptance, a step of the block and a step
of the machine, each taken apart into its cases. -/

namespace Sys2Proof.Machine

/-! ### The pure decodes -/

/-- The codes of the errors of a firmware decode (R170). -/
theorem fwDecode_error {b : List Byte} {e : OpError} (h : fwDecode b = .error e) :
    e.code = .truncated ∨ e.code = .unexpectedResponse := by
  unfold fwDecode at h
  split at h
  · cases h
    exact .inl rfl
  · split at h <;> cases h
    exact .inr rfl

/-- The codes of the errors of a target decode (R176). -/
theorem targetDecode_error {u : Nat} {b : List Byte} {e : OpError} (h : targetDecode u b = .error e) :
    e.code = .truncated ∨ e.code = .targetCount := by
  unfold targetDecode at h
  split at h
  · cases h
    exact .inl rfl
  · split at h
    · cases h
      exact .inr rfl
    · split at h
      · cases h
        exact .inl rfl
      · split at h <;> cases h
        exact .inl rfl

/-- A target decode that succeeds delivers as many bytes as the UID-length byte says (R176, R178). -/
theorem targetDecode_ok {u : Nat} {b w : List Byte} (h : targetDecode u b = .ok w) :
    ∃ l : Byte, b[u]? = some l ∧ u + 1 + l.toNat ≤ b.length ∧ w = (b.drop (u + 1)).take l.toNat ∧
      w.length = l.toNat := by
  unfold targetDecode at h
  split at h
  · cases h
  · split at h
    · cases h
    · split at h
      · cases h
      · split at h <;> cases h
        rename_i h1 h2 h3 h4
        refine ⟨b[u], ?_, by omega, rfl, ?_⟩
        · exact List.getElem?_eq_getElem _
        · simp only [List.length_take, List.length_drop]
          omega

/-- The ack check raises `E_ACK` only (R139). -/
theorem ackError_code {r : List Byte} {e : OpError} (h : ackError r = some e) : e.code = .ack := by
  unfold ackError at h
  split at h
  · cases h
    rfl
  · split at h
    · cases h
    · obtain ⟨p, _, rfl⟩ := Option.map_eq_some_iff.1 h
      rfl

/-- The operand checks raise class (d) errors only (R74). -/
theorem operandError_code {s : State} {e : OpError} (h : operandError s = some e) :
    e.code = .badOp ∨ e.code = .badLength ∨ e.code = .payloadTooLong := by
  unfold operandError at h
  split at h
  · cases h
    exact .inl rfl
  · split at h <;> cases h
    exact .inr (.inr rfl)
  · split at h
    · cases h
      exact .inr (.inr rfl)
    · split at h <;> cases h
      exact .inr (.inl rfl)
  all_goals first
    | (split at h <;> cases h; exact .inr (.inl rfl))
    | cases h

theorem finishFw_eq_next {b : List Byte} {s t : State} :
    finishFw b s = .next t ↔
      (∃ v, fwDecode b = .ok v ∧ t = succeed { s with fwinfo := Register.of v }) ∨
        (∃ e, fwDecode b = .error e ∧ t = raise e s) := by
  unfold finishFw
  split <;> rename_i h <;> simp [h, eq_comm]

theorem finishTarget_eq_next {b : List Byte} {s t : State} :
    finishTarget b s = .next t ↔
      (∃ u, targetDecode s.cfg.uidLenOff b = .ok u ∧
        t = succeed { s with uidlen := Register.of (BitVec.ofNat 8 u.length), uid := s.uid.writeBytes 0 u }) ∨
        (∃ e, targetDecode s.cfg.uidLenOff b = .error e ∧ t = raise e s) := by
  unfold finishTarget
  split
  · rename_i h
    simp [h, eq_comm]
  · rename_i u h
    obtain ⟨l, _, _, _, hl⟩ := targetDecode_ok h
    have := l.isLt
    rw [memWrite_of (by simp [Buffer.capacity]; omega)]
    simp [h, eq_comm, State.setBuffer, State.buffer]

/-! ### A step of the block -/

/-- The state after a probe that answered `b`. -/
abbrev State.probed (b : Byte) (s : State) : State :=
  { s with adapter := s.adapter.drawProbe.2, trace := s.trace ++ [.probe b], laststat := b }

/-- One step of a ready-wait: its delay, or a probe with its outcomes (R131). -/
theorem waitStep_eq_next {code : ErrCode} {leave : State → Result State} {s t : State} :
    waitStep code leave s = .next t ↔
      (s.wsub = true ∧ t = { portDelay s.cfg.pollMs s with wsub := false }) ∨
        (s.wsub = false ∧ ∃ b, s.adapter.drawProbe.1 = .status b ∧
          ((Params.ready s.cfg b = true ∧ leave (s.probed b) = .next t) ∨
            (Params.ready s.cfg b = false ∧ s.req.timeout = 0 ∧ t = { s.probed b with wsub := true }) ∨
            (Params.ready s.cfg b = false ∧ s.req.timeout ≠ 0 ∧
              s.req.timeout.toNat < s.waitacc + s.cfg.pollMs ∧
              t = raise ⟨code, infoOfByte b⟩ { s.probed b with waitacc := s.waitacc + s.cfg.pollMs }) ∨
            (Params.ready s.cfg b = false ∧ s.req.timeout ≠ 0 ∧
              s.waitacc + s.cfg.pollMs ≤ s.req.timeout.toNat ∧
              t = { s.probed b with waitacc := s.waitacc + s.cfg.pollMs, wsub := true }))) ∨
        (s.wsub = false ∧ s.adapter.drawProbe.1 = .never ∧ t = s.stuck .probe s.adapter.drawProbe.2) := by
  unfold waitStep
  cases hw : s.wsub
  · simp only [Bool.false_eq_true, if_false, false_and, true_and, false_or]
    rw [portProbe_eq_next]
    refine or_congr (exists_congr fun b => and_congr_right fun _ => ?_) Iff.rfl
    cases hr : Params.ready s.cfg b
    · by_cases ht : s.req.timeout = 0
      · simp only [ht, Bool.false_eq_true, if_false, if_true, false_and, true_and, false_or, or_false, not_true,
          ne_eq, Host.Outcome.next.injEq]
        exact eq_comm
      · by_cases hl : s.req.timeout.toNat < s.waitacc + s.cfg.pollMs
        · simp only [ht, hl, Nat.not_le.2 hl, Bool.false_eq_true, if_false, if_true, false_and, true_and,
            false_or, or_false, ne_eq, not_false_eq_true, Host.Outcome.next.injEq]
          exact eq_comm
        · simp only [ht, hl, Nat.not_lt.1 hl, Bool.false_eq_true, if_false, false_and, true_and, and_false,
            false_or, ne_eq, not_false_eq_true, Host.Outcome.next.injEq]
          exact eq_comm
    · simp
  · simp only [if_true, Host.Outcome.next.injEq, Bool.true_eq_false, false_and, or_false, true_and]
    exact eq_comm

/-- A step of the block: it is blocked by the event in progress (I14), or makes the action of its phase. -/
theorem blockStep_cases {s t : State} (h : blockStep s = .next t) :
    (s.inProgress ≠ none ∧ t = s) ∨ (s.inProgress = none ∧ phaseStep s = .next t) := by
  unfold blockStep at h
  cases hi : s.inProgress <;> simp [hi] at h ⊢
  · exact h
  · exact h.symm

/-- With no event in progress a step of the block is the action of its phase. -/
theorem blockStep_of_none {s : State} (h : s.inProgress = none) : blockStep s = phaseStep s := by
  simp [blockStep, h]

/-- An event in progress blocks the block (R59, R64, I14). -/
theorem blockStep_of_some {s : State} (h : s.inProgress ≠ none) : blockStep s = .next s := by
  simp [blockStep, Option.isSome_iff_ne_none, h]

/-- The calls of a phase that the adapter never answers, and the adapter after the call (I14). -/
def State.unanswered (s : State) (c : Call) (a : Adapter) : Prop :=
  (s.phase = .send ∧ s.adapter.drawWrite.1 = .never ∧ a = s.adapter.drawWrite.2 ∧
      ∃ w, readValid .frame s = .next w ∧ c = .write w) ∨
    ((s.phase = .ackRead ∧ c = .read 6 ∨ s.phase = .respRead ∧ ∃ n, s.respLen = some n ∧ c = .read n) ∧
      s.adapter.drawRead.1 = .never ∧ a = s.adapter.drawRead.2) ∨
    (s.phase.isWait ∧ s.wsub = false ∧ s.adapter.drawProbe.1 = .never ∧ a = s.adapter.drawProbe.2 ∧ c = .probe)

/-- Everything the action of a phase can do (R131, R136 to R142, R185, R190; I14). -/
theorem phaseStep_cases {s t : State} (h : phaseStep s = .next t) :
    (∃ c a, s.unanswered c a ∧ t = s.stuck c a) ∨
    (s.phase = .idle ∧ t = s) ∨
    (s.phase = .send ∧ ∃ w, readValid .frame s = .next w ∧
      ((s.adapter.drawWrite.1 = .ok ∧ t = enterWait .wait1
          { s with adapter := s.adapter.drawWrite.2, trace := s.trace ++ [.write w true] }) ∨
        (s.adapter.drawWrite.1 = .fail ∧ t = raise ⟨.send, 0⟩
          { s with adapter := s.adapter.drawWrite.2, trace := s.trace ++ [.write w false] }))) ∨
    (s.phase.isWait ∧ s.wsub = true ∧ t = { portDelay s.cfg.pollMs s with wsub := false }) ∨
    (s.phase.isWait ∧ s.wsub = false ∧ ∃ b, s.adapter.drawProbe.1 = .status b ∧
      ((Params.ready s.cfg b = true ∧ s.phase = .wait1 ∧ t = { s.probed b with phase := .settle1 }) ∨
        (Params.ready s.cfg b = true ∧ s.phase = .wait2 ∧ s.respLen = some 0 ∧
          t = succeed { s.probed b with rxcnt := Register.of 0 }) ∨
        (Params.ready s.cfg b = true ∧ s.phase = .wait2 ∧ (∃ n, s.respLen = some (n + 1)) ∧
          t = { s.probed b with phase := .respRead }) ∨
        (Params.ready s.cfg b = false ∧ s.req.timeout = 0 ∧ t = { s.probed b with wsub := true }) ∨
        (Params.ready s.cfg b = false ∧ s.req.timeout ≠ 0 ∧
          s.req.timeout.toNat < s.waitacc + s.cfg.pollMs ∧
          t = raise ⟨if s.phase = .wait1 then .timeout1 else .timeout2, infoOfByte b⟩
            { s.probed b with waitacc := s.waitacc + s.cfg.pollMs }) ∨
        (Params.ready s.cfg b = false ∧ s.req.timeout ≠ 0 ∧
          s.waitacc + s.cfg.pollMs ≤ s.req.timeout.toNat ∧
          t = { s.probed b with waitacc := s.waitacc + s.cfg.pollMs, wsub := true }))) ∨
    (s.phase = .settle1 ∧ t = { portDelay s.cfg.settleMs s with phase := .ackRead }) ∨
    (s.phase = .ackRead ∧
      ((s.adapter.drawRead.1 = .fail ∧ t = raise ⟨.ack, infoOfPair 0x03 0⟩
          { s with adapter := s.adapter.drawRead.2, trace := s.trace ++ [.read 6 none], ackcnt := Register.of 0 }) ∨
        (∃ r, s.adapter.drawRead.1 = .ok r ∧ ∃ v : State,
          v = { s with
            adapter := s.adapter.drawRead.2, trace := s.trace ++ [.read 6 (some r)]
            ackbuf := s.ackbuf.writeBytes 0 (r.take 6)
            ackcnt := Register.of (BitVec.ofNat 3 (r.take 6).length) } ∧
          ((∃ e, ackError (r.take 6) = some e ∧ t = raise e v) ∨
            (ackError (r.take 6) = none ∧ t = { v with phase := .settle2 }))))) ∨
    (s.phase = .settle2 ∧ t = enterWait .wait2 (portDelay s.cfg.settleMs s)) ∨
    (s.phase = .respRead ∧ ∃ n, s.respLen = some n ∧
      ((s.adapter.drawRead.1 = .fail ∧ t = raise ⟨.respRead, 0⟩
          { s with adapter := s.adapter.drawRead.2, trace := s.trace ++ [.read n none], rxcnt := Register.of 0 }) ∨
        (∃ r, s.adapter.drawRead.1 = .ok r ∧ (r.take n).length ≤ 262 ∧ ∃ v : State,
          v = { s with
            adapter := s.adapter.drawRead.2, trace := s.trace ++ [.read n (some r)]
            rxbuf := s.rxbuf.writeBytes 0 (r.take n)
            rxcnt := Register.of (BitVec.ofNat 9 (r.take n).length) } ∧
          ((s.op = some .exchange ∧ t = succeed v) ∨
            (s.op ≠ some .exchange ∧ t = { v with phase := .parse }))))) ∨
    (s.phase = .parse ∧ ∃ b, readValid .rxbuf s = .next b ∧
      ((s.op = some .firmwareVersion ∧ finishFw b s = .next t) ∨
        (s.op = some .listPassiveTarget ∧ finishTarget b s = .next t))) := by
  unfold phaseStep at h
  split at h
  · rename_i hp
    cases h
    exact .inr (.inl ⟨hp, rfl⟩)
  · rename_i hp
    obtain ⟨w, hw, h⟩ := andThen_eq_next.1 h
    rcases portWrite_eq_next.1 h with ⟨hd, h⟩ | ⟨hd, h⟩ | ⟨hd, rfl⟩
    · cases h
      exact .inr (.inr (.inl ⟨hp, w, hw, .inl ⟨hd, rfl⟩⟩))
    · cases h
      exact .inr (.inr (.inl ⟨hp, w, hw, .inr ⟨hd, rfl⟩⟩))
    · exact .inl ⟨_, _, .inl ⟨hp, hd, rfl, w, hw, rfl⟩, rfl⟩
  · rename_i hp
    rcases waitStep_eq_next.1 h with ⟨hw, rfl⟩ | ⟨hw, b, hd, h⟩ | ⟨hw, hd, rfl⟩
    · exact .inr (.inr (.inr (.inl ⟨.inl hp, hw, rfl⟩)))
    · refine .inr (.inr (.inr (.inr (.inl ⟨.inl hp, hw, b, hd, ?_⟩))))
      rcases h with ⟨hr, h⟩ | h | ⟨hr, ht, hl, rfl⟩ | h
      · cases h
        exact .inl ⟨hr, hp, rfl⟩
      · exact .inr (.inr (.inr (.inl h)))
      · exact .inr (.inr (.inr (.inr (.inl ⟨hr, ht, hl, by rw [if_pos hp]⟩))))
      · exact .inr (.inr (.inr (.inr (.inr h))))
    · exact .inl ⟨_, _, .inr (.inr ⟨.inl hp, hw, hd, rfl, rfl⟩), rfl⟩
  · rename_i hp
    cases h
    exact .inr (.inr (.inr (.inr (.inr (.inl ⟨hp, rfl⟩)))))
  · rename_i hp
    rcases portRead_eq_next.1 h with ⟨r, hd, h⟩ | ⟨hd, h⟩ | ⟨hd, rfl⟩
    · refine .inr (.inr (.inr (.inr (.inr (.inr (.inl ⟨hp, .inr ⟨r, hd, ?_⟩⟩))))))
      obtain ⟨v, hv, h⟩ := andThen_eq_next.1 h
      obtain ⟨_, rfl⟩ := memWrite_eq_next.1 hv
      refine ⟨_, rfl, ?_⟩
      simp only at h
      split at h
      · rename_i e he
        cases h
        exact .inl ⟨e, he, rfl⟩
      · rename_i he
        cases h
        exact .inr ⟨he, rfl⟩
    · cases h
      exact .inr (.inr (.inr (.inr (.inr (.inr (.inl ⟨hp, .inl ⟨hd, rfl⟩⟩))))))
    · exact .inl ⟨_, _, .inr (.inl ⟨.inl ⟨hp, rfl⟩, hd, rfl⟩), rfl⟩
  · rename_i hp
    cases h
    exact .inr (.inr (.inr (.inr (.inr (.inr (.inr (.inl ⟨hp, rfl⟩)))))))
  · rename_i hp
    have hp1 : s.phase ≠ .wait1 := by simp [hp]
    rcases waitStep_eq_next.1 h with ⟨hw, rfl⟩ | ⟨hw, b, hd, h⟩ | ⟨hw, hd, rfl⟩
    · exact .inr (.inr (.inr (.inl ⟨.inr hp, hw, rfl⟩)))
    · refine .inr (.inr (.inr (.inr (.inl ⟨.inr hp, hw, b, hd, ?_⟩))))
      rcases h with ⟨hr, h⟩ | h | ⟨hr, ht, hl, rfl⟩ | h
      · unfold leaveWait2 at h
        split at h
        · cases h
        · rename_i hn
          cases h
          exact .inr (.inl ⟨hr, hp, hn, rfl⟩)
        · rename_i n hz hn
          cases h
          cases n with
          | zero => exact absurd rfl hz
          | succ n => exact .inr (.inr (.inl ⟨hr, hp, ⟨n, hn⟩, rfl⟩))
      · exact .inr (.inr (.inr (.inl h)))
      · exact .inr (.inr (.inr (.inr (.inl ⟨hr, ht, hl, by rw [if_neg hp1]⟩))))
      · exact .inr (.inr (.inr (.inr (.inr h))))
    · exact .inl ⟨_, _, .inr (.inr ⟨.inr hp, hw, hd, rfl, rfl⟩), rfl⟩
  · rename_i hp
    unfold respReadStep at h
    split at h
    · cases h
    · rename_i n hn
      rcases portRead_eq_next.1 h with ⟨r, hd, h⟩ | ⟨hd, h⟩ | ⟨hd, rfl⟩
      · refine .inr (.inr (.inr (.inr (.inr (.inr (.inr (.inr (.inl ⟨hp, n, hn, .inr ⟨r, hd, ?_⟩⟩))))))))
        obtain ⟨v, hv, h⟩ := andThen_eq_next.1 h
        obtain ⟨hl, rfl⟩ := memWrite_eq_next.1 hv
        refine ⟨by simpa [Buffer.capacity] using hl, _, rfl, ?_⟩
        simp only at h
        split at h
        · rename_i ho
          cases h
          exact .inl ⟨ho, rfl⟩
        · rename_i ho
          cases h
          exact .inr ⟨ho, rfl⟩
      · cases h
        exact .inr (.inr (.inr (.inr (.inr (.inr (.inr (.inr (.inl ⟨hp, n, hn, .inl ⟨hd, rfl⟩⟩))))))))
      · exact .inl ⟨_, _, .inr (.inl ⟨.inr ⟨hp, n, hn, rfl⟩, hd, rfl⟩), rfl⟩
  · rename_i hp
    refine .inr (.inr (.inr (.inr (.inr (.inr (.inr (.inr (.inr ⟨hp, ?_⟩))))))))
    unfold parseStep at h
    split at h
    · rename_i ho
      obtain ⟨b, hb, h⟩ := andThen_eq_next.1 h
      exact ⟨b, hb, .inl ⟨ho, h⟩⟩
    · rename_i ho
      obtain ⟨b, hb, h⟩ := andThen_eq_next.1 h
      exact ⟨b, hb, .inr ⟨ho, h⟩⟩
    · cases h
  · cases h

/-! ### An acceptance -/

/-- The payload an acceptance frames: the request's data, or the fixed one of a composite (R87, R136). -/
def framedPayload (i : Instr) : List Byte :=
  match i.op with
  | .firmwareVersion => fwPayload
  | .listPassiveTarget => inListPayload i.operands.cardType
  | _ => i.operands.data

/-- A state whose `FRAME` and `FLEN` hold the frame of a payload. -/
abbrev State.framed (pd : List Byte) (s : State) : State :=
  { s with frame := Memory.ofBytes (buildFrame pd), flen := Register.of (BitVec.ofNat 9 (pd.length + 8)) }

/-- The data a codec operation or standalone decode reads are the request's, and few enough (R44, R74). -/
theorem readValid_data {o : Byte} {r : Operands} {s : State} {b : List Byte} (hw : r.wellFormed)
    (h : readValid .data (accepted o r s) = .next b) (hl : r.data.length ≤ 262 ∨ b.length ≤ 262) :
    b = r.data ∧ r.data.length ≤ 262 := by
  have hle : r.data.length ≤ 262 := by
    rcases hl with hl | hl
    · exact hl
    · obtain ⟨c, hc, hb⟩ := readValid_eq_next.1 h
      have := Memory.length_of_readBytes hb
      simp only [State.count, accepted_req, latch, toNat_dlen hw, Option.some.injEq] at hc
      omega
  rw [readValid_data_accepted hle] at h
  cases h
  exact ⟨rfl, hle⟩

/-- The operand checks passed: the data were copied (R74). -/
theorem length_of_operandError_none {op : Op} {r : Operands} {s : State} (hw : r.wellFormed)
    (h : operandError (accepted op.selector r s) = none) :
    (op = .validateAck ∨ op = .decodeHeader ∨ op = .decodeFw ∨ op = .decodeTarget →
        r.data.length ≤ 262) ∧
      (op = .encode ∨ op = .exchange → r.data.length ≤ s.cfg.maxPayload) ∧
      (op = .exchange → r.rlen.toNat ≤ 262) := by
  cases op <;>
    simp [operandError, Op.selector, latch, toNat_dlen hw, dataMax, rxMax] at h ⊢ <;>
    first | exact h | (split at h <;> simp_all)

/-- Everything an acceptance can do (R74, R103, R110, R120, R136, R170, R176, R185, R190). -/
theorem exec_cases {i : Instr} {s t : State} (hw : i.wellFormed) (h : exec i s = .next t) :
    s.status.busy = false ∧ ∃ a, a = accepted i.op.selector i.operands s ∧
      ((∃ e, operandError a = some e ∧ t = raise e a) ∨
        (operandError a = none ∧
          ((i.op = .encode ∧ (framedPayload i).length ≤ 254 ∧ t = succeed (a.framed (framedPayload i))) ∨
            (i.op = .validateAck ∧ t = succeed { a with ackok := Register.of (BitVec.ofBool (isAck i.operands.data)) }) ∨
            (i.op = .decodeHeader ∧
              ((∃ v, headerDecode i.operands.data = .ok v ∧ t = succeed { a with hdr := Register.of v }) ∨
                (headerDecode i.operands.data = .error (truncatedError 6) ∧
                  t = raise (truncatedError 6) a))) ∨
            (i.op = .decodeFw ∧ finishFw i.operands.data a = .next t) ∨
            (i.op = .decodeTarget ∧ finishTarget i.operands.data a = .next t) ∨
            ((i.op = .exchange ∨ i.op = .firmwareVersion ∨ i.op = .listPassiveTarget) ∧
              (framedPayload i).length ≤ 254 ∧ t = { a.framed (framedPayload i) with phase := .send })))) := by
  have hframe : ∀ {pd : List Byte} {a u : State}, a.frame = [] → writeFrame pd a = .next u →
      pd.length ≤ 254 ∧ u = a.framed pd := by
    intro pd a u ha hu
    obtain ⟨hl, rfl⟩ := writeFrame_eq_next.1 hu
    rw [length_buildFrame] at hl
    exact ⟨by omega, by simp [State.framed, ha, Memory.ofBytes]⟩
  cases i with
  | encode r =>
    obtain ⟨hb, ⟨e, he, rfl⟩ | ⟨hn, h⟩⟩ := start_eq_next h
    · exact ⟨hb, _, rfl, .inl ⟨e, he, rfl⟩⟩
    · refine ⟨hb, _, rfl, .inr ⟨hn, .inl ?_⟩⟩
      obtain ⟨pd, hpd, h⟩ := andThen_eq_next.1 h
      obtain ⟨u, hu, h⟩ := andThen_eq_next.1 h
      obtain ⟨hl, rfl⟩ := hframe (by simp [accepted, invalidate]) hu
      obtain ⟨rfl, _⟩ := readValid_data hw hpd (.inr (by omega))
      cases h
      exact ⟨rfl, hl, rfl⟩
  | validateAck r =>
    obtain ⟨hb, ⟨e, he, rfl⟩ | ⟨hn, h⟩⟩ := start_eq_next h
    · exact ⟨hb, _, rfl, .inl ⟨e, he, rfl⟩⟩
    · refine ⟨hb, _, rfl, .inr ⟨hn, .inr (.inl ?_)⟩⟩
      obtain ⟨b, hd, h⟩ := andThen_eq_next.1 h
      have hl := (length_of_operandError_none (op := .validateAck) hw hn).1 (by simp)
      obtain ⟨rfl, _⟩ := readValid_data hw hd (.inl hl)
      cases h
      exact ⟨rfl, rfl⟩
  | decodeHeader r =>
    obtain ⟨hb, ⟨e, he, rfl⟩ | ⟨hn, h⟩⟩ := start_eq_next h
    · exact ⟨hb, _, rfl, .inl ⟨e, he, rfl⟩⟩
    · refine ⟨hb, _, rfl, .inr ⟨hn, .inr (.inr (.inl ⟨rfl, ?_⟩))⟩⟩
      obtain ⟨b, hd, h⟩ := andThen_eq_next.1 h
      have hl := (length_of_operandError_none (op := .decodeHeader) hw hn).1 (by simp)
      obtain ⟨rfl, _⟩ := readValid_data hw hd (.inl hl)
      split at h
      · rename_i e he
        have he' : e = truncatedError 6 := by
          unfold headerDecode at he
          split at he <;> cases he
          rfl
        subst he'
        cases h
        exact .inr ⟨he, rfl⟩
      · rename_i v hv
        cases h
        exact .inl ⟨v, hv, rfl⟩
  | exchange r =>
    obtain ⟨hb, ⟨e, he, rfl⟩ | ⟨hn, h⟩⟩ := start_eq_next h
    · exact ⟨hb, _, rfl, .inl ⟨e, he, rfl⟩⟩
    · refine ⟨hb, _, rfl, .inr ⟨hn, .inr (.inr (.inr (.inr (.inr ⟨.inl rfl, ?_⟩))))⟩⟩
      obtain ⟨pd, hpd, h⟩ := andThen_eq_next.1 h
      obtain ⟨u, hu, h⟩ := andThen_eq_next.1 h
      obtain ⟨hl, rfl⟩ := hframe (by simp [accepted, invalidate]) hu
      obtain ⟨rfl, _⟩ := readValid_data hw hpd (.inr (by omega))
      cases h
      exact ⟨hl, rfl⟩
  | decodeFw r =>
    obtain ⟨hb, ⟨e, he, rfl⟩ | ⟨hn, h⟩⟩ := start_eq_next h
    · exact ⟨hb, _, rfl, .inl ⟨e, he, rfl⟩⟩
    · refine ⟨hb, _, rfl, .inr ⟨hn, .inr (.inr (.inr (.inl ⟨rfl, ?_⟩)))⟩⟩
      obtain ⟨b, hd, h⟩ := andThen_eq_next.1 h
      have hl := (length_of_operandError_none (op := .decodeFw) hw hn).1 (by simp)
      obtain ⟨rfl, _⟩ := readValid_data hw hd (.inl hl)
      exact h
  | decodeTarget r =>
    obtain ⟨hb, ⟨e, he, rfl⟩ | ⟨hn, h⟩⟩ := start_eq_next h
    · exact ⟨hb, _, rfl, .inl ⟨e, he, rfl⟩⟩
    · refine ⟨hb, _, rfl, .inr ⟨hn, .inr (.inr (.inr (.inr (.inl ⟨rfl, ?_⟩))))⟩⟩
      obtain ⟨b, hd, h⟩ := andThen_eq_next.1 h
      have hl := (length_of_operandError_none (op := .decodeTarget) hw hn).1 (by simp)
      obtain ⟨rfl, _⟩ := readValid_data hw hd (.inl hl)
      exact h
  | firmwareVersion r =>
    obtain ⟨hb, ⟨e, he, rfl⟩ | ⟨hn, h⟩⟩ := start_eq_next h
    · exact ⟨hb, _, rfl, .inl ⟨e, he, rfl⟩⟩
    · refine ⟨hb, _, rfl, .inr ⟨hn, .inr (.inr (.inr (.inr (.inr ⟨.inr (.inl rfl), ?_⟩))))⟩⟩
      obtain ⟨u, hu, h⟩ := andThen_eq_next.1 h
      obtain ⟨hl, rfl⟩ := hframe (by simp [accepted, invalidate]) hu
      cases h
      exact ⟨hl, rfl⟩
  | listPassiveTarget r =>
    obtain ⟨hb, ⟨e, he, rfl⟩ | ⟨hn, h⟩⟩ := start_eq_next h
    · exact ⟨hb, _, rfl, .inl ⟨e, he, rfl⟩⟩
    · refine ⟨hb, _, rfl, .inr ⟨hn, .inr (.inr (.inr (.inr (.inr ⟨.inr (.inr rfl), ?_⟩))))⟩⟩
      obtain ⟨u, hu, h⟩ := andThen_eq_next.1 h
      obtain ⟨hl, rfl⟩ := hframe (by simp [accepted, invalidate]) hu
      cases h
      have hc : (accepted 0x31 r s).req.cardType = r.cardType := by simp [latch]
      rw [hc] at hl ⊢
      exact ⟨hl, rfl⟩

/-! ### A step of the machine -/

/-- Only well-formed requests come out of the decoder (R70). -/
theorem wellFormed_of_decode {h : Header} {data : List Byte} {i : Instr} (hd : decode h data = .instr i) :
    i.wellFormed := by
  unfold decode at hd
  split at hd
  · rename_i hl
    have := (Header.dlen h).isLt
    split at hd <;> cases hd
    rename_i op _
    cases op <;>
      simp [Op.instr, Instr.wellFormed, Instr.operands, Operands.wellFormed, Header.operands] <;> omega
  · cases hd

/-- Without a pending action of the host a step is a step of the block (R20). -/
theorem step_block {s : State} (h : s.host = []) : step s = blockStep s := by simp [step, portStep, h]

/-- With no event in progress either, it is the action of the block's phase. -/
theorem step_phase {s : State} (h : s.host = []) (hi : s.inProgress = none) : step s = phaseStep s := by
  rw [step_block h, blockStep_of_none hi]

/-- Everything a step of the machine can do: a step of the block, the end of an `await`, a reset, a host
read, the run of a decoded request, or the rejection of a reserved selector. -/
theorem step_cases {s t : State} (h : step s = .next t) :
    (∃ rest, (s.host = rest ∨ s.host = .pass :: rest) ∧ (∀ r l, rest ≠ .read r :: l ∨ s.host ≠ rest) ∧
      blockStep { s with host := rest } = .next t) ∨
    (∃ rest, s.host = .await :: rest ∧ s.status.busy = false ∧ t = { s with host := rest }) ∨
    (∃ rest, s.host = .reset :: rest ∧ t = applyReset { s with host := rest }) ∨
    (∃ r rest v, s.host = .read r :: rest ∧ (r.isResult && s.status.busy) = false ∧
      hostValue r { s with host := rest } = .next v ∧
      t = { s with host := rest, hostReads := s.hostReads ++ [(r, v)] }) ∨
    (∃ h data rest i, s.host = .request h data :: rest ∧ decode h data = .instr i ∧ i.wellFormed ∧
      exec i { s with host := rest } = .next t) ∨
    (∃ h data rest, s.host = .request h data :: rest ∧ s.status.busy = false ∧
      data.length = (Header.dlen h).toNat ∧ Op.ofSelector (Header.opsel h) = none ∧
      t = raise ⟨.badOp, infoOfByte (Header.opsel h)⟩
        (accepted (Header.opsel h) (Header.operands h data) { s with host := rest })) := by
  unfold step portStep at h
  split at h
  · rename_i hh
    refine .inl ⟨[], .inl hh, by simp, ?_⟩
    rw [← hh]
    exact h
  · rename_i rest hh
    refine .inl ⟨rest, .inr hh, fun _ _ => .inr ?_, h⟩
    rw [hh]
    intro hc
    exact absurd (congrArg List.length hc) (by simp)
  · rename_i rest hh
    split at h
    · refine .inl ⟨s.host, .inl rfl, fun r l => .inl ?_, h⟩
      simp [hh]
    · rename_i hb
      cases h
      exact .inr (.inl ⟨rest, hh, by simpa using hb, rfl⟩)
  · rename_i rest hh
    cases h
    exact .inr (.inr (.inl ⟨rest, hh, rfl⟩))
  · rename_i r rest hh
    unfold hostRead at h
    split at h
    · cases h
    · rename_i hb
      obtain ⟨v, hv, h⟩ := andThen_eq_next.1 h
      cases h
      exact .inr (.inr (.inr (.inl ⟨r, rest, v, hh, by simpa using hb, hv, rfl⟩)))
  · rename_i hd data rest hh
    unfold present at h
    split at h
    · cases h
    · rename_i hb
      have hb' : s.status.busy = false := by simpa using hb
      split at h
      · rename_i i hdec
        exact .inr (.inr (.inr (.inr (.inl ⟨hd, data, rest, i, hh, hdec, wellFormed_of_decode hdec, h⟩))))
      · rename_i o hdec
        unfold decode at hdec
        split at hdec
        · rename_i hl
          split at hdec
          · cases hdec
          · rename_i ho
            refine .inr (.inr (.inr (.inr (.inr ⟨hd, data, rest, hh, hb', hl, ho, ?_⟩))))
            unfold rejectSelector at h
            rw [start_idle (by exact hb')] at h
            have he : operandError (accepted (Header.opsel hd) (Header.operands hd data)
                { s with host := rest }) = some ⟨.badOp, infoOfByte (Header.opsel hd)⟩ := by
              simp [operandError, latch, ho]
            rw [he] at h
            cases h
            rfl
        · cases hdec
      · cases h

end Sys2Proof.Machine
end

