-- ==== Sys2Proof/Laws/Legal.lean ====
section
/-! SUPPORT. The part of a legal state that is about buffers and counts, and the states after a completion
and an acceptance. -/

namespace Sys2Proof.Machine

/-- The relations between counts and buffers of a legal state, buffer by buffer. -/
structure State.BufferInv (s : State) : Prop where
  params : s.cfg.wf
  flen : ∀ n, s.flen.get = some n → n.toNat ≤ 262
  ackcnt : ∀ n, s.ackcnt.get = some n → n.toNat ≤ 6
  rxcnt : ∀ n, s.rxcnt.get = some n → n.toNat ≤ 262
  frame : s.frame.filled (s.flen.get.map BitVec.toNat)
  ackbuf : s.ackbuf.filled (s.ackcnt.get.map BitVec.toNat)
  rxbuf : s.rxbuf.filled (s.rxcnt.get.map BitVec.toNat)
  uid : s.uid.filled (s.uidlen.get.map BitVec.toNat)
  data : ∃ n, n ≤ 262 ∧ s.data.filled (some n)
  copied : s.req.dlen.toNat ≤ 262 → s.data.filled (some s.req.dlen.toNat)
  waitacc : s.waitacc ≤ 65535 + s.cfg.pollMs

theorem bufferInv_of_inv {s : State} (h : s.Inv) : s.BufferInv where
  params := h.params
  flen n hn := h.counts .frame n.toNat (by simp) (by simp [State.count, hn])
  ackcnt n hn := h.counts .ackbuf n.toNat (by simp) (by simp [State.count, hn])
  rxcnt n hn := h.counts .rxbuf n.toNat (by simp) (by simp [State.count, hn])
  frame := h.results .frame (by simp)
  ackbuf := h.results .ackbuf (by simp)
  rxbuf := h.results .rxbuf (by simp)
  uid := h.results .uid (by simp)
  data := h.dataPart
  copied := h.dataCopied
  waitacc := h.waitMax

/-- A legal block in `IDLE` has no event in progress: it starts none there (R145). -/
theorem inProgress_of_idle {s : State} (h : s.Inv) (hp : s.phase = .idle) : s.inProgress = none := by
  cases hi : s.inProgress with
  | none => rfl
  | some c =>
    have := h.callOfPhase c hi
    cases c <;> simp [Call.madeIn, Phase.isWait, hp] at this

theorem counts_of_bufferInv {s : State} (h : s.BufferInv) (b : Buffer) (n : Nat) (hb : b ≠ .data)
    (hc : s.count b = some n) : n ≤ b.capacity := by
  cases b <;> simp [State.count, Buffer.capacity] at hc hb ⊢
  · obtain ⟨m, hm, rfl⟩ := hc
    exact h.flen m hm
  · obtain ⟨m, hm, rfl⟩ := hc
    exact h.ackcnt m hm
  · obtain ⟨m, hm, rfl⟩ := hc
    exact h.rxcnt m hm
  · obtain ⟨m, hm, rfl⟩ := hc
    have := m.isLt
    omega

theorem results_of_bufferInv {s : State} (h : s.BufferInv) (b : Buffer) (hb : b ≠ .data) :
    (s.buffer b).filled (s.count b) := by
  cases b
  · exact absurd rfl hb
  · exact h.frame
  · exact h.ackbuf
  · exact h.rxbuf
  · exact h.uid

/-- A completion with an error of the phase it is raised in leads to a legal state (R15, R216). -/
theorem inv_complete {v : State} {code : ErrCode} {info : Half} (h : v.BufferInv) (hw : v.wsub = false)
    (hi : v.inProgress = none) (hc : code.raisedIn (if code = .ok then .idle else v.phase)) :
    (complete code info v).Inv := by
  have h' : (complete code info v).BufferInv :=
    ⟨h.params, h.flen, h.ackcnt, h.rxcnt, h.frame, h.ackbuf, h.rxbuf, h.uid, h.data, h.copied, h.waitacc⟩
  exact ⟨h.params, by simp, hc, by simp [complete], by simp, counts_of_bufferInv h',
    results_of_bufferInv h', h.data, h.copied, by simp, by simp, h.waitacc, by simp [hw], by simp, by simp,
    by simp, by simp, by simp, by simp, by simp [hi]⟩

/-- An acceptance keeps counts and buffers related: it empties what it invalidates (R40, R44). -/
theorem bufferInv_accepted {o : Byte} {r : Operands} {s : State} (hw : r.wellFormed) (h : s.BufferInv) :
    (accepted o r s).BufferInv := by
  have hinv : ∀ (op : Option Op) (u : State), u.BufferInv → (invalidate op u).BufferInv := by
    intro op u hu
    obtain ⟨a1, a2, a3, a4, a5, a6, a7, a8, a9, a10, a11⟩ := hu
    rcases op with _ | op
    · exact ⟨a1, a2, a3, a4, a5, a6, a7, a8, a9, a10, a11⟩
    · cases op <;> constructor <;> first
        | assumption
        | (intro n hn; cases hn)
        | exact Memory.filled_nil
  have hlen : (latch o r).dlen.toNat = r.data.length := toNat_dlen hw
  refine hinv _ _ ⟨h.params, h.flen, h.ackcnt, h.rxcnt, h.frame, h.ackbuf, h.rxbuf, h.uid, ?_, ?_,
    Nat.zero_le _⟩
  · simp only [dataMax]
    split
    · exact ⟨_, by assumption, Memory.filled_ofBytes _⟩
    · exact h.data
  · simp only [hlen, dataMax]
    intro hle
    rw [if_pos hle]
    exact Memory.filled_ofBytes _

/-- An acceptance makes every output of its operation unwritten (R40), and a completion with an error writes
none of them. -/
theorem outputsUnwritten_accepted (op : Op) (r : Operands) (s : State) :
    (accepted op.selector r s).outputsUnwritten op := by
  cases op <;> simp [State.outputsUnwritten, accepted, Op.selector, invalidate, State.count, State.buffer,
    Memory.read, Memory.unlisted]

theorem outputsUnwritten_raise {op : Op} {s : State} (h : s.outputsUnwritten op) (e : OpError) :
    (raise e s).outputsUnwritten op := by
  cases op <;> exact h

end Sys2Proof.Machine
end

