-- ==== Sys2Proof/Laws/PerInstr.lean ====
section
/-! SUPPORT. What holds of every instruction as syntax, one lemma per constructor. -/

namespace Sys2Proof.Laws.HeaderSelector

/-- The header of a request carries its operation's selector and its own fields, and that selector names its
operation again (R71, R72). -/
def Statement (i : Instr) : Prop :=
  Header.opsel i.header = i.op.selector ∧ Header.cardType i.header = i.operands.cardType ∧
    Header.timeout i.header = i.operands.timeout ∧ Header.rlen i.header = i.operands.rlen ∧
    Header.dlen i.header = i.operands.dlen ∧ Op.ofSelector (Header.opsel i.header) = some i.op

/-- The statement for any request. -/
theorem of_fields (i : Instr) : Statement i := by
  obtain ⟨h1, h2, h3, h4, h5⟩ := fields_assembleHeader i.op.selector i.operands.cardType i.operands.dlen
    i.operands.timeout i.operands.rlen
  exact ⟨h1, h2, h4, h5, h3, (congrArg Op.ofSelector h1).trans (ofSelector_selector i.op)⟩

theorem encode (r : Operands) : Statement (.encode r) := of_fields _
theorem validateAck (r : Operands) : Statement (.validateAck r) := of_fields _
theorem decodeHeader (r : Operands) : Statement (.decodeHeader r) := of_fields _
theorem exchange (r : Operands) : Statement (.exchange r) := of_fields _
theorem decodeFw (r : Operands) : Statement (.decodeFw r) := of_fields _
theorem decodeTarget (r : Operands) : Statement (.decodeTarget r) := of_fields _
theorem firmwareVersion (r : Operands) : Statement (.firmwareVersion r) := of_fields _
theorem listPassiveTarget (r : Operands) : Statement (.listPassiveTarget r) := of_fields _

end Sys2Proof.Laws.HeaderSelector
end

