-- ==== Sys2Proof/Laws/Run.lean ====
section
/-! SUPPORT. Runs of several steps, in the machine's own types. -/

namespace Sys2Proof.Machine

/-- `k` steps of the machine. -/
def run (k : Nat) (s : State) : Result State := core.run k s

theorem core_run (k : Nat) (s : State) : core.run k s = run k s := rfl

/-- The first step of a run of any core, by its outcome. -/
theorem run_succ_of_core (M : Host.Core) (k : Nat) (s : M.State) :
    (∀ t, M.step s = .next t → M.run (k + 1) s = M.run k t) ∧
      (∀ f, M.step s = .fault f → M.run (k + 1) s = .fault f) ∧
      (∀ r, M.step s = .refused r → M.run (k + 1) s = .refused r) := by
  refine ⟨fun t h => ?_, fun f h => ?_, fun r h => ?_⟩ <;> simp only [Host.Core.run, h]

@[simp] theorem run_zero (s : State) : run 0 s = .next s := rfl

theorem run_succ (k : Nat) (s : State) : run (k + 1) s = andThen (step s) (run k) := by
  obtain ⟨h1, h2, h3⟩ := run_succ_of_core core k s
  cases h : step s with
  | next t => exact h1 t h
  | fault f => exact h2 f h
  | refused r => exact h3 r h

/-- A run is a run of its parts. -/
theorem run_add (j k : Nat) (s : State) : run (j + k) s = andThen (run j s) (run k) := by
  induction j generalizing s with
  | zero =>
    rw [Nat.zero_add]
    rfl
  | succ j ih =>
    rw [show j + 1 + k = (j + k) + 1 by omega, run_succ, run_succ]
    cases step s with
    | next a => exact ih a
    | fault f => rfl
    | refused f => rfl

end Sys2Proof.Machine
end

