-- ==== Sys2Proof/Laws/Text.lean ====
section
/-! SUPPORT. The text of a line (R90): what cutting it into words and reading its numbers back give. -/

namespace Sys2Proof

/-- A word that the cutting of a line keeps whole. -/
def IsWord (w : List Char) : Prop :=
  w ≠ [] ∧ ∀ cur cs, splitWords false cur (w ++ cs) = splitWords false (w.reverse ++ cur) cs

/-- Characters outside brackets that are no space go to the current word. -/
theorem splitWords_plain {w : List Char} (h : ∀ c ∈ w, c ≠ ' ' ∧ c ≠ '[') (cur cs : List Char) :
    splitWords false cur (w ++ cs) = splitWords false (w.reverse ++ cur) cs := by
  induction w generalizing cur with
  | nil => rfl
  | cons c w ih =>
    obtain ⟨h1, h2⟩ := h c (by simp)
    rw [List.cons_append, splitWords]
    simp [h1, h2, ih fun d hd => h d (by simp [hd])]

/-- Inside brackets everything but their end goes to the current word. -/
theorem splitWords_brackets {w : List Char} (h : ']' ∉ w) (cur cs : List Char) :
    splitWords true cur (w ++ cs) = splitWords true (w.reverse ++ cur) cs := by
  induction w generalizing cur with
  | nil => rfl
  | cons c w ih =>
    simp only [List.mem_cons, not_or] at h
    rw [List.cons_append, splitWords]
    simp [Ne.symm h.1, ih h.2]

theorem isWord_plain {w : List Char} (hw : w ≠ []) (h : ∀ c ∈ w, c ≠ ' ' ∧ c ≠ '[') : IsWord w :=
  ⟨hw, splitWords_plain h⟩

theorem isWord_brackets {a w : List Char} (ha : ∀ c ∈ a, c ≠ ' ' ∧ c ≠ '[') (h : ']' ∉ w) :
    IsWord (a ++ '[' :: w ++ [']']) := by
  refine ⟨by simp, fun cur cs => ?_⟩
  rw [List.append_assoc, List.append_assoc, splitWords_plain ha, List.cons_append, splitWords]
  simp only [Bool.not_false, Bool.and_true, decide_eq_true_eq]
  rw [if_neg (by decide), if_pos trivial, splitWords_brackets h, List.singleton_append, splitWords]
  simp

/-- Words joined by spaces are cut into these words again. -/
theorem splitWords_intercalate {ws : List (List Char)} (h : ∀ w ∈ ws, IsWord w) :
    splitWords false [] ([' '].intercalate ws) = ws := by
  induction ws with
  | nil => rfl
  | cons w ws ih =>
    have hw := h w (by simp)
    have hr : w.reverse ≠ [] := by simpa using hw.1
    cases ws with
    | nil =>
      have := hw.2 [] []
      simp only [List.append_nil] at this
      simp [List.intercalate, List.intersperse, this, splitWords, hw.1]
    | cons v ws =>
      have e : [' '].intercalate (w :: v :: ws) = w ++ (' ' :: [' '].intercalate (v :: ws)) := by
        simp [List.intercalate, List.intersperse]
      rw [e, hw.2, splitWords, ih fun x hx => h x (by simp [hx])]
      simp [hw.1]

theorem stripStart_append (a w : List Char) : stripStart a (a ++ w) = some w := by
  induction a with
  | nil => rfl
  | cons c a ih => simp [stripStart, ih]

theorem digitValue_digitChar {d : Nat} (h : d < 10) : digitValue 10 (Nat.digitChar d) = some d := by
  revert h d
  decide

/-- A number is read digit by digit. -/
theorem numberFrom_append {base a b : Nat} {cs : List Char} (h : numberFrom base a cs = some b) (ds : List Char) :
    numberFrom base a (cs ++ ds) = numberFrom base b ds := by
  induction cs generalizing a with
  | nil => cases h; rfl
  | cons c cs ih =>
    simp only [List.cons_append, numberFrom] at h ⊢
    cases hd : digitValue base c with
    | none => simp [hd] at h
    | some d => simp only [hd, Option.bind_some] at h ⊢; exact ih h

/-- The decimal digits of a number read back as it. -/
theorem numberFrom_toDigits (n : Nat) : numberFrom 10 0 (Nat.toDigits 10 n) = some n := by
  induction n using Nat.strongRecOn with
  | _ n ih =>
    by_cases h : n < 10
    · rw [Nat.toDigits_of_lt_base h]
      simp [numberFrom, digitValue_digitChar h]
    · have hd := Nat.toDigits_append_toDigits (b := 10) (n := n / 10) (d := n % 10) (by omega) (by omega) (by omega)
      rw [show 10 * (n / 10) + n % 10 = n by omega] at hd
      rw [← hd, numberFrom_append (ih (n / 10) (by omega)), Nat.toDigits_of_lt_base (by omega)]
      simp [numberFrom, digitValue_digitChar (show n % 10 < 10 by omega)]
      omega

theorem fieldNumber_toDigits {w : Nat} (n : BitVec w) : fieldNumber 10 w (Nat.toDigits 10 n.toNat) = some n := by
  simp [fieldNumber, numberFrom_toDigits, n.isLt]

theorem fieldNumber_hexPair : ∀ b : Byte, fieldNumber 16 8 (hexPair b) = some b := by decide

theorem plain_digitChar {d : Nat} (h : d < 16) :
    Nat.digitChar d ≠ ' ' ∧ Nat.digitChar d ≠ '[' ∧ Nat.digitChar d ≠ ']' := by
  revert h d
  decide

theorem plain_hexPair (b : Byte) : ∀ c ∈ hexPair b, c ≠ ' ' ∧ c ≠ '[' ∧ c ≠ ']' := by
  have := b.isLt
  simp only [hexPair, List.mem_cons, List.not_mem_nil, or_false]
  rintro c (rfl | rfl) <;> exact plain_digitChar (by omega)

theorem isWord_hexPair (b : Byte) : IsWord (hexPair b) :=
  isWord_plain (by simp [hexPair]) fun c hc => ⟨(plain_hexPair b c hc).1, (plain_hexPair b c hc).2.1⟩

/-- Bytes written as two hexadecimal digits each read back. -/
theorem hexBytes_intercalate (d : List Byte) : hexBytes ([' '].intercalate (d.map hexPair)) = some d := by
  rw [hexBytes, splitWords_intercalate (by simpa using fun b _ => isWord_hexPair b)]
  induction d with
  | nil => rfl
  | cons b d ih =>
    rw [List.map_cons, List.mapM_cons, ih]
    simp [show (hexPair b).length = 2 from rfl, fieldNumber_hexPair]

theorem plain_toDigits (n : Nat) : ∀ c ∈ Nat.toDigits 10 n, c ≠ ' ' ∧ c ≠ '[' := by
  intro c hc
  have := Nat.isDigit_of_mem_toDigits (by decide) (by decide) hc
  constructor <;> rintro rfl <;> revert this <;> decide

end Sys2Proof
end

