-- ==== Sys2Proof/Tests/Slice0.lean ====
section
/-! SUPPORT. Tests of the model against the vectors of spec/95_test_vectors.md, and a witness for the
hypotheses of each obligation. The id of the vector a test is taken from stands before it. -/

namespace Sys2Proof.Machine.Tests

/-! ### Small states -/

/-- The operands of a request with data bytes only. -/
def bytes (data : List Byte) : Operands := { cardType := 0, timeout := 0, rlen := 0, data := data }

/-- A request of `n` data bytes. -/
def zeros (n : Nat) : Operands := bytes (List.replicate n 0)

theorem length_zeros (n : Nat) : (zeros n).data.length = n := List.length_replicate

/-- The state after reset, with a settle delay of 7 ms. -/
def rest : State := { State.reset with cfg := { Params.recommended with settleMs := 7 } }

/-- An EXCHANGE of `[02]` in the phase `p`, with a timeout and a response length. -/
def during (p : Phase) (timeout rlen : Half) : State :=
  { rest with
    phase := p
    req := { opsel := 0x10, cardType := 0, dlen := 1, timeout := timeout, rlen := rlen }
    status := { busy := true, done := false, errCode := .ok, errPhase := .idle }
    data := [(0, 0x02)]
    frame := Memory.ofBytes [0x00, 0x00, 0xFF, 0x02, 0xFE, 0xD4, 0x02, 0x2A, 0x00]
    flen := Register.of 9 }

/-- A state whose adapter is about to give these answers. -/
def answering (s : State) (ws : List WriteAnswer) (rs : List ReadAnswer) (ps : List ProbeAnswer) : State :=
  { s with adapter := { writes := ws, reads := rs, probes := ps, draws := 0 } }

/-- Whether an outcome is a next state of which `p` holds. -/
def isNext (o : Result State) (p : State → Bool) : Bool :=
  match o with
  | .next t => p t
  | _ => false

theorem exists_next {o : Result State} (h : isNext o (fun _ => true) = true) : ∃ t, o = .next t := by
  cases o with
  | next t => exact ⟨t, rfl⟩
  | fault f => cases h
  | refused r => cases h

theorem exists_next_with {o : Result State} {p : State → Bool} (h : isNext o p = true) :
    ∃ t, o = .next t ∧ p t = true := by
  cases o with
  | next t => exact ⟨t, rfl, h⟩
  | fault f => cases h
  | refused r => cases h

/-- The payload of V-FW-2 and the response of P1. -/
def fwResponse : List Byte :=
  [0x00, 0x00, 0xFF, 0x06, 0xFA, 0xD5, 0x03, 0x32, 0x01, 0x06, 0x07, 0xE8, 0x00]

/-- The response of V-TG-1 (19 bytes). -/
def targetResponse : List Byte :=
  [0x00, 0x00, 0xFF, 0x0C, 0xF4, 0xD5, 0x4B, 0x01, 0x01, 0x00, 0x04, 0x08, 0x04, 0xDE, 0xAD, 0xBE, 0xEF,
    0x96, 0x00]

/-- The ack pattern (R83). -/
def ackBytes : List Byte := [0x00, 0x00, 0xFF, 0x00, 0xFF, 0x00]

/-! ### WellFormed and Decode -/

/-- R71: `DLEN` is 16 bits wide, so 65536 data bytes are no request. -/
theorem test_wellFormed_refuses_65536_bytes :
    ¬ (Instr.encode (zeros 65536)).wellFormed := by
  show ¬ (zeros 65536).data.length < 65536
  rw [length_zeros]
  exact Nat.lt_irrefl _

theorem test_wellFormed_accepts_65535_bytes :
    (Instr.encode (zeros 65535)).wellFormed := by
  show (zeros 65535).data.length < 65536
  rw [length_zeros]
  exact Nat.lt_succ_self _

/-- V-ENC-3: `OPSEL = 01`, `DLEN = 3`. -/
theorem test_decode_encode :
    decode 0x0000000000030001 [0x4A, 0x01, 0x00] = .instr (.encode ⟨0, 0, 0, [0x4A, 0x01, 0x00]⟩) := by decide

/-- P5 request 2: `OPSEL = 02`, `DLEN = 6`. -/
theorem test_decode_validateAck :
    decode 0x0000000000060002 ackBytes = .instr (.validateAck ⟨0, 0, 0, ackBytes⟩) := by decide

/-- P5 request 3: `OPSEL = 03`, `DLEN = 3`. -/
theorem test_decode_decodeHeader :
    decode 0x0000000000030003 [0x00, 0x00, 0xFF] = .instr (.decodeHeader ⟨0, 0, 0, [0x00, 0x00, 0xFF]⟩) := by
  decide

/-- P3: `OPSEL = 10`, `DLEN = 1`, `TIMEOUT = 50`, `RLEN = 13`. -/
theorem test_decode_exchange :
    decode 0x000D003200010010 [0x02] = .instr (.exchange ⟨0, 50, 13, [0x02]⟩) := by decide

/-- V-FW-2: `OPSEL = 20`, `DLEN = 13`. -/
theorem test_decode_decodeFw :
    decode 0x00000000000D0020 fwResponse = .instr (.decodeFw ⟨0, 0, 0, fwResponse⟩) := by decide

/-- V-TG-1: `OPSEL = 21`, `DLEN = 19`. -/
theorem test_decode_decodeTarget :
    decode 0x0000000000130021 targetResponse = .instr (.decodeTarget ⟨0, 0, 0, targetResponse⟩) := by decide

/-- P1: `OPSEL = 30`, `TIMEOUT = 100`. -/
theorem test_decode_firmwareVersion :
    decode 0x0000006400000030 [] = .instr (.firmwareVersion ⟨0, 100, 0, []⟩) := by decide

/-- R71: `OPSEL = 31`, `CARDTYPE = 02`, `TIMEOUT = 258`. -/
theorem test_decode_listPassiveTarget :
    decode 0x0000010200000231 [] = .instr (.listPassiveTarget ⟨2, 258, 0, []⟩) := by decide

/-- V-OP-8 and V-OP-2: reserved selectors are refused, by name. -/
theorem test_decode_reserved :
    decode 0x0000000000000004 [] = .rejected (.reservedSelector 0x04) ∧
      decode 0x00000000000000FF [] = .rejected (.reservedSelector 0xFF) := by decide

/-- R70: a descriptor has `DLEN` data bytes. -/
theorem test_decode_dataCount : decode 0x0000000000010001 [] = .rejected .dataCount := by decide

/-- R90: the encoder writes the header of P3's request. -/
theorem test_encode_exchange : encode (.exchange ⟨0, 50, 13, [0x02]⟩) = (0x000D003200010010, [0x02]) := by
  decide

/-- The numbering of the opcode table: the header in bits 63..0, a data byte above it. -/
theorem test_decodeTableWord :
    decodeTableWord 64 0x30 = some (.firmwareVersion ⟨0, 0, 0, []⟩) ∧
      decodeTableWord 72 0x020000000000010001 = some (.encode ⟨0, 0, 0, [0x02]⟩) ∧
      decodeTableWord 64 0x04 = none := by decide

/-! ### The textual syntax (R90) -/

/-- P3's request as text. -/
theorem test_assemble_exchange :
    (parseLine "EXCHANGE data=[02] timeout=50 rlen=13".toList).map AsmLine.assemble =
      some (0x000D003200010010, [0x02]) := by decide

/-- P2's request as text, with a card type, and omitted fields 0. -/
theorem test_assemble_listPassiveTarget :
    (parseLine "LIST_PASSIVE_TARGET cardtype=0x02 timeout=0".toList).map AsmLine.assemble =
      some (0x0000000000000231, []) := by decide

/-- P5's first request as text; an unknown mnemonic is no line. -/
theorem test_assemble_encode :
    (parseLine "ENCODE data=[4A 01 00]".toList).map AsmLine.assemble =
        some (0x0000000000030001, [0x4A, 0x01, 0x00]) ∧
      parseLine "NOP".toList = none := by decide

/-- The third example of R90, as the text of its fields. -/
theorem test_text_exchange :
    AsmLine.text { op := .exchange, data := some [0x02], timeout := some 100, rlen := some 13 } =
      "EXCHANGE data=[02] timeout=100 rlen=13".toList := by decide

/-! ### One step of each request -/

/-- V-ENC-7: the checksum wraps. -/
theorem test_encode_frame :
    isNext (exec (.encode (bytes [0xFF])) rest) (fun t =>
      t.frame == Memory.ofBytes [0x00, 0x00, 0xFF, 0x02, 0xFE, 0xD4, 0xFF, 0x2D, 0x00] &&
        t.flen.get == some 9 && t.status.word == 0x00000002 && t.errinfo == 0) = true := by decide

/-- V-ENC-15, with smaller numbers: the limit is `P_MAX_PAYLOAD`, and nothing is sent. -/
theorem test_encode_too_long :
    isNext (exec (.encode (bytes [1, 2, 3])) { rest with cfg := { rest.cfg with maxPayload := 2 } }) (fun t =>
      t.flen.get == none && t.errinfo == 3 && t.status.word == 0x00000306 && t.trace == []) = true := by decide

/-- V-ACK-1. -/
theorem test_validateAck_pattern :
    isNext (exec (.validateAck (bytes ackBytes)) rest) (fun t =>
      t.ackok.get == some 1 && t.status.word == 0x00000002) = true := by decide

/-- V-ACK-8: seven bytes that begin with the pattern are no ack. -/
theorem test_validateAck_longer :
    isNext (exec (.validateAck (bytes (ackBytes ++ [0x00]))) rest) (fun t =>
      t.ackok.get == some 0 && t.status.word == 0x00000002) = true := by decide

/-- V-HDR-3. -/
theorem test_decodeHeader_fields :
    isNext (exec (.decodeHeader (bytes [0x11, 0x22, 0x33, 0x44, 0x55, 0x66])) rest) (fun t =>
      t.hdr.get == some 0x665544) = true := by decide

/-- V-HDR-5. -/
theorem test_decodeHeader_truncated :
    isNext (exec (.decodeHeader (bytes [0x00, 0x00, 0xFF, 0x06, 0xFA])) rest) (fun t =>
      t.hdr.get == none && t.errinfo == 6 && t.status.word == 0x00000906) = true := by decide

/-- V-FW-1. -/
theorem test_decodeFw_fields :
    isNext (exec (.decodeFw (bytes [0x00, 0x00, 0xFF, 0x06, 0xFA, 0xD5, 0x00, 0x32, 0x01, 0x06, 0x07, 0x00,
        0x00])) rest) (fun t => t.fwinfo.get == some 0x32010607 && t.status.word == 0x00000002) = true := by
  decide

/-- V-FW-6. -/
theorem test_decodeFw_unexpected :
    isNext (exec (.decodeFw (bytes [0x00, 0x00, 0xFF, 0x06, 0xFA, 0xD4, 0x03, 0x32, 0x01, 0x06, 0x07, 0xE8,
        0x00])) rest) (fun t =>
      t.fwinfo.get == none && t.errinfo == 0xD405 && t.status.word == 0x00000A06) = true := by decide

/-- V-TG-1. -/
theorem test_decodeTarget_uid :
    isNext (exec (.decodeTarget (bytes targetResponse)) rest) (fun t =>
      t.uidlen.get == some 4 && t.uid == Memory.ofBytes [0xDE, 0xAD, 0xBE, 0xEF]) = true := by decide

/-- V-TG-8: the length needed is reported. -/
theorem test_decodeTarget_truncated :
    isNext (exec (.decodeTarget (bytes (targetResponse.take 15))) rest) (fun t =>
      t.uidlen.get == none && t.errinfo == 17 && t.status.word == 0x00000906) = true := by decide

/-- V-OP-7 in its fields: `RLEN` is ignored; the frame is P1's. -/
theorem test_firmwareVersion_accepted :
    isNext (exec (.firmwareVersion ⟨0, 100, 7, [1, 2]⟩) rest) (fun t =>
      t.phase == .send && t.status.word == 0x00000001 &&
        t.frame == Memory.ofBytes [0x00, 0x00, 0xFF, 0x02, 0xFE, 0xD4, 0x02, 0x2A, 0x00]) = true := by decide

/-- V-ENC-4: the frame of `CARDTYPE = 02`. -/
theorem test_listPassiveTarget_accepted :
    isNext (exec (.listPassiveTarget ⟨2, 0, 0, []⟩) rest) (fun t =>
      t.phase == .send && t.flen.get == some 11 &&
        t.frame == Memory.ofBytes [0x00, 0x00, 0xFF, 0x04, 0xFC, 0xD4, 0x4A, 0x01, 0x02, 0xDF, 0x00]) = true := by
  decide

/-- V-OP-5. -/
theorem test_exchange_rlen :
    isNext (exec (.exchange ⟨0, 0, 263, [0x02]⟩) rest) (fun t =>
      t.errinfo == 263 && t.status.word == 0x00000206 && t.trace == []) = true := by decide

/-- V-EX-1, acceptance. -/
theorem test_exchange_accepted :
    isNext (exec (.exchange ⟨0, 100, 13, [0x02]⟩) rest) (fun t =>
      t == { during .send 100 13 with status := t.status } && t.status.word == 0x00000001) = true := by decide

/-! ### One step of a phase -/

/-- V-EX-9. -/
theorem test_send_fails :
    isNext (step (answering (during .send 20 13) [.fail] [] [])) (fun t =>
      t.status.word == 0x00001406 && t.errinfo == 0 && t.trace.length == 1) = true := by decide

/-- V-EX-6: `10 > 9` on the first probe. -/
theorem test_wait1_times_out :
    isNext (step (answering (during .wait1 9 13) [] [] [.status 0x00])) (fun t =>
      t.status.word == 0x00002506 && t.trace == [.probe 0x00]) = true := by decide

/-- V-EX-2: the third not-ready probe with a timeout of 30 goes on, since `30 > 30` is false. -/
theorem test_wait1_strict :
    isNext (step (answering { during .wait1 30 0 with waitacc := 20 } [] [] [.status 0x00])) (fun t =>
      t.phase == .wait1 && t.waitacc == 30 && t.wsub) = true := by decide

/-- V-EX-12: the negative acknowledge differs at offset 3. -/
theorem test_ackRead_mismatch :
    isNext (step (answering (during .ackRead 20 13) [] [.ok [0x00, 0x00, 0xFF, 0xFF, 0x00, 0x00]] []))
      (fun t => t.status.word == 0x00004606 && t.errinfo == 0x0103 && t.ackcnt.get == some 6) = true := by decide

/-- V-EX-13: of nine bytes the first six are kept. -/
theorem test_ackRead_extra :
    isNext (step (answering (during .ackRead 20 13) [] [.ok (ackBytes ++ [0x00, 0x00, 0xFF])] []))
      (fun t => t.phase == .settle2 && t.ackbuf == Memory.ofBytes ackBytes) = true := by decide

/-- V-EX-15: a short response is no error of the exchange. -/
theorem test_respRead_short :
    isNext (step (answering (during .respRead 20 13) [] [.ok (fwResponse.take 8)] []))
      (fun t => t.status.word == 0x00000002 && t.rxcnt.get == some 8) = true := by decide

/-- A composite in `PARSE` with a response read. -/
def parsing (opsel : Byte) (response : List Byte) : State :=
  { during .parse 0 0 with
    req := { opsel := opsel, cardType := 0, dlen := 1, timeout := 0, rlen := 0 }
    ackbuf := Memory.ofBytes ackBytes
    ackcnt := Register.of 6
    rxbuf := Memory.ofBytes response
    rxcnt := Register.of (BitVec.ofNat 9 response.length) }

/-- P1, its last step. -/
theorem test_parse_fw :
    isNext (step (parsing 0x30 fwResponse)) (fun t =>
      t.fwinfo.get == some 0x32010607 && t.status.word == 0x00000002 && t.phase == .idle) = true := by decide

/-- P2, its last step: 20 bytes read. -/
theorem test_parse_target :
    isNext (step (parsing 0x31 (targetResponse ++ [0x00]))) (fun t =>
      t.uidlen.get == some 4 && t.uid == Memory.ofBytes [0xDE, 0xAD, 0xBE, 0xEF]) = true := by decide

/-- R251, R40: the host port's faults. -/
theorem test_host_faults :
    step { during .send 0 0 with host := [.read .flen] } = .fault (.resultWhileBusy .flen) ∧
      step { rest with host := [.read .hdr] } = .fault (.unwrittenResult .hdr) := ⟨rfl, rfl⟩

/-- R241: reset in the middle of an exchange. -/
theorem test_reset_mid_exchange :
    isNext (step { during .wait1 20 13 with host := [.reset] }) (fun t =>
      t.phase == .idle && t.status.word == 0 && t.flen.get == none && t.frame == []) = true := by decide

/-- R59, I14: a write that is never answered stays in progress, with `BUSY = 1` and nothing completed. -/
theorem test_send_never :
    isNext (step (answering (during .send 20 13) [.never] [] [])) (fun t =>
      t.phase == .send && t.status.word == 0x00000001 && t.trace.length == 1 && t.inProgress.isSome) = true := by
  decide

/-- R215, R241: reset ends an event in progress, and a request runs at once after it. -/
theorem test_reset_while_stuck :
    isNext (andThen (step { during .wait1 20 13 with host := [.reset], inProgress := some .probe })
        fun t => exec (.firmwareVersion ⟨0, 100, 0, []⟩) t) (fun t =>
      t.phase == .send && t.inProgress == none && t.status.word == 0x00000001) = true := by decide

/-! ### Witnesses: states and operands that meet the hypotheses of each obligation together -/

theorem legal_rest : rest.Inv := by
  refine ⟨by decide, by simp [rest, State.reset], rfl, by simp [rest, State.reset], fun _ => rfl, ?_, ?_,
    ⟨0, by omega, rfl⟩, fun _ => rfl, fun h => absurd rfl h, ?_, Nat.zero_le _, ?_, ?_, fun h => absurd rfl h,
    fun h => absurd rfl h, fun h => absurd rfl h, ?_, ?_, fun _ h => (by cases h)⟩
  · intro b n hb hc
    cases b <;> simp [rest, State.reset, State.count] at hc hb
  · intro b hb
    cases b <;> rfl
  all_goals simp [rest, State.reset]

/-- An exchange before its ack read is a legal state. -/
theorem legal_during {p : Phase} (hp : p.beforeAck) (t r : Half) (hr : r.toNat ≤ 262) :
    (during p t r).Inv := by
  have hne : p ≠ .idle := by rcases hp with h | h | h | h <;> simp [h]
  have hnr : p ≠ .respRead := by rcases hp with h | h | h | h <;> simp [h]
  have hnp : p ≠ .parse := by rcases hp with h | h | h | h <;> simp [h]
  have hf : (during p t r).frame.filled (some 9) := by
    show Memory.filled (Memory.ofBytes _) _
    exact Memory.filled_ofBytes [0x00, 0x00, 0xFF, 0x02, 0xFE, 0xD4, 0x02, 0x2A, 0x00]
  refine ⟨legal_rest.params, ?_, rfl, ⟨fun _ => hne, fun _ => rfl⟩, fun h => (by cases h), ?_, ?_,
    ⟨1, by omega, rfl⟩, fun _ => rfl, fun _ => ⟨by simp [during], r.toNat, rfl, hr⟩, fun _ => Nat.zero_le _,
    Nat.zero_le _, fun h => (by cases h), fun _ => rfl, fun _ _ => rfl, fun _ _ => rfl, fun _ _ => rfl,
    fun h => absurd h hnr, fun h => absurd h hnp, fun _ h => (by cases h)⟩
  · intro n
    show p ≠ _
    rcases hp with h | h | h | h <;> simp [h]
  · intro b n hb hc
    cases b <;> simp [during, rest, State.reset, State.count] at hc hb
    subst hc
    decide
  · intro b hb
    cases b
    · exact absurd rfl hb
    · exact hf
    · rfl
    · rfl
    · rfl

/-- What the adapter and the host are about to do is no part of a legal state. -/
theorem legal_with {s : State} (h : s.Inv) (a : Adapter) (l : List HostAction) :
    ({ s with adapter := a, host := l } : State).Inv := by
  obtain ⟨a1, a2, a3, a4, a5, a6, a7, a8, a9, a10, a11, a12, a13, a14, a15, a16, a17, a18, a19, a20⟩ := h
  exact ⟨a1, a2, a3, a4, a5, a6, a7, a8, a9, a10, a11, a12, a13, a14, a15, a16, a17, a18, a19, a20⟩

theorem legal_answering {s : State} (h : s.Inv) (ws : List WriteAnswer) (rs : List ReadAnswer)
    (ps : List ProbeAnswer) : (answering s ws rs ps).Inv :=
  legal_with h _ s.host

/-- A wait whose probe is never answered is a legal state. -/
theorem legal_stuck : ({ during .wait1 20 13 with inProgress := some .probe } : State).Inv := by
  obtain ⟨a1, a2, a3, a4, a5, a6, a7, a8, a9, a10, a11, a12, a13, a14, a15, a16, a17, a18, a19, _⟩ :=
    legal_during (p := .wait1) (.inr (.inl rfl)) 20 13 (by decide)
  refine ⟨a1, a2, a3, a4, a5, a6, a7, a8, a9, a10, a11, a12, a13, a14, a15, a16, a17, a18, a19, ?_⟩
  intro c hc
  cases hc
  exact .inl rfl

theorem witness_ResetLeavesSpecValues : HostReg.hdr.isResult = true ∧ (HostReg.frame 0).isResult = true ∧
    ∃ e u : State, u = { State.withUnread e State.reset with req := ⟨0x10, 0, 0, 0, 0⟩ } ∧ u.hdr.value = 2 ∧
      u.laststat = 1 :=
  ⟨rfl, rfl, { State.reset with laststat := 1, hdr := Register.of 2 }, _, rfl, rfl, rfl⟩

/-- A reset while a probe is in progress. -/
theorem witness_ResetAtAnyTime : ∃ (s : State) (l : List HostAction),
    s.host = .reset :: l ∧ s.phase = .wait1 ∧ s.inProgress = some .probe :=
  ⟨{ during .wait1 20 13 with host := [.reset], inProgress := some .probe }, [], rfl, rfl, rfl⟩

theorem witness_RequestWhileBusyRefused : ∃ (s : State) (h : Header) (data : List Byte) (l : List HostAction),
    s.host = .request h data :: l ∧ s.status.busy = true :=
  ⟨{ during .send 20 13 with host := [.request 0x01 []] }, 0x01, [], [], rfl, rfl⟩

/-- The reserved selectors beside the used ones. -/
theorem witness_ReservedSelectorIsBadOp : ∀ h ∈ [0x00#64, 0x04#64, 0x0F#64, 0x11#64, 0x22#64, 0x32#64, 0xFF#64],
    ∃ (s : State) (data : List Byte) (l : List HostAction), s.host = .request h data :: l ∧
      s.status.busy = false ∧ data.length = (h.extractLsb' 16 16).toNat ∧
      h.extractLsb' 0 8 ∉ [0x01#8, 0x02#8, 0x03#8, 0x10#8, 0x20#8, 0x21#8, 0x30#8, 0x31#8] := by
  intro h hh
  refine ⟨{ rest with host := [.request h []] }, [], [], rfl, rfl, ?_⟩
  simp only [List.mem_cons, List.not_mem_nil, or_false] at hh
  rcases hh with rfl | rfl | rfl | rfl | rfl | rfl | rfl <;> decide

/-- Each clause: a result while busy, an unwritten result, `STATUS` and `ERRINFO` while busy. -/
theorem witness_HostReadsRegisters : ∃ s₁ s₂ s₃ s₄ : State,
    (s₁.host = [.read .flen] ∧ HostReg.flen.isResult = true ∧ s₁.status.busy = true) ∧
    (s₂.host = [.read .ackok] ∧ s₂.status.busy = false ∧ s₂.ackok.get = none) ∧
    (s₃.host = [.read .status] ∧ s₃.status.busy = true ∧ ∀ n, s₃.status.errCode ≠ .reserved n) ∧
    s₄.host = [.read .errinfo] :=
  ⟨{ during .send 0 0 with host := [.read .flen] }, { rest with host := [.read .ackok] },
    { during .send 0 0 with host := [.read .status] }, { rest with host := [.read .errinfo] },
    ⟨rfl, rfl, rfl⟩, ⟨rfl, rfl, rfl⟩, ⟨rfl, rfl, by simp [during]⟩, rfl⟩

/-- A state between two operations that holds the frame of the last one. -/
def framedRest : State := { during .idle 0 0 with status := rest.status }

/-- Each clause: busy, unwritten, the index at the count, the last index below it. -/
theorem witness_HostReadsBufferBytes : ∃ s₁ s₂ s₃ s₄ : State,
    (s₁.host = [.read (.frame 0)] ∧ s₁.status.busy = true) ∧
    (s₂.host = [.read (.uid 0)] ∧ s₂.status.busy = false ∧ s₂.count .uid = none) ∧
    (s₃.host = [.read (.frame 9)] ∧ s₃.status.busy = false ∧ s₃.count .frame = some 9) ∧
    (s₄.host = [.read (.frame 8)] ∧ s₄.status.busy = false ∧ s₄.count .frame = some 9 ∧
      (s₄.buffer .frame).read 8 = some 0x00) :=
  ⟨{ during .send 0 0 with host := [.read (.frame 0)] }, { rest with host := [.read (.uid 0)] },
    { framedRest with host := [.read (.frame 9)] }, { framedRest with host := [.read (.frame 8)] },
    ⟨rfl, rfl⟩, ⟨rfl, rfl, rfl⟩, ⟨rfl, rfl, rfl⟩, ⟨rfl, rfl, rfl, rfl⟩⟩

theorem witness_StepRunsDecodedRequest : ∃ (s : State) (h : Header) (data : List Byte) (l : List HostAction)
    (i : Instr), s.host = .request h data :: l ∧ decode h data = .instr i :=
  ⟨{ rest with host := [.request 0x30 []] }, 0x30, [], [], .firmwareVersion ⟨0, 0, 0, []⟩, rfl, by decide⟩

theorem witness_FetchWordRunsNext : ∃ (nbits w : Nat) (i : Instr), decodeTableWord nbits w = some i :=
  ⟨64, 0x31, .listPassiveTarget ⟨0, 0, 0, []⟩, by decide⟩

/-- The longest data a request can have. -/
theorem witness_DecodeOfEncode : ∃ r : Operands, (Instr.encode r).wellFormed ∧ r.data.length = 65535 :=
  ⟨zeros 65535, test_wellFormed_accepts_65535_bytes, length_zeros 65535⟩

theorem witness_EncodeOfDecode : ∃ (h : Header) (data : List Byte) (i : Instr), decode h data = .instr i :=
  ⟨0x000D003200010010, [0x02], _, test_decode_exchange⟩

theorem witness_AssembledLineDecodes : ∃ l : AsmLine, (l.data.getD []).length < 65536 ∧ l.data = none :=
  ⟨{ op := .firmwareVersion }, by decide, rfl⟩

/-- The longest payload of a command frame. -/
theorem witness_FrameLayout : ∃ pd : List Byte, pd.length ≤ 254 ∧ pd.length = 254 :=
  ⟨(zeros 254).data, (length_zeros 254).le, length_zeros 254⟩

theorem witness_ChecksumLaws : ∃ pd : List Byte, pd.length ≤ 254 ∧ pd = [] := ⟨[], by simp, rfl⟩

/-- A mutation of the first and of the last byte. -/
theorem witness_AckTestIsExact : ∀ i ∈ [0, 5], ∃ v : Byte, i < 6 ∧
    [0x00#8, 0x00#8, 0xFF#8, 0x00#8, 0xFF#8, 0x00#8][i]? ≠ some v := by
  intro i hi
  refine ⟨0x01, ?_⟩
  revert hi
  revert i
  decide

/-- The longest payload within the recommended limit. -/
theorem witness_EncodeBuildsFrame : ∃ (r : Operands) (s : State), s.cfg.wf ∧ s.status.busy = false ∧
    r.data.length ≤ s.cfg.maxPayload ∧ r.data.length = 254 :=
  ⟨zeros 254, rest, legal_rest.params, rfl, (length_zeros 254).le, length_zeros 254⟩

theorem witness_ValidateAckComparesPattern : ∃ (r : Operands) (s : State), s.status.busy = false ∧
    r.data.length ≤ 262 ∧ r.data.length = 262 :=
  ⟨zeros 262, rest, rfl, (length_zeros 262).le, length_zeros 262⟩

/-- Six bytes, and five. -/
theorem witness_DecodeHeaderPacksFields : ∃ (r q : Operands) (s : State), s.status.busy = false ∧
    (r.data.length ≤ 262 ∧ ∃ b0 b1 b2 len lcs tfi, r.data = b0 :: b1 :: b2 :: len :: lcs :: tfi :: []) ∧
    q.data.length < 6 ∧ q.data.length = 5 :=
  ⟨bytes [1, 2, 3, 4, 5, 6], bytes [1, 2, 3, 4, 5], rest, rfl,
    ⟨by decide, 1, 2, 3, 4, 5, 6, rfl⟩, by decide, rfl⟩

/-- V-FW-3: eleven bytes. -/
theorem witness_DecodeFwExtractsFields : ∃ (r : Operands) (s : State) (code ic ver rev sup : Byte),
    s.status.busy = false ∧ r.data.length ≤ 262 ∧
    r.data = [0x00, 0x00, 0xFF, 0x06, 0xFA, 0xD5, code, ic, ver, rev, sup] ++ [] :=
  ⟨bytes (fwResponse.take 11), rest, 0x03, 0x32, 0x01, 0x06, 0x07, rfl, by decide, rfl⟩

/-- Ten bytes; a differing first byte and a differing sixth byte of eleven. -/
theorem witness_DecodeFwReportsErrors : ∃ (q : Operands) (s : State),
    s.status.busy = false ∧ (q.data.length < 11 ∧ q.data.length = 10) ∧
    ∀ i ∈ [0, 5], ∃ (r : Operands) (b : Byte), r.data.length ≤ 262 ∧ 11 ≤ r.data.length ∧ i < 6 ∧
      r.data[i]? = some b ∧
      r.data.take i = [0x00#8, 0x00#8, 0xFF#8, 0x06#8, 0xFA#8, 0xD5#8].take i ∧
      [0x00#8, 0x00#8, 0xFF#8, 0x06#8, 0xFA#8, 0xD5#8][i]? ≠ some b := by
  refine ⟨bytes (fwResponse.take 10), rest, rfl, by decide, ?_⟩
  intro i hi
  refine ⟨bytes ((fwResponse.take 11).set i 0x77), 0x77, ?_⟩
  revert hi
  revert i
  decide

/-- V-TG-10: `L = 0` in thirteen bytes. -/
theorem witness_DecodeTargetReturnsUid : ∃ (r : Operands) (s : State) (l : Byte), s.status.busy = false ∧
    r.data.length ≤ 262 ∧ r.data[7]? = some 0x01 ∧ r.data[s.cfg.uidLenOff]? = some l ∧
    s.cfg.uidLenOff + 1 + l.toNat ≤ r.data.length ∧ r.data.length = 13 :=
  ⟨bytes [0x00, 0x00, 0xFF, 0x08, 0xF8, 0xD5, 0x4B, 0x01, 0x01, 0x00, 0x04, 0x08, 0x00], rest, 0, by decide⟩

/-- Each clause: V-TG-5, V-TG-7, twelve bytes, and one UID byte missing. -/
theorem witness_DecodeTargetReportsErrors : ∃ (r₁ r₂ r₃ r₄ : Operands) (s : State), s.status.busy = false ∧
    (r₁.data.length < 8 ∧ r₁.data.length = 7) ∧
    (r₂.data.length ≤ 262 ∧ ∃ c, r₂.data[7]? = some c ∧ c ≠ 0x01) ∧
    (r₃.data[7]? = some 0x01 ∧ r₃.data.length ≤ s.cfg.uidLenOff ∧ r₃.data.length = s.cfg.uidLenOff) ∧
    (∃ l, r₄.data[7]? = some 0x01 ∧ r₄.data[s.cfg.uidLenOff]? = some l ∧
      r₄.data.length < s.cfg.uidLenOff + 1 + l.toNat ∧ r₄.data.length + 1 = s.cfg.uidLenOff + 1 + l.toNat) :=
  ⟨bytes (targetResponse.take 7), bytes [0x00, 0x00, 0xFF, 0x0C, 0xF4, 0xD5, 0x4B, 0x00],
    bytes (targetResponse.take 12), bytes (targetResponse.take 16), rest, rfl, by decide,
    ⟨by decide, 0, rfl, by decide⟩, by decide, 4, by decide⟩

/-- The first value above each limit. -/
theorem witness_OperandChecksInOrder : ∃ (r₁ r₂ r₃ : Operands) (s : State), s.status.busy = false ∧
    (r₁.wellFormed ∧ s.cfg.maxPayload < r₁.data.length ∧ r₁.data.length = 255) ∧
    (r₂.wellFormed ∧ 262 < r₂.data.length ∧ r₂.data.length = 263) ∧
    (r₃.wellFormed ∧ r₃.data.length ≤ s.cfg.maxPayload ∧ 262 < r₃.rlen.toNat ∧ r₃.rlen = 263) :=
  ⟨zeros 255, zeros 263, ⟨0, 0, 263, [0x02]⟩, rest, rfl,
    ⟨(length_zeros 255).trans_lt (by decide), (show 254 < 255 by decide).trans_eq (length_zeros 255).symm,
      length_zeros 255⟩,
    ⟨(length_zeros 263).trans_lt (by decide), (show 262 < 263 by decide).trans_eq (length_zeros 263).symm,
      length_zeros 263⟩, by decide⟩

theorem witness_CodecDependsOnRequestOnly : ∃ (r : Operands) (s₁ s₂ : State), s₁.cfg = s₂.cfg ∧
    s₂.status.busy = false ∧ r.data.length ≤ 262 ∧ s₁ ≠ s₂ ∧ (∃ t, exec (.encode r) s₁ = .next t) ∧
    (∃ t, exec (.validateAck r) s₁ = .next t) ∧ (∃ t, exec (.decodeHeader r) s₁ = .next t) :=
  ⟨bytes ackBytes, rest, { rest with wsub := true }, rfl, rfl, by decide,
    fun h => absurd (congrArg State.wsub h) (by decide), exists_next (by decide), exists_next (by decide),
    exists_next (by decide)⟩

theorem witness_CodecFrame : ∃ r : Operands, r.wellFormed ∧
    ∀ i ∈ [Instr.encode r, .validateAck r, .decodeHeader r], ∃ t, exec i rest = .next t := by
  refine ⟨bytes ackBytes, by decide, fun i hi => exists_next ?_⟩
  simp only [List.mem_cons, List.not_mem_nil, or_false] at hi
  rcases hi with rfl | rfl | rfl <;> decide

theorem witness_ResponseDecodeFrame : ∃ r : Operands, r.wellFormed ∧
    ∀ i ∈ [Instr.decodeFw r, .decodeTarget r], ∃ t, exec i rest = .next t := by
  refine ⟨bytes targetResponse, by decide, fun i hi => exists_next ?_⟩
  simp only [List.mem_cons, List.not_mem_nil, or_false] at hi
  rcases hi with rfl | rfl <;> decide

/-- The longest response an EXCHANGE may ask for. -/
theorem witness_ExchangeEntersSend : ∃ (r : Operands) (s : State), s.cfg.wf ∧ s.status.busy = false ∧
    r.data.length ≤ s.cfg.maxPayload ∧ r.rlen.toNat ≤ 262 ∧ r.rlen = 262 :=
  ⟨⟨0, 20, 262, [0x02]⟩, rest, legal_rest.params, rfl, by decide, by decide, rfl⟩

theorem witness_FirmwareVersionEntersSend : ∃ s : State, s.status.busy = false := ⟨rest, rfl⟩

theorem witness_ListPassiveTargetEntersSend : ∃ s : State, s.status.busy = false := ⟨framedRest, rfl⟩

theorem witness_ExchangeAcceptanceFrame : ∃ r : Operands, r.wellFormed ∧
    ∀ p ∈ [(Instr.exchange r, r.data), (.firmwareVersion r, [0x02]),
      (.listPassiveTarget r, [0x4A, 0x01, r.cardType])], ∃ t, exec p.1 rest = .next t := by
  refine ⟨⟨2, 20, 13, [0x02]⟩, by decide, fun p hp => exists_next ?_⟩
  simp only [List.mem_cons, List.not_mem_nil, or_false] at hp
  rcases hp with rfl | rfl | rfl <;> decide

theorem witness_SendPhase : ∀ a ∈ [WriteAnswer.ok, .fail, .never], ∃ (s : State) (w : List Byte) (n : BitVec 9),
    s.host = [] ∧ s.inProgress = none ∧ s.phase = .send ∧ s.flen = Register.of n ∧ n.toNat = w.length ∧
    s.frame.readBytes 0 w.length = some w ∧ s.adapter.drawWrite.1 = a :=
  fun a _ => ⟨answering (during .send 20 13) [a] [] [],
    [0x00, 0x00, 0xFF, 0x02, 0xFE, 0xD4, 0x02, 0x2A, 0x00], 9, rfl, rfl, rfl, rfl, rfl,
    Memory.readBytes_ofBytes _, rfl⟩

/-- The delay; and a probe that is ready, one that waits on, one that times out, one without a timeout, one
that is never answered. -/
theorem witness_FirstWaitStep : ∃ s₁ s₂ s₃ s₄ s₅ s₆ : State,
    (s₁.host = [] ∧ s₁.inProgress = none ∧ s₁.phase = .wait1 ∧ s₁.wsub = true) ∧
    (s₂.host = [] ∧ s₂.inProgress = none ∧ s₂.phase = .wait1 ∧ s₂.wsub = false ∧ s₂.adapter.drawProbe.1 = .status 0x01 ∧
      0x01#8 ∈ s₂.cfg.readyStatuses) ∧
    (s₃.phase = .wait1 ∧ s₃.wsub = false ∧ s₃.adapter.drawProbe.1 = .status 0x00 ∧
      s₃.waitacc + s₃.cfg.pollMs = s₃.req.timeout.toNat) ∧
    (s₄.phase = .wait1 ∧ s₄.wsub = false ∧ s₄.adapter.drawProbe.1 = .status 0x00 ∧
      s₄.waitacc + s₄.cfg.pollMs = s₄.req.timeout.toNat + 1) ∧
    (s₅.phase = .wait1 ∧ s₅.wsub = false ∧ s₅.adapter.drawProbe.1 = .status 0x00 ∧ s₅.req.timeout = 0) ∧
    (s₆.host = [] ∧ s₆.inProgress = none ∧ s₆.phase = .wait1 ∧ s₆.wsub = false ∧ s₆.adapter.drawProbe.1 = .never) :=
  ⟨{ during .wait1 20 13 with wsub := true }, answering (during .wait1 20 13) [] [] [.status 0x01],
    answering (during .wait1 10 13) [] [] [.status 0x00], answering (during .wait1 9 13) [] [] [.status 0x00],
    answering (during .wait1 0 13) [] [] [.status 0x00], answering (during .wait1 20 13) [] [] [.never], by decide,
    by decide, by decide, by decide, by decide, by decide⟩

/-- The delay; a ready probe with no response bytes asked for, and with one; a probe that times out; one
that is never answered. -/
theorem witness_SecondWaitStep : ∃ s₁ s₂ s₃ s₄ s₅ : State,
    (s₁.host = [] ∧ s₁.inProgress = none ∧ s₁.phase = .wait2 ∧ s₁.respLen = some 13 ∧ s₁.wsub = true) ∧
    (s₂.host = [] ∧ s₂.inProgress = none ∧ s₂.phase = .wait2 ∧ s₂.respLen = some 0 ∧ s₂.wsub = false ∧
      s₂.adapter.drawProbe.1 = .status 0x01) ∧
    (s₃.phase = .wait2 ∧ s₃.respLen = some 1 ∧ s₃.wsub = false ∧ s₃.adapter.drawProbe.1 = .status 0x01) ∧
    (s₄.phase = .wait2 ∧ s₄.respLen = some 13 ∧ s₄.wsub = false ∧ s₄.adapter.drawProbe.1 = .status 0x00 ∧
      s₄.waitacc + s₄.cfg.pollMs = s₄.req.timeout.toNat + 1) ∧
    (s₅.host = [] ∧ s₅.inProgress = none ∧ s₅.phase = .wait2 ∧ s₅.respLen = some 13 ∧ s₅.wsub = false ∧
      s₅.adapter.drawProbe.1 = .never) :=
  ⟨{ during .wait2 20 13 with wsub := true }, answering (during .wait2 20 0) [] [] [.status 0x01],
    answering (during .wait2 20 1) [] [] [.status 0x01], answering (during .wait2 9 13) [] [] [.status 0x00],
    answering (during .wait2 20 13) [] [] [.never], by decide, by decide, by decide, by decide, by decide⟩

theorem witness_SettlePhases : ∀ p ∈ [Phase.settle1, .settle2], (during p 20 13).host = [] ∧
    (during p 20 13).inProgress = none ∧ (during p 20 13).phase = p := fun _ _ => ⟨rfl, rfl, rfl⟩

/-- Each clause: a failure, five bytes, a mismatch in the last byte, the pattern, no answer. -/
theorem witness_AckReadPhase : ∃ s₁ s₂ s₃ s₄ s₅ : State,
    (s₁.host = [] ∧ s₁.inProgress = none ∧ s₁.phase = .ackRead ∧ s₁.ackbuf = [] ∧ s₁.adapter.drawRead.1 = .fail) ∧
    (s₂.host = [] ∧ s₂.inProgress = none ∧ s₂.phase = .ackRead ∧ s₂.ackbuf = [] ∧
      ∃ r, s₂.adapter.drawRead.1 = .ok r ∧ r.length < 6 ∧ r.length = 5) ∧
    (s₃.host = [] ∧ s₃.inProgress = none ∧ s₃.phase = .ackRead ∧ s₃.ackbuf = [] ∧
      ∃ r b, s₃.adapter.drawRead.1 = .ok r ∧ 6 ≤ r.length ∧ r[5]? = some b ∧
        r.take 5 = [0x00#8, 0x00#8, 0xFF#8, 0x00#8, 0xFF#8, 0x00#8].take 5 ∧
        [0x00#8, 0x00#8, 0xFF#8, 0x00#8, 0xFF#8, 0x00#8][5]? ≠ some b) ∧
    (s₄.host = [] ∧ s₄.inProgress = none ∧ s₄.phase = .ackRead ∧ s₄.ackbuf = [] ∧
      ∃ r, s₄.adapter.drawRead.1 = .ok r ∧ r.take 6 = [0x00, 0x00, 0xFF, 0x00, 0xFF, 0x00]) ∧
    (s₅.host = [] ∧ s₅.inProgress = none ∧ s₅.phase = .ackRead ∧ s₅.ackbuf = [] ∧
      s₅.adapter.drawRead.1 = .never) :=
  ⟨answering (during .ackRead 20 13) [] [.fail] [],
    answering (during .ackRead 20 13) [] [.ok [0x00, 0x00, 0xFF, 0x00, 0xFF]] [],
    answering (during .ackRead 20 13) [] [.ok [0x00, 0x00, 0xFF, 0x00, 0xFF, 0x01]] [],
    answering (during .ackRead 20 13) [] [.ok ackBytes] [], answering (during .ackRead 20 13) [] [.never] [],
    ⟨rfl, rfl, rfl, rfl, rfl⟩, ⟨rfl, rfl, rfl, rfl, _, rfl, by decide⟩,
    ⟨rfl, rfl, rfl, rfl, _, 0x01, rfl, by decide⟩, ⟨rfl, rfl, rfl, rfl, _, rfl, rfl⟩, rfl, rfl, rfl, rfl, rfl⟩

/-- A failed read; a read for EXCHANGE; a read for a composite; a read that is never answered. -/
theorem witness_ResponseReadPhase : ∃ s₁ s₂ s₃ s₄ : State,
    (s₁.host = [] ∧ s₁.inProgress = none ∧ s₁.phase = .respRead ∧ s₁.rxbuf = [] ∧ s₁.respLen = some 262 ∧
      s₁.adapter.drawRead.1 = .fail) ∧
    (s₂.host = [] ∧ s₂.inProgress = none ∧ s₂.phase = .respRead ∧ s₂.rxbuf = [] ∧ s₂.respLen = some 13 ∧
      s₂.req.opsel = 0x10 ∧ s₂.adapter.drawRead.1 = .ok fwResponse) ∧
    (s₃.host = [] ∧ s₃.inProgress = none ∧ s₃.phase = .respRead ∧ s₃.rxbuf = [] ∧ s₃.respLen = some 13 ∧
      s₃.req.opsel = 0x30 ∧ s₃.adapter.drawRead.1 = .ok fwResponse) ∧
    (s₄.host = [] ∧ s₄.inProgress = none ∧ s₄.phase = .respRead ∧ s₄.rxbuf = [] ∧ s₄.respLen = some 13 ∧
      s₄.adapter.drawRead.1 = .never) :=
  ⟨answering (during .respRead 20 262) [] [.fail] [],
    answering (during .respRead 20 13) [] [.ok fwResponse] [],
    answering { during .respRead 20 0 with req := ⟨0x30, 0, 1, 20, 0⟩ } [] [.ok fwResponse] [],
    answering (during .respRead 20 13) [] [.never] [], ⟨rfl, rfl, rfl, rfl, rfl, rfl⟩,
    ⟨rfl, rfl, rfl, rfl, rfl, rfl, rfl⟩, ⟨rfl, rfl, rfl, rfl, rfl, rfl, rfl⟩, rfl, rfl, rfl, rfl, rfl, rfl⟩

theorem witness_ParsePhase : ∀ p ∈ [(0x30#8, fwResponse), (0x31#8, targetResponse)],
    ∃ (s : State) (n : BitVec 9), s.host = [] ∧ s.inProgress = none ∧ s.phase = .parse ∧ s.rxcnt = Register.of n ∧
      n.toNat = p.2.length ∧ s.rxbuf.readBytes 0 p.2.length = some p.2 ∧ s.req.opsel = p.1 ∧ s.uid = [] := by
  intro p hp
  refine ⟨parsing p.1 p.2, BitVec.ofNat 9 p.2.length, rfl, rfl, rfl, rfl, ?_,
    Memory.readBytes_ofBytes p.2, rfl, rfl⟩
  revert hp
  revert p
  decide

theorem witness_CompositeDecodesAsStandalone : ∃ (s₁ s₂ : State) (r₁ r₂ : Operands) (n₁ n₂ : BitVec 9),
    (s₁.host = [] ∧ s₁.inProgress = none ∧ s₁.phase = .parse ∧ rest.cfg = s₁.cfg ∧ s₁.rxcnt = Register.of n₁ ∧
      n₁.toNat = r₁.data.length ∧ r₁.data.length ≤ 262 ∧
      s₁.rxbuf.readBytes 0 r₁.data.length = some r₁.data ∧ s₁.req.opsel = 0x30 ∧
      (∃ t, step s₁ = .next t) ∧ ∃ t, exec (.decodeFw r₁) rest = .next t) ∧
    (s₂.host = [] ∧ s₂.inProgress = none ∧ s₂.phase = .parse ∧ rest.cfg = s₂.cfg ∧ s₂.rxcnt = Register.of n₂ ∧
      n₂.toNat = r₂.data.length ∧ r₂.data.length ≤ 262 ∧
      s₂.rxbuf.readBytes 0 r₂.data.length = some r₂.data ∧ s₂.req.opsel = 0x31 ∧ s₂.uid = [] ∧
      (∃ t, step s₂ = .next t) ∧ ∃ t, exec (.decodeTarget r₂) rest = .next t) :=
  ⟨parsing 0x30 fwResponse, parsing 0x31 targetResponse, bytes fwResponse, bytes targetResponse, 13, 19,
    ⟨rfl, rfl, rfl, rfl, rfl, rfl, by decide, Memory.readBytes_ofBytes fwResponse, rfl, exists_next (by decide),
      exists_next (by decide)⟩,
    ⟨rfl, rfl, rfl, rfl, rfl, rfl, by decide, Memory.readBytes_ofBytes targetResponse, rfl, rfl,
      exists_next (by decide), exists_next (by decide)⟩⟩

theorem witness_CompositeRunsAsExchange : ∀ p ∈ [Phase.send, .respRead], ∃ (s : State) (n : Half),
    s.host = [] ∧ s.respLen = some n.toNat ∧ n ≠ 0 ∧ (s.req.opsel = 0x30 ∨ s.req.opsel = 0x31) ∧ s.phase = p :=
  fun p _ => ⟨{ during p 20 0 with req := ⟨0x30, 0, 1, 20, 0⟩ }, 13, rfl, rfl, by decide, .inl rfl, rfl⟩

/-- V-EX-2: three polls that just reach the timeout; no timeout; the second wait. -/
theorem witness_WaitSucceedsAfterPolls : ∀ p ∈ [(Phase.wait1, 30#16), (.wait1, 0#16), (.wait2, 30#16)],
    ∃ (s : State) (js : List Byte) (b : Byte) (ps : List ProbeAnswer), s.host = [] ∧ s.inProgress = none ∧
      s.wsub = false ∧ s.waitacc = 0 ∧ (∀ x ∈ js, x ∉ s.cfg.readyStatuses) ∧ b ∈ s.cfg.readyStatuses ∧
      s.adapter.probes = js.map .status ++ .status b :: ps ∧ js.length = 3 ∧
      (s.req.timeout = 0 ∨ js.length * s.cfg.pollMs ≤ s.req.timeout.toNat) ∧ s.phase = p.1 ∧
      ∃ n, s.respLen = some (n + 1) := by
  intro p hp
  refine ⟨answering (during p.1 p.2 13) [] [] [.status 0, .status 0, .status 0, .status 1], [0, 0, 0], 1, [],
    rfl, rfl, rfl, rfl, ?_, ?_, rfl, rfl, ?_, rfl, 12, rfl⟩
  · show ∀ x ∈ [0#8, 0#8, 0#8], x ∉ [0x01#8]
    decide
  · show 1#8 ∈ [0x01#8]
    decide
  · show p.2 = 0 ∨ 3 * 10 ≤ p.2.toNat
    revert hp
    revert p
    decide

/-- V-EX-3: a timeout of 29 is reached by the third probe, in both waits. -/
theorem witness_WaitTimesOut : ∀ p ∈ [Phase.wait1, .wait2], ∃ (s : State) (js : List Byte) (b : Byte)
    (ps : List ProbeAnswer), s.host = [] ∧ s.inProgress = none ∧ s.cfg.wf ∧ s.wsub = false ∧ s.waitacc = 0 ∧
    s.req.timeout ≠ 0 ∧ (∀ x ∈ js ++ [b], x ∉ s.cfg.readyStatuses) ∧ js.length = s.req.timeout.toNat / s.cfg.pollMs ∧
    s.adapter.probes = js.map .status ++ .status b :: ps ∧ s.phase.isWait ∧ s.phase = p := by
  intro p hp
  refine ⟨answering (during p 29 13) [] [] [.status 0, .status 0, .status 0], [0, 0], 0, [], rfl, rfl,
    legal_rest.params, rfl, rfl, ?_, ?_, ?_, rfl, ?_, rfl⟩
  · show (29#16) ≠ 0
    decide
  · show ∀ x ∈ [0#8, 0#8] ++ [0#8], x ∉ [0x01#8]
    decide
  · show 2 = (29#16).toNat / 10
    decide
  · show p = .wait1 ∨ p = .wait2
    simpa using hp

theorem witness_ZeroTimeoutWaitsForEver : ∃ (s : State) (js : List Byte) (ps : List ProbeAnswer),
    s.host = [] ∧ s.inProgress = none ∧ s.phase.isWait ∧ s.wsub = false ∧ s.waitacc = 0 ∧ s.req.timeout = 0 ∧
    (∀ x ∈ js, x ∉ s.cfg.readyStatuses) ∧ s.adapter.probes = js.map .status ++ ps ∧ js.length = 2 :=
  ⟨answering (during .wait1 0 13) [] [] [.status 0, .status 2], [0, 2], [], rfl, rfl, .inl rfl, rfl, rfl, rfl,
    by decide, rfl, rfl⟩

/-- V-EX-1 and V-EX-2: three polls in the first wait. -/
theorem witness_ExchangeEventSequence : ∀ p ∈ [(100#16, 13#16), (30#16, 0#16)],
    ∃ (s : State) (r : Operands) (js₁ js₂ ack resp : List Byte) (b₁ b₂ : Byte) (ws : List WriteAnswer)
      (rs : List ReadAnswer) (ps : List ProbeAnswer), r.timeout = p.1 ∧ r.rlen = p.2 ∧
      s.cfg.wf ∧ s.status.busy = false ∧ s.host = [] ∧ s.inProgress = none ∧
      r.data.length ≤ s.cfg.maxPayload ∧ r.rlen.toNat ≤ 262 ∧ b₁ ∈ s.cfg.readyStatuses ∧ b₂ ∈ s.cfg.readyStatuses ∧
      (∀ x ∈ js₁ ++ js₂, x ∉ s.cfg.readyStatuses) ∧
      (r.timeout = 0 ∨
        js₁.length * s.cfg.pollMs ≤ r.timeout.toNat ∧ js₂.length * s.cfg.pollMs ≤ r.timeout.toNat) ∧
      s.adapter.writes = .ok :: ws ∧
      s.adapter.probes = js₁.map .status ++ .status b₁ :: (js₂.map .status ++ .status b₂ :: ps) ∧
      s.adapter.reads = .ok ack :: .ok resp :: rs ∧ ack.take 6 = [0x00, 0x00, 0xFF, 0x00, 0xFF, 0x00] := by
  intro p hp
  refine ⟨answering rest [.ok] [.ok ackBytes, .ok fwResponse]
    [.status 0, .status 0, .status 0, .status 1, .status 1], ⟨0, p.1, p.2, [0x02]⟩, [0, 0, 0], [], ackBytes,
    fwResponse, 1, 1, [], [], [], rfl, rfl, legal_rest.params, rfl, rfl, rfl, (show 1 ≤ 254 by decide), ?_, ?_,
    ?_, ?_, ?_, rfl, rfl, rfl, rfl⟩
  · simp only [List.mem_cons, List.not_mem_nil, or_false] at hp
    rcases hp with rfl | rfl <;> decide
  · show 1#8 ∈ [0x01#8]
    decide
  · show 1#8 ∈ [0x01#8]
    decide
  · show ∀ x ∈ [0#8, 0#8, 0#8] ++ [], x ∉ [0x01#8]
    decide
  · show p.1 = 0 ∨ 3 * 10 ≤ p.1.toNat ∧ 0 * 10 ≤ p.1.toNat
    simp only [List.mem_cons, List.not_mem_nil, or_false] at hp
    rcases hp with rfl | rfl <;> decide

/-- A legal state in which the host, and one in which the block, makes the step. -/
theorem witness_StepKeepsLegalStates : ∃ s₁ s₂ : State,
    (s₁.Inv ∧ s₁.host = [.request 0x30 []] ∧ ∃ t, step s₁ = .next t ∧ t.phase = .send) ∧
    (s₂.Inv ∧ s₂.host = [] ∧ ∃ t, step s₂ = .next t ∧ t.phase = .wait1) := by
  refine ⟨{ rest with host := [.request 0x30 []] }, answering (during .send 20 13) [.ok] [] [],
    ⟨legal_with legal_rest rest.adapter _, rfl, ?_⟩,
    ⟨legal_answering (legal_during (.inl rfl) 20 13 (by decide)) _ _ _, rfl, ?_⟩⟩
  · obtain ⟨t, h, hp⟩ := exists_next_with (o := step { rest with host := [.request 0x30 []] })
      (p := fun t => t.phase == .send) (by decide)
    exact ⟨t, h, by simpa using hp⟩
  · obtain ⟨t, h, hp⟩ := exists_next_with (o := step (answering (during .send 20 13) [.ok] [] []))
      (p := fun t => t.phase == .wait1) (by decide)
    exact ⟨t, h, by simpa using hp⟩

theorem witness_StepKeepsCanonicalMemory : ∃ s : State, (∀ b, (s.buffer b).wf = true) ∧
    ∃ t, step s = .next t ∧ (t.buffer .ackbuf).read 5 = some 0x00 := by
  refine ⟨answering (during .ackRead 20 13) [] [.ok ackBytes] [], fun b => ?_, ?_⟩
  · cases b <;> decide
  · obtain ⟨t, h, hp⟩ := exists_next_with (o := step (answering (during .ackRead 20 13) [] [.ok ackBytes] []))
      (p := fun t => (t.buffer .ackbuf).read 5 == some 0x00) (by decide)
    exact ⟨t, h, by simpa using hp⟩

/-- A step that answers next, each way of never being answered, and a state that is stuck. -/
theorem witness_BlockStepNeverFaultsInside : ∃ s₁ s₂ s₃ s₄ s₅ : State,
    (s₁.Inv ∧ s₁.host = [] ∧ s₁.inProgress = none) ∧
    (s₂.Inv ∧ s₂.host = [] ∧ s₂.inProgress = none ∧ s₂.phase = .send ∧ s₂.adapter.drawWrite.1 = .never) ∧
    (s₃.Inv ∧ s₃.host = [] ∧ s₃.inProgress = none ∧ s₃.phase = .ackRead ∧ s₃.adapter.drawRead.1 = .never) ∧
    (s₄.Inv ∧ s₄.host = [] ∧ s₄.inProgress = none ∧ s₄.phase.isWait ∧ s₄.wsub = false ∧
      s₄.adapter.drawProbe.1 = .never) ∧
    (s₅.Inv ∧ s₅.host = [] ∧ s₅.inProgress ≠ none) :=
  ⟨answering (during .send 20 13) [.ok] [] [], answering (during .send 20 13) [.never] [] [],
    answering (during .ackRead 20 13) [] [.never] [], answering (during .wait1 20 13) [] [] [.never],
    { during .wait1 20 13 with inProgress := some .probe },
    ⟨legal_answering (legal_during (.inl rfl) 20 13 (by decide)) _ _ _, rfl, rfl⟩,
    ⟨legal_answering (legal_during (.inl rfl) 20 13 (by decide)) _ _ _, rfl, rfl, rfl, rfl⟩,
    ⟨legal_answering (legal_during (.inr (.inr (.inr rfl))) 20 13 (by decide)) _ _ _, rfl, rfl, rfl, rfl⟩,
    ⟨legal_answering (legal_during (.inr (.inl rfl)) 20 13 (by decide)) _ _ _, rfl, rfl, .inl rfl, rfl, rfl⟩,
    legal_stuck, rfl, by decide⟩

/-- A state not busy, and one just completed. -/
theorem witness_EveryRequestRunsWhenNotBusy : ∃ (s u : State) (i : Instr), i.wellFormed ∧
    (s.Inv ∧ s.status.busy = false) ∧ (u.Inv ∧ u.status.done = true) :=
  ⟨rest, complete .badOp 0 rest, .exchange ⟨0, 20, 13, [0x02]⟩, by decide, ⟨legal_rest, rfl⟩,
    inv_complete (bufferInv_of_inv legal_rest) rfl rfl rfl, rfl⟩

/-- Both refusals. -/
theorem witness_OnlyPresentationsAreRefused : ∃ s₁ s₂ : State, step s₁ = .refused .busy ∧
    step s₂ = .refused .malformedRequest :=
  ⟨{ during .send 0 0 with host := [.request 0x30 []] }, { rest with host := [.request 0x010001 []] }, rfl, rfl⟩

/-- A phase that goes on, and one that stays for want of an answer. -/
theorem witness_PhaseMovesForward : ∃ s₁ s₂ : State,
    (s₁.Inv ∧ s₁.phase = .settle1 ∧ ∃ t, step s₁ = .next t) ∧
    (s₂.Inv ∧ s₂.phase = .send ∧ ∃ t, step s₂ = .next t ∧ t.phase = .send ∧ t.inProgress ≠ none) := by
  refine ⟨during .settle1 20 13, answering (during .send 20 13) [.never] [] [],
    ⟨legal_during (.inr (.inr (.inl rfl))) 20 13 (by decide), rfl, exists_next (by decide)⟩,
    legal_answering (legal_during (.inl rfl) 20 13 (by decide)) _ _ _, rfl, ?_⟩
  obtain ⟨t, h, hp⟩ := exists_next_with (o := step (answering (during .send 20 13) [.never] [] []))
    (p := fun t => t.phase == .send && t.inProgress != none) (by decide)
  simp only [Bool.and_eq_true, beq_iff_eq, bne_iff_ne] at hp
  exact ⟨t, h, hp.1, hp.2⟩

theorem witness_OneEventAStep : ∃ s t : State, step s = .next t ∧ t.trace.length = 1 := by
  obtain ⟨t, h, hp⟩ := exists_next_with (o := step (during .settle1 20 13))
    (p := fun t => t.trace.length == 1) (by decide)
  exact ⟨_, t, h, by simpa using hp⟩

theorem witness_ParametersNeverChange : ∃ s t : State, step s = .next t := by
  obtain ⟨t, h⟩ := exists_next (o := step (during .settle1 20 13)) (by decide)
  exact ⟨_, t, h⟩

/-- A misuse error taken by the step, and one left by an earlier request. -/
theorem witness_MisuseErrorsMakeNoEvent : ∃ s₁ s₂ : State,
    (s₁.Inv ∧ s₁.status.done = false ∧ ∃ t, step s₁ = .next t ∧ t.status.done = true ∧
      t.status.errCode.errClass = some .callerMisuse) ∧
    (s₂.Inv ∧ s₂.host = [] ∧ s₂.status.done = true ∧ ∃ t, step s₂ = .next t ∧ t.status.done = true ∧
      t.status.errCode.errClass = some .callerMisuse) := by
  refine ⟨{ rest with host := [.request 0x04 []] }, complete .badOp 4 rest,
    ⟨legal_with legal_rest rest.adapter _, rfl, ?_⟩,
    ⟨inv_complete (bufferInv_of_inv legal_rest) rfl rfl rfl, rfl, rfl, ?_⟩⟩
  · obtain ⟨t, h, hp⟩ := exists_next_with (o := step { rest with host := [.request 0x04 []] })
      (p := fun t => t.status.done && t.status.errCode == .badOp) (by decide)
    simp only [Bool.and_eq_true, beq_iff_eq] at hp
    exact ⟨t, h, hp.1, by rw [hp.2]; rfl⟩
  · exact ⟨_, rfl, rfl, rfl⟩

/-- V-EX-9: a step that takes an error. -/
theorem witness_ErrorRecordsItsPhase : ∃ s : State, s.Inv ∧ s.host = [] ∧ s.phase ≠ .idle ∧
    ∃ t, step s = .next t ∧ t.status.done = true ∧ t.status.errCode ≠ .ok := by
  refine ⟨answering (during .send 20 13) [.fail] [] [],
    legal_answering (legal_during (.inl rfl) 20 13 (by decide)) _ _ _, rfl, by decide, ?_⟩
  obtain ⟨t, h, hp⟩ := exists_next_with (o := step (answering (during .send 20 13) [.fail] [] []))
    (p := fun t => t.status.done && t.status.errCode != .ok) (by decide)
  simp only [Bool.and_eq_true, bne_iff_ne] at hp
  exact ⟨t, h, hp.1, hp.2⟩

theorem witness_OnlyResetAbortsAnOperation : ∀ l ∈ [[], [HostAction.reset], [.await]], ∃ s : State,
    s.Inv ∧ s.host = l ∧ s.status.busy = true ∧ ∃ t, step s = .next t := by
  intro l hl
  refine ⟨{ during .settle1 20 13 with host := l },
    legal_with (legal_during (.inr (.inr (.inl rfl))) 20 13 (by decide)) rest.adapter l, rfl, rfl,
    exists_next ?_⟩
  revert hl
  revert l
  decide

/-- In `IDLE`, in a phase, and with an event in progress. -/
theorem witness_BlockStepFrame : (∀ p ∈ [Phase.idle, .settle1, .settle2], ∃ s : State,
      s.host = [] ∧ s.phase = p ∧ ∃ t, step s = .next t) ∧
    ∃ s : State, s.host = [] ∧ s.inProgress ≠ none ∧ ∃ t, step s = .next t := by
  constructor
  · intro p hp
    refine ⟨during p 20 13, rfl, rfl, exists_next ?_⟩
    revert hp
    revert p
    decide
  · exact ⟨{ during .wait1 20 13 with inProgress := some .probe }, rfl, by decide, _, rfl⟩

/-- A state in which earlier operations have left results, a timed-out wait and an error. -/
def used : State :=
  { rest with
    waitacc := 30, laststat := 0x42, errinfo := 0x0042, ackok := Register.of 1, hdr := Register.of 0xD5FA06
    fwinfo := Register.of 0x32010607, uidlen := Register.of 1, uid := [(0, 0xAA)]
    rxbuf := [(0, 0x11)], rxcnt := Register.of 1
    status := { busy := false, done := true, errCode := .timeout1, errPhase := .wait1 } }

/-- A fresh state and a used one, for each of the three operations, and a run of two steps. -/
theorem witness_ExchangeIgnoresEarlierResults :
    ∀ i ∈ [Instr.exchange ⟨0, 50, 13, [0x02]⟩, .firmwareVersion ⟨0, 50, 13, [0x02]⟩,
      .listPassiveTarget ⟨0, 50, 13, [0x02]⟩],
    ∃ s₁ s₂ t₁ u₁ : State, i.wellFormed ∧ s₁.cfg = s₂.cfg ∧ s₁.adapter = s₂.adapter ∧ s₁.host = [] ∧
      s₂.host = [] ∧ s₁.inProgress = none ∧ s₂.inProgress = none ∧ s₂.status.busy = false ∧
      s₁.fwinfo.get ≠ s₂.fwinfo.get ∧ s₁.rxbuf ≠ s₂.rxbuf ∧
      exec i s₁ = .next t₁ ∧ core.run 2 t₁ = .next u₁ := by
  intro i hi
  have h : isNext (andThen (exec i (answering rest [.ok] [] [.status 0])) (run 2)) (fun _ => true) = true := by
    revert hi
    revert i
    decide
  obtain ⟨u, hu⟩ := exists_next h
  obtain ⟨t, ht, hu⟩ := andThen_eq_next.1 hu
  refine ⟨answering rest [.ok] [] [.status 0], answering used [.ok] [] [.status 0], t, u, ?_, rfl, rfl, rfl, rfl,
    rfl, rfl, rfl, by decide, by decide, ht, hu⟩
  simp only [List.mem_cons, List.not_mem_nil, or_false] at hi
  rcases hi with rfl | rfl | rfl <;> exact (show 1 < 65536 by decide)

/-- A pending `pass`, and an `await` while busy and while not. -/
theorem witness_PassAndAwaitStepTheBlock : ∃ s₁ s₂ s₃ : State,
    (s₁.host = [.pass, .read .status] ∧ ∃ t, step s₁ = .next t) ∧
    (s₂.host = [.await, .read .status] ∧ s₂.status.busy = true ∧ ∃ t, step s₂ = .next t) ∧
    (s₃.host = [.await, .read .status] ∧ s₃.status.busy = false) :=
  ⟨{ during .settle1 20 13 with host := [.pass, .read .status] },
    { during .settle2 20 13 with host := [.await, .read .status] },
    { rest with host := [.await, .read .status] },
    ⟨rfl, exists_next (by decide)⟩, ⟨rfl, rfl, exists_next (by decide)⟩, rfl, rfl⟩

/-- A write up to the capacity, and one beyond it. -/
theorem witness_BufferReadAfterWrite : ∃ v w : List Byte, 1 + v.length ≤ Buffer.ackbuf.capacity ∧
    1 + v.length = 6 ∧ Buffer.ackbuf.capacity < 1 + w.length ∧ 1 + w.length = 7 :=
  ⟨[1, 2, 3, 4, 5], [1, 2, 3, 4, 5, 6], by decide⟩

end Sys2Proof.Machine.Tests
end

/-! Proofs of the obligations on buffer writes (O60), the `SEND` step (O32), the trace (O52) and the taking of
an error (O55). -/

namespace Sys2Proof.Machine

/-! ### A buffer write -/

/-- A write beyond the capacity faults (R52, R54). -/
theorem memWrite_beyond {b : Buffer} {i : Nat} {v : List Byte} (s : State) (h : b.capacity < i + v.length) :
    memWrite b i v s = .fault (.bufferWrite b) := if_neg (Nat.not_le.2 h)

/-- Settles O60: the write replaces one buffer's contents, and the laws of contents say what those read as. -/
theorem bufferReadAfterWrite : Obligations.BufferReadAfterWrite := by
  refine fun s b i v => ⟨fun h => ⟨_, memWrite_of h, ?_⟩, memWrite_beyond s⟩
  rw [buffer_setBuffer_same]
  exact ⟨Memory.readBytes_writeBytes _ i v, fun a ha => Memory.read_writeBytes_other _ v ha,
    fun c hc => buffer_setBuffer_other s _ hc, fun hw => Memory.wf_writeBytes hw i v⟩

/-! ### The `SEND` step -/

/-- In `SEND`, with a frame that reads as `w`, the step is the one write of `w` and what follows its answer
(R137). -/
theorem step_send {s : State} {w : List Byte} (hh : s.host = []) (hi : s.inProgress = none)
    (hp : s.phase = .send) (hw : readValid .frame s = .next w) :
    step s = portWrite w s fun ok s =>
      if ok then .next (enterWait .wait1 s) else .next (raise ⟨.send, 0⟩ s) := by
  rw [step_phase hh hi, phaseStep, hp]
  simp only [sendStep, hw, andThen_next]

/-- Settles O32, by the adapter's answer to the write. -/
theorem sendPhase : Obligations.SendPhase := by
  intro s w n hh hi hp hn hl hb
  have hw : readValid .frame s = .next w := readValid_of (by simp [State.count, hn, hl]) hb
  rw [step_send hh hi hp hw]
  refine ⟨fun ha => ?_, fun ha => ?_, fun ha => ?_⟩
  · rw [portWrite_ok ha]
    rfl
  · rw [portWrite_fail ha]
    simp [complete, hp]
  · rw [portWrite_never ha]

/-! ### The trace -/

/-- From `s` to `t` the trace stays as it is or gains one event (R14). -/
def State.OneEventMore (s t : State) : Prop := t.trace = s.trace ∨ ∃ e, t.trace = s.trace ++ [e]

theorem finishFw_trace {b : List Byte} {s t : State} (h : finishFw b s = .next t) : t.trace = s.trace := by
  rcases finishFw_eq_next.1 h with ⟨v, -, rfl⟩ | ⟨e, -, rfl⟩ <;> rfl

theorem finishTarget_trace {b : List Byte} {s t : State} (h : finishTarget b s = .next t) :
    t.trace = s.trace := by
  rcases finishTarget_eq_next.1 h with ⟨u, -, rfl⟩ | ⟨e, -, rfl⟩ <;> rfl

/-- The action of a phase makes one event at most (R136, R64); `IDLE` and `PARSE` make none. -/
theorem phaseStep_oneEventMore {s t : State} (h : phaseStep s = .next t) : s.OneEventMore t := by
  rcases phaseStep_cases h with ⟨c, a, -, rfl⟩ | ⟨-, rfl⟩ | ⟨-, w, -, ⟨-, rfl⟩ | ⟨-, rfl⟩⟩ | ⟨-, -, rfl⟩ |
    ⟨-, -, b, -, hb⟩ | ⟨-, rfl⟩ | ⟨-, ha⟩ | ⟨-, rfl⟩ | ⟨-, n, -, hr⟩ | ⟨-, b, -, hf⟩
  · exact .inr ⟨_, rfl⟩
  · exact .inl rfl
  · exact .inr ⟨_, rfl⟩
  · exact .inr ⟨_, rfl⟩
  · exact .inr ⟨_, rfl⟩
  · refine .inr ⟨.probe b, ?_⟩
    rcases hb with ⟨-, -, rfl⟩ | ⟨-, -, -, rfl⟩ | ⟨-, -, -, rfl⟩ | ⟨-, -, rfl⟩ | ⟨-, -, -, rfl⟩ |
      ⟨-, -, -, rfl⟩ <;> rfl
  · exact .inr ⟨_, rfl⟩
  · rcases ha with ⟨-, rfl⟩ | ⟨r, -, v, rfl, ⟨e, -, rfl⟩ | ⟨-, rfl⟩⟩ <;> exact .inr ⟨_, rfl⟩
  · exact .inr ⟨_, rfl⟩
  · rcases hr with ⟨-, rfl⟩ | ⟨r, -, -, v, rfl, ⟨-, rfl⟩ | ⟨-, rfl⟩⟩ <;> exact .inr ⟨_, rfl⟩
  · rcases hf with ⟨-, hf⟩ | ⟨-, hf⟩
    · exact .inl (finishFw_trace hf)
    · exact .inl (finishTarget_trace hf)

/-- A step of the block makes one event at most; a blocked one makes none. -/
theorem blockStep_oneEventMore {s t : State} (h : blockStep s = .next t) : s.OneEventMore t := by
  rcases blockStep_cases h with ⟨-, rfl⟩ | ⟨-, h⟩
  · exact .inl rfl
  · exact phaseStep_oneEventMore h

/-- An acceptance makes no transport event (R64, R136). -/
theorem exec_trace {i : Instr} {s t : State} (hw : i.wellFormed) (h : exec i s = .next t) :
    t.trace = s.trace := by
  obtain ⟨-, a, rfl, ⟨e, -, rfl⟩ | ⟨-, hc⟩⟩ := exec_cases hw h
  · simp
  · rcases hc with ⟨-, -, rfl⟩ | ⟨-, rfl⟩ | ⟨-, ⟨v, -, rfl⟩ | ⟨-, rfl⟩⟩ | ⟨-, hf⟩ | ⟨-, hf⟩ | ⟨-, -, rfl⟩
    · simp
    · simp
    · simp
    · simp
    · simpa using finishFw_trace hf
    · simpa using finishTarget_trace hf
    · simp

/-- Settles O52, by the agent that moves: only a step of the block makes an event. -/
theorem oneEventAStep : Obligations.OneEventAStep := by
  intro s t h
  rcases step_cases h with ⟨rest, -, -, hb⟩ | ⟨rest, -, -, rfl⟩ | ⟨rest, -, rfl⟩ | ⟨r, rest, v, -, -, -, rfl⟩ |
    ⟨hd, data, rest, i, -, -, hw, he⟩ | ⟨hd, data, rest, -, -, -, -, rfl⟩
  · have hm := blockStep_oneEventMore hb
    exact hm
  · exact .inl rfl
  · exact .inl rfl
  · exact .inl rfl
  · have ht := exec_trace hw he
    exact .inl ht
  · exact .inl (by simp)

/-! ### The taking of an error -/

/-- What a phase that takes an error in state `v` has kept of the state `s` it began in: the phase, the results,
and every buffer but the one it fills (R40, R216). -/
structure State.KeptByError (s v : State) : Prop where
  phase : v.phase = s.phase
  fwinfo : v.fwinfo = s.fwinfo
  uidlen : v.uidlen = s.uidlen
  frame : v.frame = s.frame
  uid : v.uid = s.uid
  data : v.data = s.data
  ackbuf : s.phase ≠ .ackRead → v.ackbuf = s.ackbuf
  rxbuf : s.phase ≠ .respRead → v.rxbuf = s.rxbuf

/-- The completions of a step from `s`: a success, or an error taken in a state that kept all of that (R15). -/
inductive State.CompletesTo (s : State) : State → Prop where
  | success (v : State) : s.CompletesTo (succeed v)
  | error (e : OpError) (v : State) (failed : e.code ≠ .ok) (kept : s.KeptByError v) : s.CompletesTo (raise e v)

/-- Nothing of that changes with the wait's registers, the counts and the two sides of the transport port. -/
theorem State.KeptByError.of_registers {s : State} {l : Byte} {n : Nat} {k : Register 3} {x : Register 9}
    {es : List Event} {a : Adapter} : s.KeptByError
      { s with laststat := l, waitacc := n, ackcnt := k, rxcnt := x, trace := es, adapter := a } :=
  ⟨rfl, rfl, rfl, rfl, rfl, rfl, fun _ => rfl, fun _ => rfl⟩

theorem finishFw_completesTo {b : List Byte} {s t : State} (h : finishFw b s = .next t) : s.CompletesTo t := by
  rcases finishFw_eq_next.1 h with ⟨v, -, rfl⟩ | ⟨e, he, rfl⟩
  · exact .success _
  · exact .error e s (by rcases fwDecode_error he with h | h <;> simp [h]) .of_registers

theorem finishTarget_completesTo {b : List Byte} {s t : State} (h : finishTarget b s = .next t) :
    s.CompletesTo t := by
  rcases finishTarget_eq_next.1 h with ⟨u, -, rfl⟩ | ⟨e, he, rfl⟩
  · exact .success _
  · exact .error e s (by rcases targetDecode_error he with h | h <;> simp [h]) .of_registers

/-- The action of a phase leaves `DONE` as it is, or completes (R26). -/
theorem phaseStep_done {s t : State} (h : phaseStep s = .next t) :
    t.status.done = s.status.done ∨ s.CompletesTo t := by
  rcases phaseStep_cases h with ⟨c, a, -, rfl⟩ | ⟨-, rfl⟩ | ⟨-, w, -, ⟨-, rfl⟩ | ⟨-, rfl⟩⟩ | ⟨-, -, rfl⟩ |
    ⟨-, -, b, -, hb⟩ | ⟨-, rfl⟩ | ⟨hp, ha⟩ | ⟨-, rfl⟩ | ⟨hp, n, -, hr⟩ | ⟨-, b, -, hf⟩
  · exact .inl rfl
  · exact .inl rfl
  · exact .inl rfl
  · exact .inr (.error _ _ (by simp) .of_registers)
  · exact .inl rfl
  · rcases hb with ⟨-, -, rfl⟩ | ⟨-, -, -, rfl⟩ | ⟨-, -, -, rfl⟩ | ⟨-, -, rfl⟩ | ⟨-, -, -, rfl⟩ | ⟨-, -, -, rfl⟩
    · exact .inl rfl
    · exact .inr (.success _)
    · exact .inl rfl
    · exact .inl rfl
    · exact .inr (.error _ _ (by split <;> simp) .of_registers)
    · exact .inl rfl
  · exact .inl rfl
  · rcases ha with ⟨-, rfl⟩ | ⟨r, -, v, rfl, ⟨e, he, rfl⟩ | ⟨-, rfl⟩⟩
    · exact .inr (.error _ _ (by simp) .of_registers)
    · exact .inr (.error _ _ (by simp [ackError_code he])
        ⟨rfl, rfl, rfl, rfl, rfl, rfl, fun hn => absurd hp hn, fun _ => rfl⟩)
    · exact .inl rfl
  · exact .inl rfl
  · rcases hr with ⟨-, rfl⟩ | ⟨r, -, -, v, rfl, ⟨-, rfl⟩ | ⟨-, rfl⟩⟩
    · exact .inr (.error _ _ (by simp) .of_registers)
    · exact .inr (.success _)
    · exact .inl rfl
  · rcases hf with ⟨-, hf⟩ | ⟨-, hf⟩
    · exact .inr (finishFw_completesTo hf)
    · exact .inr (finishTarget_completesTo hf)

/-- A step of the block from a legal state in a phase, after which `DONE` is set, is a completion: `DONE` was
clear before (R26). -/
theorem blockStep_completesTo {s t : State} (hs : s.Inv) (hp : s.phase ≠ .idle) (h : blockStep s = .next t)
    (hd : t.status.done = true) : s.CompletesTo t := by
  have hs0 : s.status.done ≠ true := fun hc => hp (hs.doneIdle hc)
  rcases blockStep_cases h with ⟨-, rfl⟩ | ⟨-, h⟩
  · exact absurd hd hs0
  · exact (phaseStep_done h).resolve_left fun he => hs0 (he ▸ hd)

/-- Settles O55, by the two forms of a completion. -/
theorem errorRecordsItsPhase : Obligations.ErrorRecordsItsPhase := by
  intro s t hs hh hp h hd
  rw [step_block hh] at h
  rcases blockStep_completesTo hs hp h hd with ⟨v⟩ | ⟨e, v, he, hk⟩
  · exact ⟨rfl, rfl, fun _ => ⟨rfl, rfl⟩, fun hc => absurd rfl hc⟩
  · refine ⟨rfl, rfl, fun hc => absurd hc he, fun _ => ⟨?_, hk.fwinfo, hk.uidlen, fun a => ?_, fun hn a => ?_,
      fun hn a => ?_⟩⟩
    · simp [he, hk.phase]
    · simp [hk.frame, hk.uid, hk.data]
    · simp [hk.ackbuf hn]
    · simp [hk.rxbuf hn]

end Sys2Proof.Machine

/-! Proofs of the obligations on the legal states (O45, O46). -/

namespace Sys2Proof.Machine

/-! ### Buffers and counts -/

/-- Bytes written to an unwritten buffer from index 0 on are exactly its bytes. -/
theorem Memory.filled_writeBytes_zero {m : Memory} (h : m.filled none) (bs : List Byte) :
    (m.writeBytes 0 bs).filled (some bs.length) := by
  have h0 : m.filled (some 0) := h
  simpa using Memory.filled_writeBytes h0 bs

/-- The count of a buffer is stored without loss where it fits its register. -/
theorem toNat_count {w n : Nat} (h : n < 2 ^ w) : (BitVec.ofNat w n).toNat = n :=
  (BitVec.toNat_ofNat n w).trans (Nat.mod_eq_of_lt h)

/-- Counts and buffers stay related when the other registers change, `WAITACC` within its bound. -/
theorem State.BufferInv.of_registers {s : State} {p : Phase} {w : Bool} {n : Nat} {l : Byte} {st : Status} {e : Half}
    {f : Register 32} {c : Option Call} {es : List Event} {a : Adapter} (h : s.BufferInv)
    (hn : n ≤ 65535 + s.cfg.pollMs) : State.BufferInv
      { s with
        phase := p, wsub := w, waitacc := n, laststat := l, status := st, errinfo := e, fwinfo := f
        inProgress := c, trace := es, adapter := a } :=
  ⟨h.params, h.flen, h.ackcnt, h.rxcnt, h.frame, h.ackbuf, h.rxbuf, h.uid, h.data, h.copied, hn⟩

/-- The ack read stores at most 6 bytes in an unwritten `ACKBUF` (R138). -/
theorem State.BufferInv.of_ackRead {s : State} {bs : List Byte} (h : s.BufferInv) (hf : s.ackcnt.written = false)
    (hl : bs.length ≤ 6) : State.BufferInv
      { s with ackbuf := s.ackbuf.writeBytes 0 bs, ackcnt := Register.of (BitVec.ofNat 3 bs.length) } := by
  have hb := h.ackbuf
  rw [get_eq_none.2 hf] at hb
  have hc := toNat_count (w := 3) (show bs.length < 2 ^ 3 by omega)
  refine { h with ackcnt := ?_, ackbuf := ?_ }
  · rintro n ⟨⟩
    exact hc.trans_le (by omega)
  · simpa [hc] using Memory.filled_writeBytes_zero hb bs

/-- The response read stores at most 262 bytes in an unwritten `RXBUF` (R142). -/
theorem State.BufferInv.of_respRead {s : State} {bs : List Byte} (h : s.BufferInv) (hf : s.rxcnt.written = false)
    (hl : bs.length ≤ 262) : State.BufferInv
      { s with rxbuf := s.rxbuf.writeBytes 0 bs, rxcnt := Register.of (BitVec.ofNat 9 bs.length) } := by
  have hb := h.rxbuf
  rw [get_eq_none.2 hf] at hb
  have hc := toNat_count (w := 9) (show bs.length < 2 ^ 9 by omega)
  refine { h with rxcnt := ?_, rxbuf := ?_ }
  · rintro n ⟨⟩
    exact hc.trans_le (by omega)
  · simpa [hc] using Memory.filled_writeBytes_zero hb bs

/-- A target decode stores at most 255 bytes in an unwritten `UID` (R176). -/
theorem State.BufferInv.of_targetDecode {s : State} {bs : List Byte} (h : s.BufferInv) (hf : s.uidlen.written = false)
    (hl : bs.length ≤ 255) : State.BufferInv
      { s with uidlen := Register.of (BitVec.ofNat 8 bs.length), uid := s.uid.writeBytes 0 bs } := by
  have hb := h.uid
  rw [get_eq_none.2 hf] at hb
  have hc := toNat_count (w := 8) (show bs.length < 2 ^ 8 by omega)
  refine { h with uid := ?_ }
  simpa [hc] using Memory.filled_writeBytes_zero hb bs

/-- An acceptance stores the frame of a payload of at most 254 bytes (R81, R103). -/
theorem State.BufferInv.of_framed {s : State} {pd : List Byte} (h : s.BufferInv) (hl : pd.length ≤ 254) :
    (s.framed pd).BufferInv := by
  have hc := toNat_count (w := 9) (show pd.length + 8 < 2 ^ 9 by omega)
  refine { h with flen := ?_, frame := ?_ }
  · rintro n ⟨⟩
    exact hc.trans_le (by omega)
  · have hf := Memory.filled_ofBytes (buildFrame pd)
    rw [length_buildFrame] at hf
    simpa [hc] using hf

/-! ### An operation in progress -/

/-- What is true of an operation in progress whatever its phase: `BUSY` and `DONE`, its frame is built, its response
fits, and the results it ends with are unwritten (R25, R26, R40, R136, R141). -/
structure State.InOperation (s : State) : Prop where
  errColumn : s.status.errCode.raisedIn s.status.errPhase
  busy : s.status.busy = true
  done : s.status.done = false
  frameBuilt : s.flen.written = true
  respFits : ∃ n, s.respLen = some n ∧ n ≤ 262
  fwFresh : s.op = some .firmwareVersion → s.fwinfo.written = false
  uidFresh : s.op = some .listPassiveTarget → s.uidlen.written = false

/-- What the phase of an operation in progress adds to that (R22, R31, R32, R40, R64, R141, R142). -/
structure State.AtPhase (s : State) : Prop where
  phaseLegal : ∀ n, s.phase ≠ .reserved n
  notIdle : s.phase ≠ .idle
  waitBound : s.phase.isWait → s.waitacc ≤ s.req.timeout.toNat
  wsubWait : s.wsub = true → s.phase.isWait
  ackFresh : s.phase.beforeAck → s.ackcnt.written = false
  rxFresh : s.phase ≠ .parse → s.rxcnt.written = false
  respAsked : s.phase = .respRead → s.respLen ≠ some 0
  parseReady : s.phase = .parse → s.op ≠ some .exchange ∧ s.rxcnt.written = true
  callOfPhase : ∀ c, s.inProgress = some c → c.madeIn s.phase

theorem inv_of_inOperation {s : State} (hb : s.BufferInv) (ho : s.InOperation) (hp : s.AtPhase) : s.Inv where
  params := hb.params
  phaseLegal := hp.phaseLegal
  errColumn := ho.errColumn
  busyIff := by simp [ho.busy, hp.notIdle]
  doneIdle := by simp [ho.done]
  counts := counts_of_bufferInv hb
  results := results_of_bufferInv hb
  dataPart := hb.data
  dataCopied := hb.copied
  exchanging _ := ⟨ho.frameBuilt, ho.respFits⟩
  waitBound := hp.waitBound
  waitMax := hb.waitacc
  wsubWait := hp.wsubWait
  ackFresh := hp.ackFresh
  rxFresh _ := hp.rxFresh
  fwFresh _ := ho.fwFresh
  uidFresh _ := ho.uidFresh
  respAsked := hp.respAsked
  parseReady := hp.parseReady
  callOfPhase := hp.callOfPhase

theorem inOperation_of_inv {s : State} (h : s.Inv) (hp : s.phase ≠ .idle) : s.InOperation where
  errColumn := h.errColumn
  busy := h.busyIff.2 hp
  done := by simpa using mt h.doneIdle hp
  frameBuilt := (h.exchanging hp).1
  respFits := (h.exchanging hp).2
  fwFresh := h.fwFresh hp
  uidFresh := h.uidFresh hp

/-- The phase, the waits' registers, the ack and the response read leave the operation in progress. -/
theorem State.InOperation.of_registers {s : State} {p : Phase} {w : Bool} {n : Nat} {l : Byte} {k : Register 3}
    {x : Register 9} {b y : Memory} {c : Option Call} {es : List Event} {a : Adapter} (h : s.InOperation) :
    State.InOperation
      { s with
        phase := p, wsub := w, waitacc := n, laststat := l, ackcnt := k, ackbuf := b, rxcnt := x, rxbuf := y
        inProgress := c, trace := es, adapter := a } :=
  ⟨h.errColumn, h.busy, h.done, h.frameBuilt, h.respFits, h.fwFresh, h.uidFresh⟩

/-- `WSUB` is 0 outside the waits (R32). -/
theorem wsub_of_not_wait {s : State} (h : s.Inv) (hp : ¬ s.phase.isWait) : s.wsub = false := by
  simpa using mt h.wsubWait hp

/-! ### A step of the block -/

/-- An event that is never answered is one of its phase (R59, R64). -/
theorem inv_stuck {s : State} {c : Call} {a : Adapter} (h : s.Inv) (hu : s.unanswered c a) : (s.stuck c a).Inv := by
  refine { h with callOfPhase := ?_ }
  rintro _ ⟨⟩
  rcases hu with ⟨hp, -, -, w, -, rfl⟩ | ⟨⟨hp, rfl⟩ | ⟨hp, n, -, rfl⟩, -⟩ | ⟨hp, -, -, -, rfl⟩
  · exact hp
  · exact .inl hp
  · exact .inr hp
  · exact hp

/-- A step that stays in a wait: `WAITACC` has not passed the timeout (R131). -/
theorem inv_waitOn {s : State} {w : Bool} {n : Nat} {l : Byte} {es : List Event} {a : Adapter} (h : s.Inv)
    (hp : s.phase.isWait) (hn : n ≤ s.req.timeout.toNat) :
    State.Inv { s with wsub := w, waitacc := n, laststat := l, trace := es, adapter := a } := by
  have ht := s.req.timeout.isLt
  exact { h with waitBound := fun _ => hn, waitMax := show n ≤ _ by omega, wsubWait := fun _ => hp }

/-- The end of a firmware decode leads to a legal state (R170). -/
theorem inv_finishFw {b : List Byte} {s t : State} (h : s.BufferInv) (hw : s.wsub = false)
    (hi : s.inProgress = none) (hp : s.phase = .idle ∨ s.phase = .parse) (hf : finishFw b s = .next t) : t.Inv := by
  rcases finishFw_eq_next.1 hf with ⟨v, -, rfl⟩ | ⟨e, he, rfl⟩
  · exact inv_complete (h.of_registers h.waitacc) hw hi rfl
  · refine inv_complete h hw hi ?_
    rcases fwDecode_error he with hc | hc <;> rw [hc] <;> exact hp

/-- The end of a target decode, `UID` being unwritten before, leads to a legal state (R176). -/
theorem inv_finishTarget {b : List Byte} {s t : State} (h : s.BufferInv) (hw : s.wsub = false)
    (hi : s.inProgress = none) (hp : s.phase = .idle ∨ s.phase = .parse) (hu : s.uidlen.written = false)
    (hf : finishTarget b s = .next t) : t.Inv := by
  rcases finishTarget_eq_next.1 hf with ⟨u, hd, rfl⟩ | ⟨e, he, rfl⟩
  · obtain ⟨l, -, -, -, hl⟩ := targetDecode_ok hd
    have hlt := l.isLt
    exact inv_complete (h.of_targetDecode hu (by omega)) hw hi rfl
  · refine inv_complete h hw hi ?_
    rcases targetDecode_error he with hc | hc <;> rw [hc] <;> exact hp

/-! ### The phases of an operation in progress

Each leads to the next phase, or completes. -/

section Phases
variable {s : State} (h : s.Inv) (hi : s.inProgress = none)
include h hi

/-- The write of `SEND` was answered `ok` (R137). -/
theorem inv_sent {es : List Event} {a : Adapter} (hp : s.phase = .send) :
    (enterWait .wait1 { s with adapter := a, trace := es }).Inv := by
  have hb := bufferInv_of_inv h
  have ho := inOperation_of_inv h (by simp [hp])
  refine inv_of_inOperation (hb.of_registers (Nat.zero_le _)) ho.of_registers ?_
  exact ⟨by simp, by simp, by simp, by simp, fun _ => h.ackFresh (.inl hp),
    fun _ => h.rxFresh (by simp [hp]) (by simp [hp]), by simp, by simp, by simp [hi]⟩

/-- A ready probe in the first wait (R131). -/
theorem inv_leaveWait1 {b : Byte} (hp : s.phase = .wait1) (hw : s.wsub = false) :
    State.Inv { s.probed b with phase := .settle1 } := by
  have hb := bufferInv_of_inv h
  have ho := inOperation_of_inv h (by simp [hp])
  refine inv_of_inOperation (hb.of_registers hb.waitacc) ho.of_registers ?_
  exact ⟨by simp, by simp, by simp, by simp [hw], fun _ => h.ackFresh (.inr (.inl hp)),
    fun _ => h.rxFresh (by simp [hp]) (by simp [hp]), by simp, by simp, by simp [hi]⟩

/-- The delay of `SETTLE1` (R140). -/
theorem inv_settle1 (hp : s.phase = .settle1) : State.Inv { portDelay s.cfg.settleMs s with phase := .ackRead } := by
  have hb := bufferInv_of_inv h
  have ho := inOperation_of_inv h (by simp [hp])
  have hw := wsub_of_not_wait h (by simp [hp])
  refine inv_of_inOperation (hb.of_registers hb.waitacc) ho.of_registers ?_
  exact ⟨by simp, by simp, by simp, by simp [hw], fun _ => h.ackFresh (.inr (.inr (.inl hp))),
    fun _ => h.rxFresh (by simp [hp]) (by simp [hp]), by simp, by simp, by simp [hi]⟩

/-- The ack read stored the pattern (R139). -/
theorem inv_ackRead {bs : List Byte} {es : List Event} {a : Adapter} (hp : s.phase = .ackRead) (hl : bs.length ≤ 6) :
    State.Inv { s with
      adapter := a, trace := es, ackbuf := s.ackbuf.writeBytes 0 bs
      ackcnt := Register.of (BitVec.ofNat 3 bs.length), phase := .settle2 } := by
  have hb := (bufferInv_of_inv h).of_ackRead (h.ackFresh (.inr (.inr (.inr hp)))) hl
  have ho := inOperation_of_inv h (by simp [hp])
  have hw := wsub_of_not_wait h (by simp [hp])
  refine inv_of_inOperation (hb.of_registers hb.waitacc) ho.of_registers ?_
  exact ⟨by simp, by simp, by simp, by simp [hw], by simp,
    fun _ => h.rxFresh (by simp [hp]) (by simp [hp]), by simp, by simp, by simp [hi]⟩

/-- The delay of `SETTLE2` (R140). -/
theorem inv_settle2 (hp : s.phase = .settle2) : (enterWait .wait2 (portDelay s.cfg.settleMs s)).Inv := by
  have hb := bufferInv_of_inv h
  have ho := inOperation_of_inv h (by simp [hp])
  refine inv_of_inOperation (hb.of_registers (Nat.zero_le _)) ho.of_registers ?_
  exact ⟨by simp, by simp, by simp, by simp, by simp,
    fun _ => h.rxFresh (by simp [hp]) (by simp [hp]), by simp, by simp, by simp [hi]⟩

/-- A ready probe in the second wait, of an operation that asks for response bytes (R141). -/
theorem inv_leaveWait2 {b : Byte} {n : Nat} (hp : s.phase = .wait2) (hw : s.wsub = false)
    (hn : s.respLen = some (n + 1)) : State.Inv { s.probed b with phase := .respRead } := by
  have hb := bufferInv_of_inv h
  have ho := inOperation_of_inv h (by simp [hp])
  have ha : s.respLen ≠ some 0 := by simp [hn]
  refine inv_of_inOperation (hb.of_registers hb.waitacc) ho.of_registers ?_
  exact ⟨by simp, by simp, by simp, by simp [hw], by simp,
    fun _ => h.rxFresh (by simp [hp]) (by simp [hp]), fun _ => ha, by simp, by simp [hi]⟩

/-- The response read of a composite (R142). -/
theorem inv_respRead {bs : List Byte} {es : List Event} {a : Adapter} (hp : s.phase = .respRead)
    (hl : bs.length ≤ 262) (hc : s.op ≠ some .exchange) :
    State.Inv { s with
      adapter := a, trace := es, rxbuf := s.rxbuf.writeBytes 0 bs
      rxcnt := Register.of (BitVec.ofNat 9 bs.length), phase := .parse } := by
  have hb := (bufferInv_of_inv h).of_respRead (h.rxFresh (by simp [hp]) (by simp [hp])) hl
  have ho := inOperation_of_inv h (by simp [hp])
  have hw := wsub_of_not_wait h (by simp [hp])
  refine inv_of_inOperation (hb.of_registers hb.waitacc) ho.of_registers ?_
  exact ⟨by simp, by simp, by simp, by simp [hw], by simp, by simp, by simp, fun _ => ⟨hc, rfl⟩, by simp [hi]⟩

/-- A ready probe in the second wait, of an operation that asks for no response bytes (R141). -/
theorem inv_endWait2 {b : Byte} (hp : s.phase = .wait2) (hw : s.wsub = false) :
    (succeed { s.probed b with rxcnt := Register.of 0 }).Inv := by
  have hb := (bufferInv_of_inv h).of_respRead (bs := []) (h.rxFresh (by simp [hp]) (by simp [hp])) (by simp)
  exact inv_complete (hb.of_registers hb.waitacc) hw hi rfl

/-- A probe that brings `WAITACC` above the timeout, by one poll interval at most (R131). -/
theorem inv_timeOut {b : Byte} {info : Half} (hp : s.phase.isWait) (hw : s.wsub = false) :
    (raise ⟨if s.phase = .wait1 then .timeout1 else .timeout2, info⟩
      { s.probed b with waitacc := s.waitacc + s.cfg.pollMs }).Inv := by
  have hb := bufferInv_of_inv h
  have hacc := h.waitBound hp
  have hlt := s.req.timeout.isLt
  refine inv_complete (hb.of_registers (by omega)) hw hi ?_
  rcases hp with hp | hp <;> simp [hp, ErrCode.raisedIn]

/-- The action of its phase leads a legal block to a legal state. -/
theorem inv_phaseStep {t : State} (ht : phaseStep s = .next t) : t.Inv := by
  have hb := bufferInv_of_inv h
  rcases phaseStep_cases ht with ⟨c, a, hu, rfl⟩ | ⟨-, rfl⟩ | ⟨hp, w, -, ⟨-, rfl⟩ | ⟨-, rfl⟩⟩ | ⟨hp, -, rfl⟩ |
    ⟨hp, hw, b, -, hprobe⟩ | ⟨hp, rfl⟩ | ⟨hp, ha⟩ | ⟨hp, rfl⟩ | ⟨hp, n, hn, hr⟩ | ⟨hp, b, -, hf⟩
  · exact inv_stuck h hu
  · exact h
  · exact inv_sent h hi hp
  · have hw := wsub_of_not_wait h (by simp [hp])
    exact inv_complete (hb.of_registers hb.waitacc) hw hi hp
  · exact inv_waitOn (s := s) h hp (h.waitBound hp)
  · rcases hprobe with ⟨-, h1, rfl⟩ | ⟨-, h2, -, rfl⟩ | ⟨-, h2, ⟨n, hn⟩, rfl⟩ | ⟨-, -, rfl⟩ | ⟨-, -, -, rfl⟩ |
      ⟨-, -, hle, rfl⟩
    · exact inv_leaveWait1 h hi h1 hw
    · exact inv_endWait2 h hi h2 hw
    · exact inv_leaveWait2 h hi h2 hw hn
    · exact inv_waitOn (s := s) h hp (h.waitBound hp)
    · exact inv_timeOut h hi hp hw
    · exact inv_waitOn (s := s) h hp hle
  · exact inv_settle1 h hi hp
  · have hw := wsub_of_not_wait h (by simp [hp])
    have hf := h.ackFresh (.inr (.inr (.inr hp)))
    rcases ha with ⟨-, rfl⟩ | ⟨r, -, v, rfl, ⟨e, he, rfl⟩ | ⟨-, rfl⟩⟩
    · have hr := hb.of_ackRead (bs := []) hf (by simp)
      exact inv_complete (hr.of_registers hr.waitacc) hw hi hp
    · have hr := hb.of_ackRead hf (List.length_take_le 6 r)
      refine inv_complete (hr.of_registers hr.waitacc) hw hi ?_
      rw [ackError_code he]
      exact hp
    · exact inv_ackRead h hi hp (List.length_take_le 6 r)
  · exact inv_settle2 h hi hp
  · have hw := wsub_of_not_wait h (by simp [hp])
    have hf := h.rxFresh (by simp [hp]) (by simp [hp])
    rcases hr with ⟨-, rfl⟩ | ⟨r, -, hl, v, rfl, ⟨-, rfl⟩ | ⟨hc, rfl⟩⟩
    · have hr := hb.of_respRead (bs := []) hf (by simp)
      exact inv_complete (hr.of_registers hr.waitacc) hw hi hp
    · have hr := hb.of_respRead hf hl
      exact inv_complete (hr.of_registers hr.waitacc) hw hi rfl
    · exact inv_respRead h hi hp hl hc
  · have hw := wsub_of_not_wait h (by simp [hp])
    rcases hf with ⟨-, hf⟩ | ⟨ho, hf⟩
    · exact inv_finishFw hb hw hi (.inr hp) hf
    · exact inv_finishTarget hb hw hi (.inr hp) (h.uidFresh (by simp [hp]) ho) hf

end Phases

/-- A step of the block leads to a legal state; a blocked one stays in its own. -/
theorem inv_blockStep {s t : State} (h : s.Inv) (ht : blockStep s = .next t) : t.Inv := by
  rcases blockStep_cases ht with ⟨-, rfl⟩ | ⟨hi, ht⟩
  · exact h
  · exact inv_phaseStep h hi ht

/-! ### A step of the host -/

/-- The host's side is none of the block's registers (R20). -/
theorem inv_host {s : State} {l : List HostAction} {rs : List (HostReg × BitVec 32)} (h : s.Inv) :
    State.Inv { s with host := l, hostReads := rs } := { h with }

/-- A state between two operations is legal when its buffers and counts are related and it has no use of the waits'
registers and no event in progress (R22, R25, R226). -/
theorem inv_of_idle {s : State} (hb : s.BufferInv) (hp : s.phase = .idle) (hbusy : s.status.busy = false)
    (he : s.status.errCode.raisedIn s.status.errPhase) (hw : s.wsub = false) (hi : s.inProgress = none) : s.Inv :=
  ⟨hb.params, by simp [hp], he, by simp [hp, hbusy], fun _ => hp, counts_of_bufferInv hb, results_of_bufferInv hb,
    hb.data, hb.copied, by simp [hp], by simp [hp], hb.waitacc, by simp [hw], by simp [hp], by simp [hp], by simp [hp],
    by simp [hp], by simp [hp], by simp [hp], by simp [hi]⟩

/-- Reset leaves a legal state where the parameters are within R9's constraints (R240). -/
theorem inv_applyReset {s : State} (h : s.cfg.wf) : (applyReset s).Inv := by
  refine inv_of_idle ⟨h, ?_, ?_, ?_, rfl, rfl, rfl, rfl, ⟨0, by simp, rfl⟩, fun _ => rfl, Nat.zero_le _⟩
    rfl rfl rfl rfl rfl <;> rintro n ⟨⟩

/-- A legal state that is not busy is in `IDLE` (R25). -/
theorem idle_of_not_busy {s : State} (h : s.Inv) (hb : s.status.busy = false) : s.phase = .idle := by
  by_contra hp
  simp [h.busyIff.2 hp] at hb

/-- What an accepted request that passes its checks has made unwritten, and the response it asks for (R40, R141). -/
theorem fresh_of_accepted {op : Op} {r : Operands} {s : State} (hp : s.cfg.wf) (hw : r.wellFormed)
    (ho : op = .exchange ∨ op = .firmwareVersion ∨ op = .listPassiveTarget)
    (hn : operandError (accepted op.selector r s) = none) :
    (accepted op.selector r s).ackcnt.written = false ∧ (accepted op.selector r s).rxcnt.written = false ∧
    (op = .firmwareVersion → (accepted op.selector r s).fwinfo.written = false) ∧
    (op = .listPassiveTarget → (accepted op.selector r s).uidlen.written = false) ∧
    ∃ n, (accepted op.selector r s).respLen = some n ∧ n ≤ 262 := by
  have hr := (length_of_operandError_none hw hn).2.2
  obtain ⟨-, -, -, ht, -⟩ := hp
  rcases ho with rfl | rfl | rfl
  · exact ⟨rfl, rfl, nofun, nofun, r.rlen.toNat, rfl, hr rfl⟩
  · exact ⟨rfl, rfl, fun _ => rfl, nofun, fwRespLen, rfl, by decide⟩
  · exact ⟨rfl, rfl, nofun, fun _ => rfl, s.cfg.targetRespLen, rfl, ht⟩

/-- A request that was accepted and passes its checks frames its payload and enters `SEND` (R136, R185, R190). -/
theorem inv_entersSend {op : Op} {r : Operands} {s : State} {pd : List Byte} (h : s.Inv) (hw : r.wellFormed)
    (hb : s.status.busy = false) (hn : operandError (accepted op.selector r s) = none)
    (ho : op = .exchange ∨ op = .firmwareVersion ∨ op = .listPassiveTarget) (hl : pd.length ≤ 254) :
    State.Inv { (accepted op.selector r s).framed pd with phase := .send } := by
  have hf := (bufferInv_accepted (o := op.selector) hw (bufferInv_of_inv h)).of_framed hl
  have hi := inProgress_of_idle h (idle_of_not_busy h hb)
  have hop : (accepted op.selector r s).op = some op := by simp
  obtain ⟨hack, hrx, hfw, huid, hresp⟩ := fresh_of_accepted h.params hw ho hn
  refine inv_of_inOperation (hf.of_registers hf.waitacc) ⟨?_, by simp, by simp, rfl, hresp, ?_, ?_⟩
    ⟨by simp, by simp, by simp, by simp, fun _ => hack, fun _ => hrx, by simp, by simp, by simp [hi]⟩
  · simpa using h.errColumn
  · exact fun hc => hfw (Option.some.inj (hop.symm.trans hc))
  · exact fun hc => huid (Option.some.inj (hop.symm.trans hc))

/-- The acceptance step of a request leads a legal block to a legal state (R44). -/
theorem inv_exec {i : Instr} {s t : State} (h : s.Inv) (hw : i.wellFormed) (ht : exec i s = .next t) : t.Inv := by
  obtain ⟨hb, a, rfl, hcase⟩ := exec_cases hw ht
  have ha := bufferInv_accepted (o := i.op.selector) hw (bufferInv_of_inv h)
  have hi : (accepted i.op.selector i.operands s).inProgress = none := by
    simpa using inProgress_of_idle h (idle_of_not_busy h hb)
  have hp := accepted_phase i.op.selector i.operands s
  have hs := accepted_wsub i.op.selector i.operands s
  rcases hcase with ⟨e, he, rfl⟩ | ⟨hn, ⟨-, hl, rfl⟩ | ⟨-, rfl⟩ | ⟨-, ⟨v, -, rfl⟩ | ⟨-, rfl⟩⟩ | ⟨-, hf⟩ | ⟨ho, hf⟩ |
    ⟨ho, hl, rfl⟩⟩
  · refine inv_complete ha hs hi ?_
    rcases operandError_code he with hc | hc | hc <;> rw [hc] <;> exact hp
  · exact inv_complete (ha.of_framed hl) hs hi rfl
  · exact inv_complete { ha with } hs hi rfl
  · exact inv_complete { ha with } hs hi rfl
  · exact inv_complete ha hs hi (.inl hp)
  · exact inv_finishFw ha hs hi (.inl hp) hf
  · exact inv_finishTarget ha hs hi (.inl hp) (by simp [ho, accepted, Op.selector, invalidate]) hf
  · exact inv_entersSend h hw hb hn ho hl

/-- A reserved selector completes in a legal state (R75). -/
theorem inv_rejectSelector {h : Header} {data : List Byte} {s : State} (hs : s.Inv) (hb : s.status.busy = false)
    (hl : data.length = (Header.dlen h).toNat) :
    (raise ⟨.badOp, infoOfByte (Header.opsel h)⟩ (accepted (Header.opsel h) (Header.operands h data) s)).Inv := by
  have hw : (Header.operands h data).wellFormed := hl.trans_lt (Header.dlen h).isLt
  refine inv_complete (bufferInv_accepted hw (bufferInv_of_inv hs)) (accepted_wsub ..) ?_ (accepted_phase ..)
  simpa using inProgress_of_idle hs (idle_of_not_busy hs hb)

/-- Settles O46, by the agent that moves: the block, the host with a reset or a read, or a request. -/
theorem stepKeepsLegalStates : Obligations.StepKeepsLegalStates := by
  intro s t hs h
  rcases step_cases h with ⟨rest, -, -, hb⟩ | ⟨rest, -, -, rfl⟩ | ⟨rest, -, rfl⟩ | ⟨r, rest, v, -, -, -, rfl⟩ |
    ⟨hd, data, rest, i, -, -, hw, he⟩ | ⟨hd, data, rest, -, hb, hl, -, rfl⟩
  · exact inv_blockStep (inv_host hs) hb
  · exact inv_host hs
  · exact inv_applyReset hs.params
  · exact inv_host hs
  · exact inv_exec (inv_host hs) hw he
  · exact inv_rejectSelector (inv_host hs) hb hl

/-- Settles O45: the parameters stand at R9's recommended values. -/
theorem resetStateIsLegal : Obligations.ResetStateIsLegal :=
  inv_applyReset (s := State.reset) (by decide)

end Sys2Proof.Machine

/-! Proofs of the obligations on what a request does (O4, O7, O8, O17 to O20, O22, O24, O28 to O30, O49). -/

namespace Sys2Proof.Machine

/-! ### The start of an operation -/

/-- An operation whose operand checks pass goes on from its acceptance (R74). -/
theorem start_of_checked {o : Byte} {r : Operands} {s : State} {k : State → Result State}
    (hb : s.status.busy = false) (hc : operandError (accepted o r s) = none) :
    start o r s k = k (accepted o r s) := by
  rw [start_idle hb, hc]

/-- An operation with an operand error completes with it (R74). -/
theorem start_of_operandError {o : Byte} {r : Operands} {s : State} {k : State → Result State} {e : OpError}
    (hb : s.status.busy = false) (hc : operandError (accepted o r s) = some e) :
    start o r s k = .next (raise e (accepted o r s)) := by
  rw [start_idle hb, hc]

/-- The error check 2 of R74 raises for a payload above `P_MAX_PAYLOAD`. -/
def payloadError (r : Operands) (s : State) : Option OpError :=
  if r.data.length > s.cfg.maxPayload then some ⟨.payloadTooLong, r.dlen⟩ else none

/-- The error check 3 of R74 raises for a decode's input above `DATA_MAX`. -/
def inputError (r : Operands) : Option OpError :=
  if r.data.length > 262 then some ⟨.badLength, r.dlen⟩ else none

/-- The error check 4 of R74 raises for a response length above `RX_MAX`. -/
def responseError (r : Operands) : Option OpError :=
  if r.rlen.toNat > 262 then some ⟨.badLength, r.rlen⟩ else none

/-- The checks of R74 on a well-formed request just accepted, in their order. -/
theorem operandError_accepted (op : Op) {r : Operands} (s : State) (hw : r.wellFormed) :
    operandError (accepted op.selector r s) =
      match op with
      | .encode => payloadError r s
      | .exchange => (payloadError r s).or (responseError r)
      | .firmwareVersion => none
      | .listPassiveTarget => none
      | _ => inputError r := by
  cases op <;> simp [operandError, Op.selector, latch, toNat_dlen hw, payloadError, inputError, responseError]
  split <;> simp

theorem payloadError_eq_none {r : Operands} {s : State} :
    payloadError r s = none ↔ r.data.length ≤ s.cfg.maxPayload := by
  simp [payloadError]

theorem inputError_eq_none {r : Operands} : inputError r = none ↔ r.data.length ≤ 262 := by
  simp [inputError]

theorem responseError_eq_none {r : Operands} : responseError r = none ↔ r.rlen.toNat ≤ 262 := by
  simp [responseError]

/-! ### The operations whose checks pass -/

/-- The frame of a payload fits `FRAME` (R81, R103). -/
theorem writeFrame_of_length {pd : List Byte} {s : State} (hl : pd.length ≤ 254) (hf : s.frame = []) :
    writeFrame pd s = .next (s.framed pd) := by
  rw [writeFrame_eq_next, length_buildFrame, hf]
  exact ⟨by omega, rfl⟩

section Checked
variable {r : Operands} {s : State} (hb : s.status.busy = false)
include hb

theorem exec_encode (hl : r.data.length ≤ s.cfg.maxPayload) (hm : r.data.length ≤ 254) :
    exec (.encode r) s = .next (succeed ((accepted 0x01 r s).framed r.data)) := by
  have hc : operandError (accepted 0x01 r s) = none :=
    (operandError_accepted .encode s (by omega)).trans (payloadError_eq_none.2 hl)
  have hd := readValid_data_accepted (o := 0x01) (s := s) (show r.data.length ≤ 262 by omega)
  have hf := writeFrame_of_length (s := accepted 0x01 r s) hm rfl
  refine (start_of_checked hb hc).trans ?_
  simp only [hd, hf, andThen_next]

theorem exec_exchange (hl : r.data.length ≤ s.cfg.maxPayload) (hm : r.data.length ≤ 254) (hr : r.rlen.toNat ≤ 262) :
    exec (.exchange r) s = .next { (accepted 0x10 r s).framed r.data with phase := .send } := by
  have hc : operandError (accepted 0x10 r s) = none := by
    refine (operandError_accepted .exchange s (by omega)).trans ?_
    rw [payloadError_eq_none.2 hl, responseError_eq_none.2 hr, Option.or_none]
  have hd := readValid_data_accepted (o := 0x10) (s := s) (show r.data.length ≤ 262 by omega)
  have hf := writeFrame_of_length (s := accepted 0x10 r s) hm rfl
  refine (start_of_checked hb hc).trans ?_
  simp only [hd, hf, andThen_next]

theorem exec_firmwareVersion :
    exec (.firmwareVersion r) s = .next { (accepted 0x30 r s).framed fwPayload with phase := .send } := by
  have hf := writeFrame_of_length (s := accepted 0x30 r s) (pd := fwPayload) (by decide) rfl
  refine (start_of_checked hb rfl).trans ?_
  simp only [hf, andThen_next]

theorem exec_listPassiveTarget : exec (.listPassiveTarget r) s =
    .next { (accepted 0x31 r s).framed (inListPayload r.cardType) with phase := .send } := by
  have hf := writeFrame_of_length (s := accepted 0x31 r s) (pd := inListPayload r.cardType)
    (show 3 ≤ 254 by decide) rfl
  refine (start_of_checked hb rfl).trans ?_
  simp only [accepted_req, latch, hf, andThen_next]

theorem exec_validateAck (hl : r.data.length ≤ 262) : exec (.validateAck r) s =
    .next (succeed { accepted 0x02 r s with ackok := Register.of (BitVec.ofBool (isAck r.data)) }) := by
  have hc : operandError (accepted 0x02 r s) = none :=
    (operandError_accepted .validateAck s (by omega)).trans (inputError_eq_none.2 hl)
  refine (start_of_checked hb hc).trans ?_
  rw [readValid_data_accepted hl, andThen_next]

theorem exec_decodeHeader_ok {v : BitVec 24} (hl : r.data.length ≤ 262) (hv : headerDecode r.data = .ok v) :
    exec (.decodeHeader r) s = .next (succeed { accepted 0x03 r s with hdr := Register.of v }) := by
  have hc : operandError (accepted 0x03 r s) = none :=
    (operandError_accepted .decodeHeader s (by omega)).trans (inputError_eq_none.2 hl)
  refine (start_of_checked hb hc).trans ?_
  rw [readValid_data_accepted hl, andThen_next, hv]

theorem exec_decodeHeader_error {e : OpError} (hl : r.data.length ≤ 262) (he : headerDecode r.data = .error e) :
    exec (.decodeHeader r) s = .next (raise e (accepted 0x03 r s)) := by
  have hc : operandError (accepted 0x03 r s) = none :=
    (operandError_accepted .decodeHeader s (by omega)).trans (inputError_eq_none.2 hl)
  refine (start_of_checked hb hc).trans ?_
  rw [readValid_data_accepted hl, andThen_next, he]

theorem exec_decodeFw (hl : r.data.length ≤ 262) :
    exec (.decodeFw r) s = finishFw r.data (accepted 0x20 r s) := by
  have hc : operandError (accepted 0x20 r s) = none :=
    (operandError_accepted .decodeFw s (by omega)).trans (inputError_eq_none.2 hl)
  refine (start_of_checked hb hc).trans ?_
  rw [readValid_data_accepted hl, andThen_next]

theorem exec_decodeTarget (hl : r.data.length ≤ 262) :
    exec (.decodeTarget r) s = finishTarget r.data (accepted 0x21 r s) := by
  have hc : operandError (accepted 0x21 r s) = none :=
    (operandError_accepted .decodeTarget s (by omega)).trans (inputError_eq_none.2 hl)
  refine (start_of_checked hb hc).trans ?_
  rw [readValid_data_accepted hl, andThen_next]

end Checked

/-- Settles O17. -/
theorem encodeBuildsFrame : Obligations.EncodeBuildsFrame := by
  rintro r s ⟨hm, -⟩ hb hl
  have h262 : r.data.length ≤ 262 := by omega
  rw [exec_encode hb hl (by omega)]
  simp [accepted, invalidate, complete, latch, Operands.dlen, h262]

/-- Settles O18: the test of R111 is equality with the pattern. -/
theorem validateAckComparesPattern : Obligations.ValidateAckComparesPattern := by
  intro r s hb hl
  have hp : BitVec.ofBool (isAck r.data) = if r.data = [0x00, 0x00, 0xFF, 0x00, 0xFF, 0x00] then 1 else 0 := by
    by_cases h : r.data = ackPattern
    · exact (congrArg BitVec.ofBool (decide_eq_true h)).trans (if_pos h).symm
    · exact (congrArg BitVec.ofBool (decide_eq_false h)).trans (if_neg h).symm
  rw [exec_validateAck hb hl, hp]
  simp [accepted, invalidate, complete, latch, Operands.dlen, hl]

/-! ### The decodes -/

/-- Two fields side by side in a word are one field, the concatenation. -/
theorem setWidth_shiftLeft_or {w n : Nat} (x : BitVec w) (y : BitVec n) (m k : Nat) :
    x.setWidth m <<< (n + k) ||| y.setWidth m <<< k = (x ++ y).setWidth m <<< k := by
  apply BitVec.eq_of_getLsbD_eq
  intro i hi
  simp only [BitVec.getLsbD_or, BitVec.getLsbD_shiftLeft, BitVec.getLsbD_setWidth, BitVec.getLsbD_append, hi,
    decide_true, Bool.true_and, show i - k < m by omega, show i - (n + k) < m by omega]
  by_cases hk : i < k
  · simp [hk, show i < n + k by omega]
  · by_cases hn : i - k < n
    · simp [hk, hn, show i < n + k by omega]
    · have hy := BitVec.getLsbD_of_ge y (i - k) (by omega)
      simp [hk, hn, hy, show ¬ i < n + k by omega, show i - (n + k) = i - k - n by omega]

/-- The header decode of a frame of 6 bytes or more packs three of them (R37, R120). -/
theorem headerDecode_cons (b0 b1 b2 len lcs tfi : Byte) (rest : List Byte) :
    headerDecode (b0 :: b1 :: b2 :: len :: lcs :: tfi :: rest) = .ok (tfi ++ lcs ++ len) := by
  have hp : tfi.setWidth 24 <<< 16 ||| lcs.setWidth 24 <<< 8 ||| len.setWidth 24 = tfi ++ lcs ++ len := by
    have h1 := setWidth_shiftLeft_or tfi lcs 24 8
    have h2 := setWidth_shiftLeft_or (tfi ++ lcs) len 24 0
    simpa [h1] using h2
  rw [← hp]
  exact dif_neg (by simp)

theorem headerDecode_short {b : List Byte} (h : b.length < 6) : headerDecode b = .error (truncatedError 6) := by
  simp [headerDecode, h]

/-- Settles O19, by the number of bytes. -/
theorem decodeHeaderPacksFields : Obligations.DecodeHeaderPacksFields := by
  intro r s hb hl
  constructor
  · intro b0 b1 b2 len lcs tfi rest hr
    rw [exec_decodeHeader_ok hb hl (hr ▸ headerDecode_cons b0 b1 b2 len lcs tfi rest)]
    simp [accepted, invalidate, complete, latch, Operands.dlen, hl]
  · intro h
    rw [exec_decodeHeader_error hb hl (headerDecode_short h)]
    simp [accepted, invalidate, complete, latch, Operands.dlen, hl, truncatedError, infoOfLength]

/-- A firmware response that begins as it must decodes to the four bytes at offsets 7 to 10 (R170, R171). -/
theorem fwDecode_append (code ic ver rev sup : Byte) (rest : List Byte) :
    fwDecode (fwPrefix ++ code :: ic :: ver :: rev :: sup :: rest) = .ok (ic ++ ver ++ rev ++ sup) := by
  have hp : ic.setWidth 32 <<< 24 ||| ver.setWidth 32 <<< 16 ||| rev.setWidth 32 <<< 8 ||| sup.setWidth 32 =
      ic ++ ver ++ rev ++ sup := by
    have h1 := setWidth_shiftLeft_or ic ver 32 16
    have h2 := setWidth_shiftLeft_or (ic ++ ver) rev 32 8
    have h3 := setWidth_shiftLeft_or (ic ++ ver ++ rev) sup 32 0
    simpa [h1, h2] using h3
  unfold fwDecode
  rw [dif_neg (by simp [fwPrefix]), firstMismatch_append, ← hp]
  rfl

/-- Settles O20. -/
theorem decodeFwExtractsFields : Obligations.DecodeFwExtractsFields := by
  intro r s code ic ver rev sup rest hb hl hr
  have hd : fwDecode r.data = .ok (ic ++ ver ++ rev ++ sup) := hr ▸ fwDecode_append code ic ver rev sup rest
  rw [exec_decodeFw hb hl, finishFw, hd]
  simp [accepted, invalidate, complete, latch, Operands.dlen, hl]

/-- A response with one target decodes to the bytes its UID-length byte counts (R176, R178). -/
theorem targetDecode_of {u : Nat} {b : List Byte} {l : Byte} (hc : b[7]? = some 0x01) (hl : b[u]? = some l)
    (hn : u + 1 + l.toNat ≤ b.length) : targetDecode u b = .ok ((b.drop (u + 1)).take l.toNat) := by
  obtain ⟨h7, hc⟩ := List.getElem?_eq_some_iff.1 hc
  obtain ⟨hu, hl⟩ := List.getElem?_eq_some_iff.1 hl
  unfold targetDecode
  rw [dif_neg (by omega), if_neg (by simp [hc, maxTargets]), dif_neg (by omega), if_neg (by rw [hl]; omega), hl]

/-- Settles O22. -/
theorem decodeTargetReturnsUid : Obligations.DecodeTargetReturnsUid := by
  intro r s l hb hl h7 hu hn
  have hd : targetDecode (accepted 0x21 r s).cfg.uidLenOff r.data = _ := targetDecode_of h7 hu hn
  have hlen : (((r.data.drop (s.cfg.uidLenOff + 1)).take l.toNat)).length = l.toNat := by
    simp only [List.length_take, List.length_drop]
    omega
  rw [exec_decodeTarget hb hl, finishTarget_eq_next]
  refine .inl ⟨_, hd, ?_⟩
  simp [hlen, accepted, invalidate, complete, latch, Operands.dlen, hl, Memory.ofBytes]

/-- Settles O28. -/
theorem exchangeEntersSend : Obligations.ExchangeEntersSend := by
  rintro r s ⟨hm, -⟩ hb hl hr
  have h262 : r.data.length ≤ 262 := by omega
  rw [exec_exchange hb hl (by omega) hr]
  simp [accepted, invalidate, latch, Operands.dlen, h262]

/-- The frame of FIRMWARE_VERSION (R87, R185). -/
theorem buildFrame_fwPayload :
    buildFrame fwPayload = [0x00, 0x00, 0xFF, 0x02, 0xFE, 0xD4, 0x02, 0x2A, 0x00] := by decide

/-- Settles O29. -/
theorem firmwareVersionEntersSend : Obligations.FirmwareVersionEntersSend := by
  intro r s hb
  rw [exec_firmwareVersion hb, State.framed, buildFrame_fwPayload]
  simp [accepted, invalidate, latch, Operands.dlen, fwPayload]

/-- The frame of LIST_PASSIVE_TARGET: its data checksum is `E1 - c` (R87, R190). -/
theorem buildFrame_inListPayload (c : Byte) : buildFrame (inListPayload c) =
    [0x00, 0x00, 0xFF, 0x04, 0xFC, 0xD4, 0x4A, 0x01, c, 0xE1 - c, 0x00] := by
  have hs : neg8 (tfiHostToChip.toNat + (sum8 (inListPayload c)).toNat) = 0xE1 - c := by
    revert c
    decide
  rw [← hs]
  rfl

/-- Settles O30. -/
theorem listPassiveTargetEntersSend : Obligations.ListPassiveTargetEntersSend := by
  intro r s hb
  rw [exec_listPassiveTarget hb, State.framed, buildFrame_inListPayload]
  simp [accepted, invalidate, latch, Operands.dlen, inListPayload]

/-! ### The operations whose checks fail -/

/-- An operation with an operand error completes with it in its acceptance step (R74). -/
theorem exec_of_operandError {i : Instr} {s : State} {e : OpError} (hb : s.status.busy = false)
    (he : operandError (accepted i.op.selector i.operands s) = some e) :
    exec i s = .next (raise e (accepted i.op.selector i.operands s)) := by
  cases i <;> exact start_of_operandError hb he

/-- Such a completion is in `IDLE`, without an event, and with every output of the operation unwritten (R40, R74). -/
theorem exec_misuse {i : Instr} {s : State} {e : OpError} (hb : s.status.busy = false)
    (he : operandError (accepted i.op.selector i.operands s) = some e) :
    ∃ t, exec i s = .next t ∧ t.status = ⟨false, true, e.code, .idle⟩ ∧ t.errinfo = e.info ∧ t.phase = .idle ∧
      t.trace = s.trace ∧ t.outputsUnwritten i.op :=
  ⟨_, exec_of_operandError hb he, by simp [complete], rfl, rfl, by simp,
    outputsUnwritten_raise (outputsUnwritten_accepted i.op i.operands s) e⟩

/-- Settles O24, by the first check of R74 that fails. -/
theorem operandChecksInOrder : Obligations.OperandChecksInOrder := by
  intro r s hw hb
  have hlen : r.dlen.toNat = r.data.length := toNat_dlen hw
  refine ⟨fun i hi hl => ?_, fun i hi hl => ?_, fun hl hr => ?_⟩
  · have hp : payloadError r s = some ⟨.payloadTooLong, r.dlen⟩ := if_pos hl
    have he : operandError (accepted i.op.selector i.operands s) = some ⟨.payloadTooLong, r.dlen⟩ := by
      simp only [List.mem_cons, List.not_mem_nil, or_false] at hi
      rcases hi with rfl | rfl
      · exact (operandError_accepted .encode s hw).trans hp
      · exact (operandError_accepted .exchange s hw).trans (by rw [hp, Option.some_or])
    obtain ⟨t, ht, hst, hinfo, hrest⟩ := exec_misuse hb he
    exact ⟨t, ht, hst, hinfo ▸ hlen, hrest⟩
  · have hp : inputError r = some ⟨.badLength, r.dlen⟩ := if_pos hl
    have he : operandError (accepted i.op.selector i.operands s) = some ⟨.badLength, r.dlen⟩ := by
      simp only [List.mem_cons, List.not_mem_nil, or_false] at hi
      rcases hi with rfl | rfl | rfl | rfl
      · exact (operandError_accepted .validateAck s hw).trans hp
      · exact (operandError_accepted .decodeHeader s hw).trans hp
      · exact (operandError_accepted .decodeFw s hw).trans hp
      · exact (operandError_accepted .decodeTarget s hw).trans hp
    obtain ⟨t, ht, hst, hinfo, hrest⟩ := exec_misuse hb he
    exact ⟨t, ht, hst, hinfo ▸ hlen, hrest⟩
  · have hp : responseError r = some ⟨.badLength, r.rlen⟩ := if_pos hr
    have he : operandError (accepted 0x10 r s) = some ⟨.badLength, r.rlen⟩ := by
      refine (operandError_accepted .exchange s hw).trans ?_
      rw [payloadError_eq_none.2 hl, Option.none_or, hp]
    exact exec_misuse (i := .exchange r) hb he

/-! ### Every request runs -/

theorem finishFw_answers (b : List Byte) (s : State) : ∃ t, finishFw b s = .next t := by
  cases hd : fwDecode b with
  | error e => exact ⟨_, finishFw_eq_next.2 (.inr ⟨e, hd, rfl⟩)⟩
  | ok v => exact ⟨_, finishFw_eq_next.2 (.inl ⟨v, hd, rfl⟩)⟩

theorem finishTarget_answers (b : List Byte) (s : State) : ∃ t, finishTarget b s = .next t := by
  cases hd : targetDecode s.cfg.uidLenOff b with
  | error e => exact ⟨_, finishTarget_eq_next.2 (.inr ⟨e, hd, rfl⟩)⟩
  | ok u => exact ⟨_, finishTarget_eq_next.2 (.inl ⟨u, hd, rfl⟩)⟩

/-- A well-formed request answers a next state whenever the block is not busy, and `P_MAX_PAYLOAD` is within R9's
constraint (R44). -/
theorem exec_answers {i : Instr} {s : State} (hw : i.wellFormed) (hm : s.cfg.maxPayload ≤ 254)
    (hb : s.status.busy = false) : ∃ t, exec i s = .next t := by
  cases hc : operandError (accepted i.op.selector i.operands s) with
  | some e => exact ⟨_, exec_of_operandError hb hc⟩
  | none =>
    obtain ⟨hin, hpay, hresp⟩ := length_of_operandError_none hw hc
    cases i with
    | encode r =>
      have hl := hpay (.inl rfl)
      exact ⟨_, exec_encode hb hl (hl.trans hm)⟩
    | validateAck r => exact ⟨_, exec_validateAck hb (hin (.inl rfl))⟩
    | decodeHeader r =>
      have hl := hin (.inr (.inl rfl))
      cases hd : headerDecode r.data with
      | error e => exact ⟨_, exec_decodeHeader_error hb hl hd⟩
      | ok v => exact ⟨_, exec_decodeHeader_ok hb hl hd⟩
    | exchange r =>
      have hl := hpay (.inr rfl)
      exact ⟨_, exec_exchange hb hl (hl.trans hm) (hresp rfl)⟩
    | decodeFw r =>
      rw [exec_decodeFw (r := r) hb (hin (.inr (.inr (.inl rfl))))]
      exact finishFw_answers _ _
    | decodeTarget r =>
      rw [exec_decodeTarget (r := r) hb (hin (.inr (.inr (.inr rfl))))]
      exact finishTarget_answers _ _
    | firmwareVersion r => exact ⟨_, exec_firmwareVersion hb⟩
    | listPassiveTarget r => exact ⟨_, exec_listPassiveTarget hb⟩

/-- Settles O49: a legal state meets R9's constraint, and is in `IDLE` once an operation is done. -/
theorem everyRequestRunsWhenNotBusy : Obligations.EveryRequestRunsWhenNotBusy := by
  refine fun s i hs hw => ⟨exec_answers hw hs.params.1, fun hd => ?_⟩
  have hp := hs.doneIdle hd
  exact ⟨hp, by simpa [hp] using hs.busyIff⟩

/-! ### The presentation of a request -/

theorem exec_busy {i : Instr} {s : State} (hb : s.status.busy = true) : exec i s = .refused .busy := by
  cases i <;> exact start_busy hb

/-- A presented descriptor that decodes is run (R44). -/
theorem present_instr {h : Header} {data : List Byte} {i : Instr} {s : State} (hd : decode h data = .instr i) :
    present h data s = exec i s := by
  unfold present
  split <;> rename_i hb
  · rw [exec_busy hb]
  · rw [hd]

theorem step_request {s : State} {h : Header} {data : List Byte} {rest : List HostAction}
    (hh : s.host = .request h data :: rest) : step s = present h data { s with host := rest } := by
  simp only [step, portStep, hh]

/-- Settles O7. -/
theorem stepRunsDecodedRequest : Obligations.StepRunsDecodedRequest := by
  intro s h data rest i hh hd
  rw [step_request hh, present_instr hd]

/-- Settles O8: the placed word is the descriptor at the head of the host's actions. -/
theorem fetchWordRunsNext : Obligations.FetchWordRunsNext := by
  intro s nbits w i hd
  have hdec : decode (tableHeader nbits w) (tableData nbits w) = .instr i := by
    unfold decodeTableWord at hd
    split at hd
    · rename_i j hj
      rw [hj, Option.some.inj hd]
    · cases hd
  exact stepRunsDecodedRequest _ _ _ _ _ rfl hdec

/-- A selector outside the selector map names no operation (R72, R75). -/
theorem ofSelector_reserved {b : Byte}
    (h : b ∉ [0x01#8, 0x02#8, 0x03#8, 0x10#8, 0x20#8, 0x21#8, 0x30#8, 0x31#8]) : Op.ofSelector b = none := by
  cases ho : Op.ofSelector b with
  | none => rfl
  | some op =>
    have hm : op.selector ∈ [0x01#8, 0x02#8, 0x03#8, 0x10#8, 0x20#8, 0x21#8, 0x30#8, 0x31#8] := by
      cases op <;> decide
    exact absurd (selector_of_ofSelector ho ▸ hm) h

/-- A presented descriptor with a reserved selector completes with `E_BAD_OP` (R74, R75). -/
theorem present_reserved {h : Header} {data : List Byte} {s : State} (hb : s.status.busy = false)
    (hl : data.length = (Header.dlen h).toNat) (ho : Op.ofSelector (Header.opsel h) = none) :
    present h data s = .next (raise ⟨.badOp, infoOfByte (Header.opsel h)⟩
      (accepted (Header.opsel h) (Header.operands h data) s)) := by
  have he : operandError (accepted (Header.opsel h) (Header.operands h data) s) =
      some ⟨.badOp, infoOfByte (Header.opsel h)⟩ := by
    simp [operandError, latch, ho]
  have hd : decode h data = .rejected (.reservedSelector (Header.opsel h)) := by
    rw [decode, if_pos hl, ho]
  unfold present
  rw [hb, hd]
  exact start_of_operandError hb he

/-- Settles O4. -/
theorem reservedSelectorIsBadOp : Obligations.ReservedSelectorIsBadOp := by
  intro s h data rest hh hb hl hn
  have ho : Op.ofSelector (Header.opsel h) = none := ofSelector_reserved hn
  have hdl : BitVec.ofNat 16 data.length = Header.dlen h := by
    rw [show data.length = (Header.dlen h).toNat from hl, BitVec.ofNat_toNat, BitVec.setWidth_eq]
  have hreq : latch (Header.opsel h) (Header.operands h data) =
      ⟨Header.opsel h, Header.cardType h, Header.dlen h, Header.timeout h, Header.rlen h⟩ := by
    simp [latch, Header.operands, Operands.dlen, hdl]
  rw [step_request hh, present_reserved (s := { s with host := rest }) hb hl ho, accepted, ho, hreq]
  rfl

end Sys2Proof.Machine

/-! Proofs of the obligations on the frames of the acceptance steps (O26, O27, O31). -/

namespace Sys2Proof.Machine

/-! ### What the acceptance step of each operation can do -/

/-- What the rule of an operation whose checks pass makes of the accepted state `a` (R103, R110, R120, R136, R170, R176,
R185, R190). -/
def State.RunsTo (a : State) (op : Op) (r : Operands) (t : State) : Prop :=
  match op with
  | .encode => t = succeed (a.framed r.data)
  | .validateAck => t = succeed { a with ackok := Register.of (BitVec.ofBool (isAck r.data)) }
  | .decodeHeader => (∃ v, t = succeed { a with hdr := Register.of v }) ∨ t = raise (truncatedError 6) a
  | .exchange => t = { a.framed r.data with phase := .send }
  | .decodeFw => finishFw r.data a = .next t
  | .decodeTarget => finishTarget r.data a = .next t
  | .firmwareVersion => t = { a.framed fwPayload with phase := .send }
  | .listPassiveTarget => t = { a.framed (inListPayload r.cardType) with phase := .send }

/-- An acceptance step ends with an operand error, or goes on with the operation's rule (R74). -/
theorem exec_runsTo {op : Op} {r : Operands} {s t : State} (hw : r.wellFormed) (h : exec (op.instr r) s = .next t) :
    (∃ e, e.code ≠ .ok ∧ t = raise e (accepted op.selector r s)) ∨ (accepted op.selector r s).RunsTo op r t := by
  have hwf : (op.instr r).wellFormed := by cases op <;> exact hw
  obtain ⟨-, a, rfl, hc⟩ := exec_cases hwf h
  simp only [instr_op, instr_operands] at hc
  rcases hc with ⟨e, he, rfl⟩ | ⟨-, hc⟩
  · refine .inl ⟨e, ?_, rfl⟩
    rcases operandError_code he with hc | hc | hc <;> simp [hc]
  · refine .inr ?_
    rcases hc with ⟨rfl, -, rfl⟩ | ⟨rfl, rfl⟩ | ⟨rfl, ⟨v, -, rfl⟩ | ⟨-, rfl⟩⟩ | ⟨rfl, hf⟩ | ⟨rfl, hf⟩ |
      ⟨rfl | rfl | rfl, -, rfl⟩
    · rfl
    · rfl
    · exact .inl ⟨v, rfl⟩
    · exact .inr rfl
    · exact hf
    · exact hf
    · rfl
    · rfl
    · rfl

/-- The bytes of `DATA` after an acceptance (R33, R44). -/
theorem read_data_accepted (o : Byte) (r : Operands) (s : State) (a : Nat) :
    (accepted o r s).data.read a = if r.data.length ≤ 262 then r.data[a]? else s.data.read a := by
  rw [accepted_data]
  by_cases hl : r.data.length ≤ 262
  · rw [if_pos hl, if_pos hl, Memory.read_ofBytes]
  · rw [if_neg hl, if_neg hl]

/-- Settles O26, by the operation: each of the three writes one output beside what its acceptance writes. -/
theorem codecFrame : Obligations.CodecFrame := by
  intro r s t i hi hw h
  simp only [List.mem_cons, List.not_mem_nil, or_false] at hi
  rcases hi with rfl | rfl | rfl
  · have hd := read_data_accepted 0x01 r s
    rcases exec_runsTo (op := .encode) hw h with ⟨e, he, rfl⟩ | rfl
    · simpa [accepted, Op.selector, invalidate, he] using hd
    · simpa [accepted, Op.selector, invalidate, Memory.read_ofBytes] using hd
  · have hd := read_data_accepted 0x02 r s
    rcases exec_runsTo (op := .validateAck) hw h with ⟨e, -, rfl⟩ | rfl
    · simpa [accepted, Op.selector, invalidate] using hd
    · simpa [accepted, Op.selector, invalidate] using hd
  · have hd := read_data_accepted 0x03 r s
    rcases exec_runsTo (op := .decodeHeader) hw h with ⟨e, -, rfl⟩ | ⟨v, rfl⟩ | rfl
    · simpa [accepted, Op.selector, invalidate] using hd
    · simpa [accepted, Op.selector, invalidate] using hd
    · simpa [accepted, Op.selector, invalidate] using hd

/-- A target decode that succeeds delivers as many bytes as fit its count, `UIDLEN` (R176, R178). -/
theorem targetDecode_eq_take {u : Nat} {b w : List Byte} (h : targetDecode u b = .ok w) :
    w = (b.drop (u + 1)).take (w.length % 256) := by
  obtain ⟨l, -, -, hw, hl⟩ := targetDecode_ok h
  have hlt := l.isLt
  rw [Nat.mod_eq_of_lt (by omega), hl]
  exact hw

/-- Settles O27, by the operation and the outcome of its decode. -/
theorem responseDecodeFrame : Obligations.ResponseDecodeFrame := by
  intro r s t i hi hw h
  simp only [List.mem_cons, List.not_mem_nil, or_false] at hi
  rcases hi with rfl | rfl
  · have hd := read_data_accepted 0x20 r s
    rcases exec_runsTo (op := .decodeFw) hw h with ⟨e, -, rfl⟩ | hf
    · simpa [accepted, Op.selector, invalidate] using hd
    · rcases finishFw_eq_next.1 hf with ⟨v, -, rfl⟩ | ⟨e, -, rfl⟩
      · simpa [accepted, Op.selector, invalidate] using hd
      · simpa [accepted, Op.selector, invalidate] using hd
  · have hd := read_data_accepted 0x21 r s
    rcases exec_runsTo (op := .decodeTarget) hw h with ⟨e, -, rfl⟩ | hf
    · simpa [accepted, Op.selector, invalidate] using hd
    · rcases finishTarget_eq_next.1 hf with ⟨u, hu, rfl⟩ | ⟨e, -, rfl⟩
      · have hread : ∀ a, (Memory.writeBytes [] 0 u).read a =
            ((r.data.drop (s.cfg.uidLenOff + 1)).take (u.length % 256))[a]? :=
          fun a => (Memory.read_ofBytes u a).trans (congrArg (·[a]?) (targetDecode_eq_take hu))
        simpa [accepted, Op.selector, invalidate, hread] using hd
      · simpa [accepted, Op.selector, invalidate] using hd

/-- Settles O31, by the operation: each of the three frames its payload, or ends with an operand error. -/
theorem exchangeAcceptanceFrame : Obligations.ExchangeAcceptanceFrame := by
  intro r s t p hp hw h
  simp only [List.mem_cons, List.not_mem_nil, or_false] at hp
  rcases hp with rfl | rfl | rfl
  · have hd := read_data_accepted 0x10 r s
    rcases exec_runsTo (op := .exchange) hw h with ⟨e, -, rfl⟩ | rfl
    · simpa [accepted, Op.selector, invalidate] using hd
    · simpa [accepted, Op.selector, invalidate, Memory.read_ofBytes] using hd
  · have hd := read_data_accepted 0x30 r s
    rcases exec_runsTo (op := .firmwareVersion) hw h with ⟨e, -, rfl⟩ | rfl
    · simpa [accepted, Op.selector, invalidate] using hd
    · simpa [accepted, Op.selector, invalidate, Memory.read_ofBytes, fwPayload, cmdGetFw]
        using hd
  · have hd := read_data_accepted 0x31 r s
    rcases exec_runsTo (op := .listPassiveTarget) hw h with ⟨e, -, rfl⟩ | rfl
    · simpa [accepted, Op.selector, invalidate] using hd
    · simpa [accepted, Op.selector, invalidate, Memory.read_ofBytes, inListPayload, cmdInList,
        maxTargets] using hd

end Sys2Proof.Machine

/-! Proofs of the obligations on the host's reads and the refusals (O5, O6, O50). -/

namespace Sys2Proof.Machine

/-! ### A host read -/

theorem step_read {s : State} {r : HostReg} {rest : List HostAction} (hh : s.host = .read r :: rest) :
    step s = hostRead r { s with host := rest } := by
  simp only [step, portStep, hh]

/-- A result has no value while `BUSY = 1` (R251). -/
theorem hostRead_busy {r : HostReg} {s : State} (hr : r.isResult = true) (hb : s.status.busy = true) :
    hostRead r s = .fault (.resultWhileBusy r) := by
  simp [hostRead, hr, hb]

/-- A host read that `BUSY` does not stop delivers the value or its fault (R40, R251). -/
theorem hostRead_of_allowed {r : HostReg} {s : State} (h : (r.isResult && s.status.busy) = false) :
    hostRead r s = andThen (hostValue r s) fun v => .next { s with hostReads := s.hostReads ++ [(r, v)] } := by
  simp [hostRead, h]

/-- A host read of a result register, not busy: its value, or the fault of an unwritten one (R40). -/
theorem hostRead_word {r : HostReg} {s : State} {w : Nat} {v : Option (BitVec w)} (hb : s.status.busy = false)
    (hv : hostValue r s = readWord r v) :
    hostRead r s = match v.map (·.setWidth 32) with
      | some x => .next { s with hostReads := s.hostReads ++ [(r, x)] }
      | none => .fault (.unwrittenResult r) := by
  rw [hostRead_of_allowed (by simp [hb]), hv]
  cases v <;> rfl

/-- `STATUS` reads as its word, its error code being one of R210 (R29, I8). -/
theorem hostValue_status {s : State} (hn : ∀ n, s.status.errCode ≠ .reserved n) :
    hostValue .status s = .next s.status.word := by
  cases hc : s.status.errCode with
  | reserved n => exact absurd hc (hn n)
  | _ => simp [hostValue, hc]

/-- Settles O5, by the register read. -/
theorem hostReadsRegisters : Obligations.HostReadsRegisters := by
  intro s r rest hh
  rw [step_read hh]
  refine ⟨hostRead_busy (s := { s with host := rest }), ?_, ?_, ?_⟩
  · intro p hp hr hb
    simp only [List.mem_cons, List.not_mem_nil, or_false] at hp
    subst hr
    rcases hp with rfl | rfl | rfl | rfl | rfl | rfl | rfl
    · exact hostRead_word (s := { s with host := rest }) hb rfl
    · exact hostRead_word (s := { s with host := rest }) hb rfl
    · refine (hostRead_word (s := { s with host := rest }) (v := s.fwinfo.get) hb rfl).trans ?_
      cases s.fwinfo.get <;> simp
    · exact hostRead_word (s := { s with host := rest }) hb rfl
    · exact hostRead_word (s := { s with host := rest }) hb rfl
    · exact hostRead_word (s := { s with host := rest }) hb rfl
    · exact hostRead_word (s := { s with host := rest }) hb rfl
  · rintro rfl hn
    have hv := hostValue_status (s := { s with host := rest }) hn
    rw [hostRead_of_allowed rfl, hv, andThen_next]
  · rintro rfl
    rfl

section
variable {r : HostReg} {b : Buffer} {i n : Nat} {s : State} (hb : s.status.busy = false)
  (hv : hostValue r s = readByte r b i s)
include hb hv

/-- A host read of a byte of a buffer, not busy: the buffer is unwritten (R40). -/
theorem hostRead_byte_unwritten (hc : s.count b = none) : hostRead r s = .fault (.unwrittenResult r) := by
  rw [hostRead_of_allowed (by simp [hb]), hv, readByte, hc, andThen_fault]

/-- The index is at or above the valid count (R53). -/
theorem hostRead_byte_beyond (hc : s.count b = some n) (hi : n ≤ i) : hostRead r s = .fault (.bufferRead b) := by
  have hbyte : readByte r b i s = .fault (.bufferRead b) := by
    simp only [readByte, hc]
    split
    · exact if_neg (Nat.not_lt.2 hi)
    · rfl
  rw [hostRead_of_allowed (by simp [hb]), hv, hbyte, andThen_fault]

/-- The index is below it, and the byte there is `v` (R40). -/
theorem hostRead_byte_valid {v : Byte} (hc : s.count b = some n) (hi : i < n) (hread : (s.buffer b).read i = some v) :
    hostRead r s = .next { s with hostReads := s.hostReads ++ [(r, v.setWidth 32)] } := by
  have hbyte : readByte r b i s = .next (v.setWidth 32) := by simp [readByte, hc, hread, hi]
  rw [hostRead_of_allowed (by simp [hb]), hv, hbyte, andThen_next]

end

/-- The four reads of a byte of a buffer: results, each a byte of its buffer (R34 to R36, R39). -/
theorem hostValue_byte {p : Buffer × HostReg} {i : Nat} (s : State)
    (hp : p ∈ [(Buffer.uid, HostReg.uid i), (.frame, .frame i), (.ackbuf, .ackbuf i), (.rxbuf, .rxbuf i)]) :
    p.2.isResult = true ∧ hostValue p.2 s = readByte p.2 p.1 i s := by
  simp only [List.mem_cons, List.not_mem_nil, or_false] at hp
  rcases hp with rfl | rfl | rfl | rfl <;> exact ⟨rfl, rfl⟩

/-- Settles O6, by the valid count of the buffer. -/
theorem hostReadsBufferBytes : Obligations.HostReadsBufferBytes := by
  intro s i rest p hp hh
  obtain ⟨hr, hv⟩ := hostValue_byte { s with host := rest } hp
  rw [step_read hh]
  exact ⟨hostRead_busy (s := { s with host := rest }) hr,
    fun hb hc => hostRead_byte_unwritten (s := { s with host := rest }) hb hv hc,
    fun n hb hc hi => hostRead_byte_beyond (s := { s with host := rest }) hb hv hc hi,
    fun n v hb hc hi hread => hostRead_byte_valid (s := { s with host := rest }) hb hv hc hi hread⟩

/-! ### What is never refused -/

/-- The outcome is no refusal. -/
def NotRefused {α : Type} (o : Result α) : Prop := ∀ e, o ≠ .refused e

theorem notRefused_next {α : Type} (a : α) : NotRefused (.next a : Result α) := nofun
theorem notRefused_fault {α : Type} (f : Fault) : NotRefused (.fault f : Result α) := nofun

theorem notRefused_andThen {α β : Type} {o : Result α} {k : α → Result β} (ho : NotRefused o)
    (hk : ∀ a, NotRefused (k a)) : NotRefused (andThen o k) := by
  cases o with
  | next a => exact hk a
  | fault f => exact notRefused_fault f
  | refused e => exact absurd rfl (ho e)

/-! The accesses of buffers and of the transport port -/

theorem notRefused_readValid (b : Buffer) (s : State) : NotRefused (readValid b s) := by
  intro e h
  unfold readValid at h
  split at h
  · cases h
  · unfold memRead at h
    repeat' split at h
    all_goals cases h

theorem notRefused_memWrite (b : Buffer) (i : Nat) (v : List Byte) (s : State) : NotRefused (memWrite b i v s) := by
  intro e h
  unfold memWrite at h
  split at h <;> cases h

theorem notRefused_writeFrame (pd : List Byte) (s : State) : NotRefused (writeFrame pd s) :=
  notRefused_andThen (notRefused_memWrite _ _ _ _) fun _ => notRefused_next _

theorem notRefused_portWrite {w : List Byte} {s : State} {k : Bool → State → Result State}
    (hk : ∀ ok s, NotRefused (k ok s)) : NotRefused (portWrite w s k) := by
  unfold portWrite
  split
  · exact hk _ _
  · exact hk _ _
  · exact notRefused_next _

theorem notRefused_portRead {n : Nat} {s : State} {k : Option (List Byte) → State → Result State}
    (hk : ∀ r s, NotRefused (k r s)) : NotRefused (portRead n s k) := by
  unfold portRead
  split
  · exact hk _ _
  · exact hk _ _
  · exact notRefused_next _

theorem notRefused_portProbe {s : State} {k : Byte → State → Result State}
    (hk : ∀ b s, NotRefused (k b s)) : NotRefused (portProbe s k) := by
  unfold portProbe
  split
  · exact hk _ _
  · exact notRefused_next _

/-! The phases -/

theorem notRefused_finishFw (b : List Byte) (s : State) : NotRefused (finishFw b s) := by
  obtain ⟨t, ht⟩ := finishFw_answers b s
  exact ht ▸ notRefused_next t

theorem notRefused_finishTarget (b : List Byte) (s : State) : NotRefused (finishTarget b s) := by
  obtain ⟨t, ht⟩ := finishTarget_answers b s
  exact ht ▸ notRefused_next t

theorem notRefused_sendStep (s : State) : NotRefused (sendStep s) := by
  refine notRefused_andThen (notRefused_readValid _ _) fun w => notRefused_portWrite fun ok s => ?_
  cases ok <;> exact notRefused_next _

theorem notRefused_waitStep {code : ErrCode} {leave : State → Result State} (s : State)
    (hl : ∀ s, NotRefused (leave s)) : NotRefused (waitStep code leave s) := by
  unfold waitStep
  split
  · exact notRefused_next _
  · refine notRefused_portProbe fun b s => ?_
    dsimp only
    repeat' split
    · exact hl _
    · exact notRefused_next _
    · exact notRefused_next _
    · exact notRefused_next _

theorem notRefused_leaveWait2 (s : State) : NotRefused (leaveWait2 s) := by
  unfold leaveWait2
  split
  · exact notRefused_fault _
  · exact notRefused_next _
  · exact notRefused_next _

theorem notRefused_ackReadStep (s : State) : NotRefused (ackReadStep s) := by
  refine notRefused_portRead fun r s => ?_
  cases r with
  | none => exact notRefused_next _
  | some r =>
    refine notRefused_andThen (notRefused_memWrite _ _ _ _) fun s => ?_
    dsimp only
    split <;> exact notRefused_next _

theorem notRefused_respReadStep (s : State) : NotRefused (respReadStep s) := by
  unfold respReadStep
  split
  · exact notRefused_fault _
  · refine notRefused_portRead fun r s => ?_
    cases r with
    | none => exact notRefused_next _
    | some r =>
      refine notRefused_andThen (notRefused_memWrite _ _ _ _) fun s => ?_
      dsimp only
      split <;> exact notRefused_next _

theorem notRefused_parseStep (s : State) : NotRefused (parseStep s) := by
  unfold parseStep
  split
  · exact notRefused_andThen (notRefused_readValid _ _) fun b => notRefused_finishFw b s
  · exact notRefused_andThen (notRefused_readValid _ _) fun b => notRefused_finishTarget b s
  · exact notRefused_fault _

/-- A step of the block is never refused. -/
theorem notRefused_blockStep (s : State) : NotRefused (blockStep s) := by
  unfold blockStep
  split
  · exact notRefused_next _
  · unfold phaseStep
    split
    · exact notRefused_next _
    · exact notRefused_sendStep s
    · exact notRefused_waitStep s fun _ => notRefused_next _
    · exact notRefused_next _
    · exact notRefused_ackReadStep s
    · exact notRefused_next _
    · exact notRefused_waitStep s notRefused_leaveWait2
    · exact notRefused_respReadStep s
    · exact notRefused_parseStep s
    · exact notRefused_fault _

/-! The requests -/

theorem notRefused_start {o : Byte} {r : Operands} {s : State} {k : State → Result State}
    (hb : s.status.busy = false) (hk : ∀ s, NotRefused (k s)) : NotRefused (start o r s k) := by
  rw [start_idle hb]
  split
  · exact notRefused_next _
  · exact hk _

/-- No operation is refused while the block is not busy (R44). -/
theorem notRefused_exec {i : Instr} {s : State} (hb : s.status.busy = false) : NotRefused (exec i s) := by
  have hdata := notRefused_readValid .data
  cases i with
  | encode r =>
    exact notRefused_start hb fun s => notRefused_andThen (hdata s) fun pd =>
      notRefused_andThen (notRefused_writeFrame pd s) fun _ => notRefused_next _
  | validateAck r =>
    exact notRefused_start hb fun s => notRefused_andThen (hdata s) fun _ => notRefused_next _
  | decodeHeader r =>
    refine notRefused_start hb fun s => notRefused_andThen (hdata s) fun b => ?_
    split <;> exact notRefused_next _
  | exchange r =>
    exact notRefused_start hb fun s => notRefused_andThen (hdata s) fun pd =>
      notRefused_andThen (notRefused_writeFrame pd s) fun _ => notRefused_next _
  | decodeFw r =>
    exact notRefused_start hb fun s => notRefused_andThen (hdata s) fun b => notRefused_finishFw b s
  | decodeTarget r =>
    exact notRefused_start hb fun s => notRefused_andThen (hdata s) fun b => notRefused_finishTarget b s
  | firmwareVersion r =>
    exact notRefused_start hb fun s => notRefused_andThen (notRefused_writeFrame _ s) fun _ => notRefused_next _
  | listPassiveTarget r =>
    exact notRefused_start hb fun s => notRefused_andThen (notRefused_writeFrame _ s) fun _ => notRefused_next _

/-! The host's reads -/

theorem notRefused_readWord {w : Nat} (r : HostReg) (v : Option (BitVec w)) : NotRefused (readWord r v) := by
  cases v
  · exact notRefused_fault _
  · exact notRefused_next _

theorem notRefused_readByte (r : HostReg) (b : Buffer) (i : Nat) (s : State) : NotRefused (readByte r b i s) := by
  intro e h
  unfold readByte at h
  repeat' split at h
  all_goals cases h

theorem notRefused_hostValue (r : HostReg) (s : State) : NotRefused (hostValue r s) := by
  cases r with
  | status =>
    intro e h
    cases hc : s.status.errCode <;> simp [hostValue, hc] at h
  | errinfo => exact notRefused_next _
  | uid i => exact notRefused_readByte _ _ _ _
  | frame i => exact notRefused_readByte _ _ _ _
  | ackbuf i => exact notRefused_readByte _ _ _ _
  | rxbuf i => exact notRefused_readByte _ _ _ _
  | _ => exact notRefused_readWord _ _

theorem notRefused_hostRead (r : HostReg) (s : State) : NotRefused (hostRead r s) := by
  unfold hostRead
  split
  · exact notRefused_fault _
  · exact notRefused_andThen (notRefused_hostValue r s) fun _ => notRefused_next _

/-- A presentation is refused while busy, and for a wrong number of data bytes (R44, R70, R250). -/
theorem present_eq_refused {h : Header} {data : List Byte} {s : State} {e : Refusal}
    (hp : present h data s = .refused e) :
    e = .busy ∧ s.status.busy = true ∨
      e = .malformedRequest ∧ s.status.busy = false ∧ data.length ≠ (Header.dlen h).toNat := by
  cases hb : s.status.busy with
  | true =>
    rw [present, if_pos hb] at hp
    cases hp
    exact .inl ⟨rfl, rfl⟩
  | false =>
    rw [present, if_neg (by simp [hb])] at hp
    split at hp
    · exact absurd hp (notRefused_exec hb e)
    · exact absurd hp (notRefused_start hb notRefused_next e)
    · rename_i hd
      cases hp
      refine .inr ⟨rfl, rfl, fun hl => ?_⟩
      rw [decode, if_pos hl] at hd
      split at hd <;> cases hd

/-- Settles O50, by the action of the host: only a presentation can be refused. -/
theorem onlyPresentationsAreRefused : Obligations.OnlyPresentationsAreRefused := by
  intro s e h
  unfold step portStep at h
  split at h
  · exact absurd h (notRefused_blockStep _ e)
  · exact absurd h (notRefused_blockStep _ e)
  · split at h
    · exact absurd h (notRefused_blockStep _ e)
    · cases h
  · cases h
  · exact absurd h (notRefused_hostRead _ _ e)
  · rename_i hd data rest hh
    exact ⟨hd, data, rest, hh, present_eq_refused (s := { s with host := rest }) h⟩

end Sys2Proof.Machine

/-! Proofs of the obligations on the steps of the block (O51, O57). -/

namespace Sys2Proof.Machine

/-! ### The order of the phases -/

/-- From `s` to `t` the phase goes forward or to `IDLE`; else it stays, in a wait or with an event in progress (R23). -/
def State.GoesOn (s t : State) : Prop :=
  t.phase = .idle ∨ s.phase.code.toNat < t.phase.code.toNat ∨
    (t.phase = s.phase ∧ (s.phase.isWait ∨ t.inProgress ≠ none))

/-- A phase and one after it, by their numbers (R22). -/
theorem State.GoesOn.forward {s t : State} (p q : Phase) (hs : s.phase = p) (ht : t.phase = q)
    (h : p.code.toNat < q.code.toNat) : s.GoesOn t := by
  rw [← hs, ← ht] at h
  exact .inr (.inl h)

theorem finishFw_phase {b : List Byte} {s t : State} (h : finishFw b s = .next t) : t.phase = .idle := by
  rcases finishFw_eq_next.1 h with ⟨v, -, rfl⟩ | ⟨e, -, rfl⟩ <;> rfl

theorem finishTarget_phase {b : List Byte} {s t : State} (h : finishTarget b s = .next t) : t.phase = .idle := by
  rcases finishTarget_eq_next.1 h with ⟨u, -, rfl⟩ | ⟨e, -, rfl⟩ <;> rfl

theorem phaseStep_goesOn {s t : State} (h : phaseStep s = .next t) : s.GoesOn t := by
  rcases phaseStep_cases h with ⟨c, a, -, rfl⟩ | ⟨hp, rfl⟩ | ⟨hp, w, -, ⟨-, rfl⟩ | ⟨-, rfl⟩⟩ | ⟨hp, -, rfl⟩ |
    ⟨hp, -, b, -, hb⟩ | ⟨hp, rfl⟩ | ⟨hp, ha⟩ | ⟨hp, rfl⟩ | ⟨hp, n, -, hr⟩ | ⟨-, b, -, hf⟩
  · exact .inr (.inr ⟨rfl, .inr nofun⟩)
  · exact .inl hp
  · exact .forward .send .wait1 hp rfl (by decide)
  · exact .inl rfl
  · exact .inr (.inr ⟨rfl, .inl hp⟩)
  · rcases hb with ⟨-, h1, rfl⟩ | ⟨-, -, -, rfl⟩ | ⟨-, h2, -, rfl⟩ | ⟨-, -, rfl⟩ | ⟨-, -, -, rfl⟩ | ⟨-, -, -, rfl⟩
    · exact .forward .wait1 .settle1 h1 rfl (by decide)
    · exact .inl rfl
    · exact .forward .wait2 .respRead h2 rfl (by decide)
    · exact .inr (.inr ⟨rfl, .inl hp⟩)
    · exact .inl rfl
    · exact .inr (.inr ⟨rfl, .inl hp⟩)
  · exact .forward .settle1 .ackRead hp rfl (by decide)
  · rcases ha with ⟨-, rfl⟩ | ⟨r, -, v, rfl, ⟨e, -, rfl⟩ | ⟨-, rfl⟩⟩
    · exact .inl rfl
    · exact .inl rfl
    · exact .forward .ackRead .settle2 hp rfl (by decide)
  · exact .forward .settle2 .wait2 hp rfl (by decide)
  · rcases hr with ⟨-, rfl⟩ | ⟨r, -, -, v, rfl, ⟨-, rfl⟩ | ⟨-, rfl⟩⟩
    · exact .inl rfl
    · exact .inl rfl
    · exact .forward .respRead .parse hp rfl (by decide)
  · rcases hf with ⟨-, hf⟩ | ⟨-, hf⟩
    · exact .inl (finishFw_phase hf)
    · exact .inl (finishTarget_phase hf)

theorem blockStep_goesOn {s t : State} (h : blockStep s = .next t) : s.GoesOn t := by
  rcases blockStep_cases h with ⟨hi, rfl⟩ | ⟨-, h⟩
  · exact .inr (.inr ⟨rfl, .inr hi⟩)
  · exact phaseStep_goesOn h

/-- An acceptance, which comes in `IDLE`, leaves the block there or in `SEND` (R44, R136). -/
theorem exec_phase {i : Instr} {s t : State} (hw : i.wellFormed) (h : exec i s = .next t) :
    t.phase = .idle ∨ t.phase = .send := by
  obtain ⟨-, a, rfl, ⟨e, -, rfl⟩ | ⟨-, hc⟩⟩ := exec_cases hw h
  · exact .inl rfl
  · rcases hc with ⟨-, -, rfl⟩ | ⟨-, rfl⟩ | ⟨-, ⟨v, -, rfl⟩ | ⟨-, rfl⟩⟩ | ⟨-, hf⟩ | ⟨-, hf⟩ | ⟨-, -, rfl⟩
    · exact .inl rfl
    · exact .inl rfl
    · exact .inl rfl
    · exact .inl rfl
    · exact .inl (finishFw_phase hf)
    · exact .inl (finishTarget_phase hf)
    · exact .inr rfl

/-- Settles O51, by the agent that moves: the host moves the phase by a request in `IDLE` and by a reset only. -/
theorem phaseMovesForward : Obligations.PhaseMovesForward := by
  intro s t hs h
  rcases step_cases h with ⟨rest, -, -, hb⟩ | ⟨rest, -, hb, rfl⟩ | ⟨rest, -, rfl⟩ | ⟨r, rest, v, hh, -, -, rfl⟩ |
    ⟨hd, data, rest, i, -, -, hw, he⟩ | ⟨hd, data, rest, -, -, -, -, rfl⟩
  · rcases blockStep_goesOn hb with hp | hp | ⟨hp, hw | hi⟩
    · exact .inl hp
    · exact .inr (.inl hp)
    · exact .inr (.inr ⟨hp, .inl hw⟩)
    · exact .inr (.inr ⟨hp, .inr (.inl hi)⟩)
  · exact .inl (idle_of_not_busy (s := s) hs hb)
  · exact .inl rfl
  · exact .inr (.inr ⟨rfl, .inr (.inr ⟨r, rest, hh⟩)⟩)
  · rcases exec_phase hw he with hp | hp
    · exact .inl hp
    · have hb : s.status.busy = false := (exec_cases hw he).1
      have hi := idle_of_not_busy hs hb
      exact .inr (.inl (by rw [hp, hi]; decide))
  · exact .inl rfl

/-! ### What a step of the block leaves unchanged -/

/-- What a step of the block from `s` to `t` leaves as it is: the latch, `DATA`, `FRAME`, two results and the host's
side in every phase, the rest but in the phases that write it (R24, R28, R33, R37, R142). -/
structure State.BlockFrame (s t : State) : Prop where
  req : t.req = s.req
  ackok : t.ackok = s.ackok
  hdr : t.hdr = s.hdr
  flen : t.flen = s.flen
  host : t.host = s.host
  hostReads : t.hostReads = s.hostReads
  data : t.data = s.data
  frame : t.frame = s.frame
  ack : s.phase ≠ .ackRead → t.ackcnt = s.ackcnt ∧ t.ackbuf = s.ackbuf
  rxbuf : s.phase ≠ .respRead → t.rxbuf = s.rxbuf
  rxcnt : s.phase ≠ .respRead → s.phase ≠ .wait2 → t.rxcnt = s.rxcnt
  parse : s.phase ≠ .parse → t.fwinfo = s.fwinfo ∧ t.uidlen = s.uidlen ∧ t.uid = s.uid
  laststat : ¬ s.phase.isWait → t.laststat = s.laststat

theorem State.BlockFrame.refl (s : State) : s.BlockFrame s :=
  ⟨rfl, rfl, rfl, rfl, rfl, rfl, rfl, rfl, fun _ => ⟨rfl, rfl⟩, fun _ => rfl, fun _ _ => rfl,
    fun _ => ⟨rfl, rfl, rfl⟩, fun _ => rfl⟩

section
variable {s : State} {p : Phase} {w : Bool} {n : Nat} {st : Status} {e : Half} {c : Option Call} {es : List Event}
  {a : Adapter}

/-- In every phase the phase registers, the flags and the transport port may change. -/
theorem State.BlockFrame.of_control : s.BlockFrame
    { s with phase := p, wsub := w, waitacc := n, status := st, errinfo := e, inProgress := c, trace := es
             adapter := a } :=
  { State.BlockFrame.refl s with }

/-- A wait writes `LASTSTAT` (R131). -/
theorem State.BlockFrame.of_wait {b : Byte} (hp : s.phase.isWait) : s.BlockFrame
    { s with phase := p, wsub := w, waitacc := n, status := st, errinfo := e, trace := es, adapter := a
             laststat := b } :=
  { State.BlockFrame.refl s with laststat := fun h => absurd hp h }

/-- The second wait, when it ends an EXCHANGE that asks for no bytes, also writes `RXCNT` (R141). -/
theorem State.BlockFrame.of_wait2 {b : Byte} {x : Register 9} (hp : s.phase = .wait2) : s.BlockFrame
    { s with phase := p, status := st, errinfo := e, trace := es, adapter := a, laststat := b, rxcnt := x } :=
  { State.BlockFrame.refl s with
    rxcnt := fun _ h => absurd hp h, laststat := fun h => absurd (.inr hp) h }

/-- The ack read writes `ACKCNT` and `ACKBUF` (R138). -/
theorem State.BlockFrame.of_ackRead {k : Register 3} {m : Memory} (hp : s.phase = .ackRead) : s.BlockFrame
    { s with phase := p, status := st, errinfo := e, trace := es, adapter := a, ackcnt := k, ackbuf := m } :=
  { State.BlockFrame.refl s with ack := fun h => absurd hp h }

/-- The response read writes `RXCNT` and `RXBUF` (R142). -/
theorem State.BlockFrame.of_respRead {x : Register 9} {m : Memory} (hp : s.phase = .respRead) : s.BlockFrame
    { s with phase := p, status := st, errinfo := e, trace := es, adapter := a, rxcnt := x, rxbuf := m } :=
  { State.BlockFrame.refl s with
    rxbuf := fun h => absurd hp h, rxcnt := fun h => absurd hp h }

/-- The parse writes the result of its composite (R185, R190). -/
theorem State.BlockFrame.of_parse {f : Register 32} {l : Register 8} {m : Memory} (hp : s.phase = .parse) :
    s.BlockFrame { s with phase := p, status := st, errinfo := e, fwinfo := f, uidlen := l, uid := m } :=
  { State.BlockFrame.refl s with parse := fun h => absurd hp h }

end

theorem phaseStep_frame {s t : State} (h : phaseStep s = .next t) : s.BlockFrame t := by
  rcases phaseStep_cases h with ⟨c, a, -, rfl⟩ | ⟨-, rfl⟩ | ⟨-, w, -, ⟨-, rfl⟩ | ⟨-, rfl⟩⟩ | ⟨-, -, rfl⟩ |
    ⟨hp, -, b, -, hb⟩ | ⟨-, rfl⟩ | ⟨hp, ha⟩ | ⟨-, rfl⟩ | ⟨hp, n, -, hr⟩ | ⟨hp, b, -, hf⟩
  · exact .of_control
  · exact .of_control
  · exact .of_control
  · exact .of_control
  · exact .of_control
  · rcases hb with ⟨-, -, rfl⟩ | ⟨-, h2, -, rfl⟩ | ⟨-, -, -, rfl⟩ | ⟨-, -, rfl⟩ | ⟨-, -, -, rfl⟩ | ⟨-, -, -, rfl⟩
    · exact .of_wait hp
    · exact .of_wait2 h2
    · exact .of_wait hp
    · exact .of_wait hp
    · exact .of_wait hp
    · exact .of_wait hp
  · exact .of_control
  · rcases ha with ⟨-, rfl⟩ | ⟨r, -, v, rfl, ⟨e, -, rfl⟩ | ⟨-, rfl⟩⟩
    · exact .of_ackRead hp
    · exact .of_ackRead hp
    · exact .of_ackRead hp
  · exact .of_control
  · rcases hr with ⟨-, rfl⟩ | ⟨r, -, -, v, rfl, ⟨-, rfl⟩ | ⟨-, rfl⟩⟩
    · exact .of_respRead hp
    · exact .of_respRead hp
    · exact .of_respRead hp
  · rcases hf with ⟨-, hf⟩ | ⟨-, hf⟩
    · rcases finishFw_eq_next.1 hf with ⟨v, -, rfl⟩ | ⟨e, -, rfl⟩
      · exact .of_parse hp
      · exact .of_control
    · rcases finishTarget_eq_next.1 hf with ⟨u, -, rfl⟩ | ⟨e, -, rfl⟩
      · exact .of_parse hp
      · exact .of_control

theorem blockStep_frame {s t : State} (h : blockStep s = .next t) : s.BlockFrame t := by
  rcases blockStep_cases h with ⟨-, rfl⟩ | ⟨-, h⟩
  · exact .of_control
  · exact phaseStep_frame h

/-- In `IDLE` a step of the block changes nothing (R22, R145). -/
theorem blockStep_idle {s t : State} (hp : s.phase = .idle) (h : blockStep s = .next t) : t = s := by
  rcases blockStep_cases h with ⟨-, rfl⟩ | ⟨-, h⟩
  · rfl
  · rw [phaseStep, hp] at h
    cases h
    rfl

/-- Settles O57. -/
theorem blockStepFrame : Obligations.BlockStepFrame := by
  intro s t hh h
  rw [step_block hh] at h
  have hf := blockStep_frame h
  refine ⟨fun hp => blockStep_idle hp h, fun hi => ?_, hf.req, hf.ackok, hf.hdr, hf.flen, hf.host, hf.hostReads,
    fun a => ?_, fun hp => ?_, fun hp a => ?_, hf.rxcnt, fun hp => ?_, hf.laststat⟩
  · rw [blockStep_of_some hi] at h
    cases h
    rfl
  · exact ⟨by rw [hf.data], by rw [hf.frame]⟩
  · obtain ⟨hc, hb⟩ := hf.ack hp
    exact ⟨hc, fun a => by rw [hb]⟩
  · rw [hf.rxbuf hp]
  · obtain ⟨hfw, hl, hu⟩ := hf.parse hp
    exact ⟨hfw, hl, fun a => by rw [hu]⟩

end Sys2Proof.Machine

/-! Proofs of the obligations that compare two runs of the block (O58, O59): a relation that the block cannot tell apart
is kept by its steps. -/

namespace Sys2Proof.Machine

/-! ### Outcomes of two related states -/

/-- Two outcomes alike: related next states, or the same stop. -/
inductive Alike (R : State → State → Prop) : Result State → Result State → Prop where
  | next {s t : State} (h : R s t) : Alike R (.next s) (.next t)
  | fault (f : Fault) : Alike R (.fault f) (.fault f)
  | refused (e : Refusal) : Alike R (.refused e) (.refused e)

theorem Alike.andThen {R : State → State → Prop} {o p : Result State} {k l : State → Result State} (h : Alike R o p)
    (hk : ∀ s t, R s t → Alike R (k s) (l t)) : Alike R (andThen o k) (andThen p l) := by
  cases h with
  | next h => exact hk _ _ h
  | fault f => exact .fault f
  | refused e => exact .refused e

/-- The same value read on both sides. -/
theorem Alike.andThen_same {R : State → State → Prop} {α : Type} {k l : α → Result State} (o : Result α)
    (hk : ∀ a, Alike R (k a) (l a)) : Alike R (Machine.andThen o k) (Machine.andThen o l) := by
  cases o with
  | next a => exact hk a
  | fault f => exact .fault f
  | refused e => exact .refused e

theorem Alike.ite {R : State → State → Prop} {c d : Prop} [Decidable c] [Decidable d] {o o' p p' : Result State}
    (hcd : c ↔ d) (ht : Alike R o p) (he : Alike R o' p') : Alike R (if c then o else o') (if d then p else p') := by
  by_cases hc : c
  · rwa [if_pos hc, if_pos (hcd.1 hc)]
  · rwa [if_neg hc, if_neg (mt hcd.2 hc)]

theorem Alike.of_next {R : State → State → Prop} {o p : Result State} {s : State} (h : Alike R o p) (ho : o = .next s) :
    ∃ t, p = .next t ∧ R s t := by
  cases h with
  | next h =>
    cases ho
    exact ⟨_, rfl, h⟩
  | fault f => cases ho
  | refused e => cases ho

/-- Alike by a map of states: the one outcome is the other, mapped. -/
theorem Alike.eq_mapNext {f : State → State} {o p : Result State} (h : Alike (fun s t => t = f s) o p) :
    p = mapNext f o := by
  cases h with
  | next h =>
    cases h
    rfl
  | fault f => rfl
  | refused e => rfl

/-! ### What the block cannot tell apart -/

/-- A relation between states that agree on everything a step of the block reads, and that each write of such a step
keeps (R20 to R39, R131 to R142). -/
structure Indistinct (R : State → State → Prop) : Prop where
  cfg : ∀ {s t}, R s t → s.cfg = t.cfg
  phase : ∀ {s t}, R s t → s.phase = t.phase
  wsub : ∀ {s t}, R s t → s.wsub = t.wsub
  waitacc : ∀ {s t}, R s t → s.waitacc = t.waitacc
  req : ∀ {s t}, R s t → s.req = t.req
  adapter : ∀ {s t}, R s t → s.adapter = t.adapter
  inProgress : ∀ {s t}, R s t → s.inProgress = t.inProgress
  flen : ∀ {s t}, R s t → s.flen.get = t.flen.get
  frame : ∀ {s t}, R s t → s.frame = t.frame
  rxcnt : ∀ {s t}, R s t → s.rxcnt.get = t.rxcnt.get
  rxbuf : ∀ {s t}, R s t → s.rxbuf = t.rxbuf
  ackbuf : ∀ {s t}, R s t → s.ackbuf = t.ackbuf
  uid : ∀ {s t}, R s t → s.op = some .listPassiveTarget → s.uid = t.uid
  toPhase : ∀ {s t} (p : Phase), R s t → R { s with phase := p } { t with phase := p }
  toWsub : ∀ {s t} (w : Bool), R s t → R { s with wsub := w } { t with wsub := w }
  toWaitacc : ∀ {s t} (n : Nat), R s t → R { s with waitacc := n } { t with waitacc := n }
  toLaststat : ∀ {s t} (b : Byte), R s t → R { s with laststat := b } { t with laststat := b }
  toAdapter : ∀ {s t} (a : Adapter), R s t → R { s with adapter := a } { t with adapter := a }
  toInProgress : ∀ {s t} (c : Option Call), R s t → R { s with inProgress := c } { t with inProgress := c }
  emit : ∀ {s t} (e : Event), R s t → R (s.emit e) (t.emit e)
  complete : ∀ {s t} (code : ErrCode) (info : Half), R s t → R (complete code info s) (complete code info t)
  toAckcnt : ∀ {s t} (n : BitVec 3), R s t → R { s with ackcnt := .of n } { t with ackcnt := .of n }
  toAckbuf : ∀ {s t} (m : Memory), R s t → R { s with ackbuf := m } { t with ackbuf := m }
  toRxcnt : ∀ {s t} (n : BitVec 9), R s t → R { s with rxcnt := .of n } { t with rxcnt := .of n }
  toRxbuf : ∀ {s t} (m : Memory), R s t → R { s with rxbuf := m } { t with rxbuf := m }
  toFwinfo : ∀ {s t} (v : BitVec 32), R s t → R { s with fwinfo := .of v } { t with fwinfo := .of v }
  toUidlen : ∀ {s t} (n : BitVec 8), R s t → R { s with uidlen := .of n } { t with uidlen := .of n }
  toUid : ∀ {s t} (m : Memory), R s t → R { s with uid := m } { t with uid := m }

namespace Indistinct
variable {R : State → State → Prop} (hR : Indistinct R) {s t : State} (h : R s t)
include hR h

theorem op : s.op = t.op := by rw [State.op, State.op, hR.req h]

theorem respLen : s.respLen = t.respLen := by rw [State.respLen, State.respLen, hR.op h, hR.req h, hR.cfg h]

theorem readValid_frame : readValid .frame s = readValid .frame t := by
  simp only [readValid, memRead, State.count, State.buffer, hR.flen h, hR.frame h]

theorem readValid_rxbuf : readValid .rxbuf s = readValid .rxbuf t := by
  simp only [readValid, memRead, State.count, State.buffer, hR.rxcnt h, hR.rxbuf h]

theorem enterWait (p : Phase) : R (enterWait p s) (enterWait p t) := hR.toWsub _ (hR.toWaitacc _ (hR.toPhase p h))

theorem portDelay (n : Nat) : R (portDelay n s) (portDelay n t) := hR.emit _ h

/-! Buffer writes and transport events -/

theorem memWrite_ackbuf (v : List Byte) : Alike R (memWrite .ackbuf 0 v s) (memWrite .ackbuf 0 v t) := by
  refine .ite Iff.rfl (.next ?_) (.fault _)
  simp only [State.buffer, hR.ackbuf h]
  exact hR.toAckbuf _ h

theorem memWrite_rxbuf (v : List Byte) : Alike R (memWrite .rxbuf 0 v s) (memWrite .rxbuf 0 v t) := by
  refine .ite Iff.rfl (.next ?_) (.fault _)
  simp only [State.buffer, hR.rxbuf h]
  exact hR.toRxbuf _ h

theorem memWrite_uid (v : List Byte) (ho : s.op = some .listPassiveTarget) :
    Alike R (memWrite .uid 0 v s) (memWrite .uid 0 v t) := by
  refine .ite Iff.rfl (.next ?_) (.fault _)
  simp only [State.buffer, hR.uid h ho]
  exact hR.toUid _ h

theorem hang (c : Call) (a : Adapter) : Alike R (.next (State.hang c { s with adapter := a }))
    (.next (State.hang c { t with adapter := a })) :=
  .next (hR.toInProgress _ (hR.emit _ (hR.toAdapter a h)))

theorem portWrite (w : List Byte) {k : Bool → State → Result State}
    (hk : ∀ ok s t, R s t → Alike R (k ok s) (k ok t)) : Alike R (portWrite w s k) (portWrite w t k) := by
  simp only [Machine.portWrite, hR.adapter h]
  rcases t.adapter.drawWrite with ⟨_ | _ | _, a⟩
  · exact hk _ _ _ (hR.emit _ (hR.toAdapter a h))
  · exact hk _ _ _ (hR.emit _ (hR.toAdapter a h))
  · exact hR.hang h _ a

theorem portRead (n : Nat) {k : Option (List Byte) → State → Result State}
    (hk : ∀ r s t, R s t → Alike R (k r s) (k r t)) : Alike R (portRead n s k) (portRead n t k) := by
  simp only [Machine.portRead, hR.adapter h]
  rcases t.adapter.drawRead with ⟨_ | _ | _, a⟩
  · exact hk _ _ _ (hR.emit _ (hR.toAdapter a h))
  · exact hk _ _ _ (hR.emit _ (hR.toAdapter a h))
  · exact hR.hang h _ a

theorem portProbe {k : Byte → State → Result State}
    (hk : ∀ b s t, R s t → Alike R (k b s) (k b t)) : Alike R (portProbe s k) (portProbe t k) := by
  simp only [Machine.portProbe, hR.adapter h]
  rcases t.adapter.drawProbe with ⟨_ | _, a⟩
  · exact hk _ _ _ (hR.emit _ (hR.toAdapter a h))
  · exact hR.hang h _ a

/-! The phases -/

theorem sendStep : Alike R (sendStep s) (sendStep t) := by
  rw [Machine.sendStep, Machine.sendStep, hR.readValid_frame h]
  refine .andThen_same _ fun w => hR.portWrite h w fun ok s t h => ?_
  cases ok
  · exact .next (hR.complete _ _ h)
  · exact .next (hR.enterWait h _)

theorem waitStep (code : ErrCode) {leave : State → Result State}
    (hl : ∀ s t, R s t → Alike R (leave s) (leave t)) : Alike R (waitStep code leave s) (waitStep code leave t) := by
  refine .ite (by rw [hR.wsub h]) ?_ (hR.portProbe h fun b s t h => ?_)
  · rw [hR.cfg h]
    exact .next (hR.toWsub _ (hR.portDelay h _))
  · have hb := hR.toLaststat b h
    refine .ite (by rw [hR.cfg h]) (hl _ _ hb) (.ite (by rw [hR.req h]) (.next (hR.toWsub _ hb)) ?_)
    have hn : s.waitacc + s.cfg.pollMs = t.waitacc + t.cfg.pollMs := by rw [hR.waitacc h, hR.cfg h]
    have hacc : R { s with laststat := b, waitacc := s.waitacc + s.cfg.pollMs }
        { t with laststat := b, waitacc := t.waitacc + t.cfg.pollMs } := by
      rw [hn]
      exact hR.toWaitacc _ hb
    refine .ite ?_ (.next (hR.complete _ _ hacc)) (.next (hR.toWsub _ hacc))
    rw [hn, hR.req h]

theorem ackReadStep : Alike R (ackReadStep s) (ackReadStep t) := by
  refine hR.portRead h _ fun r s t h => ?_
  cases r with
  | none => exact .next (hR.complete _ _ (hR.toAckcnt _ h))
  | some r =>
    refine (hR.memWrite_ackbuf h r).andThen fun s t h => ?_
    have hc := hR.toAckcnt (BitVec.ofNat 3 r.length) h
    dsimp only
    cases ackError r with
    | none => exact .next (hR.toPhase _ hc)
    | some e => exact .next (hR.complete _ _ hc)

theorem leaveWait2 : Alike R (leaveWait2 s) (leaveWait2 t) := by
  rw [Machine.leaveWait2, Machine.leaveWait2, hR.respLen h]
  rcases t.respLen with _ | _ | n
  · exact .fault _
  · exact .next (hR.complete _ _ (hR.toRxcnt _ h))
  · exact .next (hR.toPhase _ h)

theorem respReadStep : Alike R (respReadStep s) (respReadStep t) := by
  rw [Machine.respReadStep, Machine.respReadStep, hR.respLen h]
  rcases t.respLen with _ | n
  · exact .fault _
  · refine hR.portRead h n fun r s t h => ?_
    cases r with
    | none => exact .next (hR.complete _ _ (hR.toRxcnt _ h))
    | some r =>
      refine (hR.memWrite_rxbuf h r).andThen fun s t h => ?_
      have hc := hR.toRxcnt (BitVec.ofNat 9 r.length) h
      have ho := hR.op hc
      refine .ite ?_ (.next (hR.complete _ _ hc)) (.next (hR.toPhase _ hc))
      rw [ho]

theorem finishFw (b : List Byte) : Alike R (finishFw b s) (finishFw b t) := by
  unfold Machine.finishFw
  cases fwDecode b with
  | error e => exact .next (hR.complete _ _ h)
  | ok v => exact .next (hR.complete _ _ (hR.toFwinfo v h))

theorem finishTarget (b : List Byte) (ho : s.op = some .listPassiveTarget) :
    Alike R (finishTarget b s) (finishTarget b t) := by
  have hu : s.cfg.uidLenOff = t.cfg.uidLenOff := by rw [hR.cfg h]
  rw [Machine.finishTarget, Machine.finishTarget, hu]
  cases targetDecode t.cfg.uidLenOff b with
  | error e => exact .next (hR.complete _ _ h)
  | ok u => exact (hR.memWrite_uid (hR.toUidlen _ h) u ho).andThen fun s t h => .next (hR.complete _ _ h)

theorem parseStep : Alike R (parseStep s) (parseStep t) := by
  have ho := hR.op h
  have hread := hR.readValid_rxbuf h
  cases hop : t.op with
  | none => simpa only [Machine.parseStep, ho, hop] using .fault _
  | some op =>
    cases op with
    | firmwareVersion =>
      simpa only [Machine.parseStep, ho, hop, hread] using .andThen_same _ fun b => hR.finishFw h b
    | listPassiveTarget =>
      simpa only [Machine.parseStep, ho, hop, hread] using
        .andThen_same _ fun b => hR.finishTarget h b (ho.trans hop)
    | _ => simpa only [Machine.parseStep, ho, hop] using .fault _

/-- A step of the block from two states it cannot tell apart ends alike. -/
theorem blockStep : Alike R (blockStep s) (blockStep t) := by
  refine .ite (by rw [hR.inProgress h]) (.next h) ?_
  rw [Machine.phaseStep, Machine.phaseStep, hR.phase h]
  cases t.phase with
  | idle => exact .next h
  | send => exact hR.sendStep h
  | wait1 => exact hR.waitStep h _ fun s t h => .next (hR.toPhase _ h)
  | settle1 =>
    rw [settle1Step, settle1Step, hR.cfg h]
    exact .next (hR.toPhase _ (hR.portDelay h _))
  | ackRead => exact hR.ackReadStep h
  | settle2 =>
    rw [settle2Step, settle2Step, hR.cfg h]
    exact .next (hR.enterWait (hR.portDelay h _) _)
  | wait2 => exact hR.waitStep h _ fun s t h => hR.leaveWait2 h
  | respRead => exact hR.respReadStep h
  | parse => exact hR.parseStep h
  | reserved n => exact .fault _

end Indistinct

/-! ### The host's side, and two results of the codec -/

/-- The state with other pending actions of the host and other contents of `ACKOK` and `HDR`, made from its own. -/
def State.withUnused (l : List HostAction → List HostAction) (a : Register 1 → Register 1)
    (h : Register 24 → Register 24) (s : State) : State :=
  { s with host := l s.host, ackok := a s.ackok, hdr := h s.hdr }

/-- The block neither reads nor writes these (R20, R28, R37). -/
theorem indistinct_withUnused (l : List HostAction → List HostAction) (a : Register 1 → Register 1)
    (h : Register 24 → Register 24) : Indistinct fun s t => t = s.withUnused l a h := by
  constructor <;> rintro s _ <;> intros <;> subst_vars <;> rfl

theorem blockStep_withUnused (l : List HostAction → List HostAction) (a : Register 1 → Register 1)
    (h : Register 24 → Register 24) (s : State) :
    blockStep (s.withUnused l a h) = mapNext (State.withUnused l a h) (blockStep s) :=
  ((indistinct_withUnused l a h).blockStep rfl).eq_mapNext

/-- A step of the block on a state with other pending actions of the host. -/
theorem blockStep_withHost (l : List HostAction) (s : State) :
    blockStep { s with host := l } = mapNext (fun t => { t with host := l }) (blockStep s) :=
  blockStep_withUnused (fun _ => l) id id s

/-- Settles O59: under `pass` and `await` the block makes its step beside the host's list. -/
theorem passAndAwaitStepTheBlock : Obligations.PassAndAwaitStepTheBlock := by
  intro s rest
  have hb : step { s with host := [] } = blockStep { s with host := [] } := step_block rfl
  refine ⟨fun hh => ?_, fun hh hbusy => ?_, fun hh hbusy => ?_⟩
  · rw [hb, ← blockStep_withHost rest { s with host := [] }]
    simp only [step, portStep, hh]
  · rw [hb, ← blockStep_withHost s.host { s with host := [] }]
    simp only [step, portStep, hh, hbusy, if_true]
    rw [← hh]
  · simp only [step, portStep, hh, hbusy, Bool.false_eq_true, if_false]

/-! ### Two runs of one exchange -/

/-- Two states in one run of the operation `o`: they agree on all that the run reads and shows, and each trace is the
same events after its own beginning (R40, R136 to R142, R148). -/
structure State.SameRun (o : Op) (tr₁ tr₂ : List Event) (s t : State) : Prop where
  cfg : s.cfg = t.cfg
  phase : s.phase = t.phase
  wsub : s.wsub = t.wsub
  waitacc : s.waitacc = t.waitacc
  latched : s.op = some o
  req : s.req = t.req
  adapter : s.adapter = t.adapter
  inProgress : s.inProgress = t.inProgress
  busy : s.status.busy = t.status.busy
  done : s.status.done = t.status.done
  outcome : s.status.done = true → s.status = t.status ∧ s.errinfo = t.errinfo
  flen : s.flen.get = t.flen.get
  frame : s.frame = t.frame
  ackcnt : s.ackcnt.get = t.ackcnt.get
  ackbuf : s.ackbuf = t.ackbuf
  rxcnt : s.rxcnt.get = t.rxcnt.get
  rxbuf : s.rxbuf = t.rxbuf
  fwinfo : o = .firmwareVersion → s.fwinfo.get = t.fwinfo.get
  uidlen : o = .listPassiveTarget → s.uidlen.get = t.uidlen.get
  uid : o = .listPassiveTarget → s.uid = t.uid
  host : s.host = [] ∧ t.host = []
  events : ∃ es, s.trace = tr₁ ++ es ∧ t.trace = tr₂ ++ es

section
variable {o : Op} {tr₁ tr₂ : List Event} {s t : State} (h : State.SameRun o tr₁ tr₂ s t)
include h

theorem State.SameRun.emit (e : Event) : State.SameRun o tr₁ tr₂ (s.emit e) (t.emit e) := by
  obtain ⟨es, hs, ht⟩ := h.events
  exact { h with events := ⟨es ++ [e], by simp [hs], by simp [ht]⟩ }

theorem State.SameRun.complete (code : ErrCode) (info : Half) :
    State.SameRun o tr₁ tr₂ (complete code info s) (complete code info t) := by
  have hst : (Machine.complete code info s).status = (Machine.complete code info t).status := by
    simp [Machine.complete, h.phase]
  exact { h with phase := rfl, busy := rfl, done := rfl, outcome := fun _ => ⟨hst, rfl⟩ }

end

/-- A step of the block cannot tell two states of one run apart. -/
theorem indistinct_sameRun (o : Op) (tr₁ tr₂ : List Event) : Indistinct (State.SameRun o tr₁ tr₂) where
  cfg h := h.cfg
  phase h := h.phase
  wsub h := h.wsub
  waitacc h := h.waitacc
  req h := h.req
  adapter h := h.adapter
  inProgress h := h.inProgress
  flen h := h.flen
  frame h := h.frame
  rxcnt h := h.rxcnt
  rxbuf h := h.rxbuf
  ackbuf h := h.ackbuf
  uid h ho := h.uid (Option.some.inj (h.latched.symm.trans ho))
  toPhase _ h := { h with phase := rfl }
  toWsub _ h := { h with wsub := rfl }
  toWaitacc _ h := { h with waitacc := rfl }
  toLaststat _ h := { h with }
  toAdapter _ h := { h with adapter := rfl }
  toInProgress _ h := { h with inProgress := rfl }
  emit e h := h.emit e
  complete code info h := h.complete code info
  toAckcnt _ h := { h with ackcnt := rfl }
  toAckbuf _ h := { h with ackbuf := rfl }
  toRxcnt _ h := { h with rxcnt := rfl }
  toRxbuf _ h := { h with rxbuf := rfl }
  toFwinfo _ h := { h with fwinfo := fun _ => rfl }
  toUidlen _ h := { h with uidlen := fun _ => rfl }
  toUid _ h := { h with uid := fun _ => rfl }

/-- Runs of any length from two such states end in two such states. -/
theorem run_sameRun {o : Op} {tr₁ tr₂ : List Event} {s t u : State} (k : Nat) (h : State.SameRun o tr₁ tr₂ s t)
    (hu : run k s = .next u) : ∃ v, run k t = .next v ∧ State.SameRun o tr₁ tr₂ u v := by
  induction k generalizing s t with
  | zero =>
    cases hu
    exact ⟨t, rfl, h⟩
  | succ k ih =>
    obtain ⟨hs, ht⟩ := h.host
    rw [run_succ] at hu
    obtain ⟨s', hs', hu⟩ := andThen_eq_next.1 hu
    have hal := (indistinct_sameRun o tr₁ tr₂).blockStep h
    rw [← step_block hs, ← step_block ht] at hal
    obtain ⟨t', ht', h'⟩ := hal.of_next hs'
    obtain ⟨v, hv, hr⟩ := ih h' hu
    exact ⟨v, by rw [run_succ, ht', andThen_next, hv], hr⟩

/-- The acceptance of an operation that exchanges makes all that its run reads and shows the same (R40, R44). -/
theorem sameRun_accepted {o : Op} {r : Operands} {s t : State}
    (ho : o = .exchange ∨ o = .firmwareVersion ∨ o = .listPassiveTarget) (hcfg : s.cfg = t.cfg)
    (ha : s.adapter = t.adapter) (hs : s.host = []) (ht : t.host = []) (hi : s.inProgress = t.inProgress) :
    State.SameRun o s.trace t.trace (accepted o.selector r s) (accepted o.selector r t) := by
  have hev : ∃ es, (accepted o.selector r s).trace = s.trace ++ es ∧ (accepted o.selector r t).trace = t.trace ++ es :=
    ⟨[], by simp, by simp⟩
  rcases ho with rfl | rfl | rfl
  · exact ⟨hcfg, rfl, rfl, rfl, rfl, rfl, ha, hi, rfl, rfl, nofun, rfl, rfl, rfl, rfl, rfl, rfl, nofun, nofun, nofun,
      ⟨hs, ht⟩, hev⟩
  · exact ⟨hcfg, rfl, rfl, rfl, rfl, rfl, ha, hi, rfl, rfl, nofun, rfl, rfl, rfl, rfl, rfl, rfl, fun _ => rfl, nofun,
      nofun, ⟨hs, ht⟩, hev⟩
  · exact ⟨hcfg, rfl, rfl, rfl, rfl, rfl, ha, hi, rfl, rfl, nofun, rfl, rfl, rfl, rfl, rfl, rfl, nofun, fun _ => rfl,
      fun _ => rfl, ⟨hs, ht⟩, hev⟩

/-- What an acceptance makes of an operation that exchanges: its operand error, or its frame and `SEND`; from another
state of the same parameters that is not busy it makes the same (R74, R136, R185, R190). -/
theorem exec_exchanging {o : Op} {r : Operands} {s t u : State} (hw : r.wellFormed)
    (ho : o = .exchange ∨ o = .firmwareVersion ∨ o = .listPassiveTarget) (hcfg : s.cfg = t.cfg)
    (hb : t.status.busy = false) (h : exec (o.instr r) s = .next u) :
    (∃ e, u = raise e (accepted o.selector r s) ∧ exec (o.instr r) t = .next (raise e (accepted o.selector r t))) ∨
      ∃ pd, u = { (accepted o.selector r s).framed pd with phase := .send } ∧
        exec (o.instr r) t = .next { (accepted o.selector r t).framed pd with phase := .send } := by
  have hop : operandError (accepted o.selector r t) = operandError (accepted o.selector r s) := by
    rw [operandError_accepted o t hw, operandError_accepted o s hw]
    simp only [payloadError, hcfg]
  have hwf : (o.instr r).wellFormed := by cases o <;> exact hw
  obtain ⟨-, a, rfl, hc⟩ := exec_cases hwf h
  simp only [instr_op, instr_operands] at hc
  rcases hc with ⟨e, he, rfl⟩ | ⟨hn, hc⟩
  · have ht := exec_of_operandError (i := o.instr r) (e := e) hb
    simp only [instr_op, instr_operands] at ht
    exact .inl ⟨e, rfl, ht (hop.trans he)⟩
  · refine .inr ⟨framedPayload (o.instr r), ?_⟩
    obtain ⟨hl, rfl⟩ : (framedPayload (o.instr r)).length ≤ 254 ∧
        u = { (accepted o.selector r s).framed (framedPayload (o.instr r)) with phase := .send } := by
      rcases ho with rfl | rfl | rfl <;> simpa using hc
    refine ⟨rfl, ?_⟩
    obtain ⟨-, hpay, hresp⟩ := length_of_operandError_none hw (hop.trans hn)
    rcases ho with rfl | rfl | rfl
    · exact exec_exchange hb (hpay (.inr rfl)) hl (hresp rfl)
    · exact exec_firmwareVersion hb
    · exact exec_listPassiveTarget hb

/-- The same request to an operation that exchanges, accepted in two states, begins two states of one run. -/
theorem exec_sameRun {o : Op} {r : Operands} {s t u : State} (hw : r.wellFormed)
    (ho : o = .exchange ∨ o = .firmwareVersion ∨ o = .listPassiveTarget) (hcfg : s.cfg = t.cfg)
    (ha : s.adapter = t.adapter) (hs : s.host = []) (ht : t.host = []) (hi : s.inProgress = t.inProgress)
    (hb : t.status.busy = false) (h : exec (o.instr r) s = .next u) :
    ∃ v, exec (o.instr r) t = .next v ∧ State.SameRun o s.trace t.trace u v := by
  have hr := sameRun_accepted (r := r) ho hcfg ha hs ht hi
  rcases exec_exchanging hw ho hcfg hb h with ⟨e, rfl, hv⟩ | ⟨pd, rfl, hv⟩
  · exact ⟨_, hv, hr.complete _ _⟩
  · exact ⟨_, hv, { hr with flen := rfl, frame := rfl, phase := rfl }⟩

/-- Two states of one run show the same of it. -/
theorem State.SameRun.sameExchange {o : Op} {tr₁ tr₂ : List Event} {s t : State} (h : State.SameRun o tr₁ tr₂ s t) :
    State.sameExchange s t where
  phase := h.phase
  busy := h.busy
  inProgress := h.inProgress
  done := h.done
  outcome := h.outcome
  buffers b hb := by
    simp only [List.mem_cons, List.not_mem_nil, or_false] at hb
    rcases hb with rfl | rfl | rfl
    · exact ⟨by rw [State.count, State.count, h.flen], h.frame⟩
    · exact ⟨by rw [State.count, State.count, h.ackcnt], h.ackbuf⟩
    · exact ⟨by rw [State.count, State.count, h.rxcnt], h.rxbuf⟩

/-- Settles O58: the two runs go through states of one run, step by step; and `ACKOK` and `HDR` are neither read nor
written. -/
theorem exchangeIgnoresEarlierResults : Obligations.ExchangeIgnoresEarlierResults := by
  constructor
  · intro r s₁ s₂ t₁ u₁ k i hmem hw hcfg ha hh₁ hh₂ hi₁ hi₂ hb he hrun
    obtain ⟨o, ho, rfl⟩ : ∃ o : Op,
        (o = .exchange ∨ o = .firmwareVersion ∨ o = .listPassiveTarget) ∧ i = o.instr r := by
      simp only [List.mem_cons, List.not_mem_nil, or_false] at hmem
      rcases hmem with rfl | rfl | rfl
      · exact ⟨.exchange, .inl rfl, rfl⟩
      · exact ⟨.firmwareVersion, .inr (.inl rfl), rfl⟩
      · exact ⟨.listPassiveTarget, .inr (.inr rfl), rfl⟩
    obtain ⟨t₂, ht₂, hsame⟩ := exec_sameRun hw ho hcfg ha hh₁ hh₂ (hi₁.trans hi₂.symm) hb he
    obtain ⟨u₂, hu₂, hr⟩ := run_sameRun k hsame hrun
    obtain ⟨es, hes₁, hes₂⟩ := hr.events
    refine ⟨t₂, u₂, es, ht₂, hu₂, hes₁, hes₂, hr.sameExchange, fun hi => ?_, fun hi => ?_⟩
    · exact hr.fwinfo ((instr_op o r).symm.trans (congrArg Instr.op hi))
    · have hl : o = .listPassiveTarget := (instr_op o r).symm.trans (congrArg Instr.op hi)
      exact ⟨hr.uidlen hl, hr.uid hl⟩
  · intro s a h hh
    rw [step_block hh, step_block (s := { s with ackok := a, hdr := h }) hh]
    exact blockStep_withUnused id (fun _ => a) (fun _ => h) s

end Sys2Proof.Machine

/-! Proofs of the obligations on the `STATUS` word and on what reset leaves (O1, O13). -/

namespace Sys2Proof.Machine

/-! ### The `STATUS` word -/

/-- The `STATUS` word as a number: its fields side by side, the reserved bits 0 (R29). -/
theorem toNat_word (st : Status) : st.word.toNat = st.busy.toNat + st.done.toNat * 2 ^ 1 + st.err.toNat * 2 ^ 2 +
    st.errCode.code.toNat * 2 ^ 8 + st.errPhase.code.toNat * 2 ^ 12 := by
  have hb := st.busy.toNat_lt
  have hd := st.done.toNat_lt
  have he := st.err.toNat_lt
  have hc := st.errCode.code.isLt
  have hp := st.errPhase.code.isLt
  have e : ∀ a b k : Nat, b < 2 ^ k → b ||| a * 2 ^ k = b + a * 2 ^ k := fun a b k h => by
    rw [Nat.or_comm, Nat.mul_comm, ← Nat.two_pow_add_eq_or_of_lt h, Nat.add_comm]
  simp only [Status.word, BitVec.toNat_or, BitVec.toNat_shiftLeft, BitVec.toNat_setWidth, BitVec.toNat_ofBool,
    Nat.shiftLeft_eq]
  simp (disch := omega) only [Nat.mod_eq_of_lt]
  rw [e _ _ 1 (by omega), e _ _ 2 (by omega), e _ _ 8 (by omega), e _ _ 12 (by omega)]

/-- The fields of the `STATUS` word, its reserved bits among them (R29). -/
theorem fields_word (st : Status) : st.word.extractLsb' 3 5 = 0 ∧ st.word.extractLsb' 8 4 = st.errCode.code ∧
    st.word.extractLsb' 12 4 = st.errPhase.code ∧ st.word.extractLsb' 16 16 = 0 := by
  have hb := st.busy.toNat_lt
  have hd := st.done.toNat_lt
  have he := st.err.toNat_lt
  have hc := st.errCode.code.isLt
  have hp := st.errPhase.code.isLt
  have hw := toNat_word st
  refine ⟨?_, ?_, ?_, ?_⟩ <;> apply BitVec.eq_of_toNat_eq <;>
    simp only [BitVec.extractLsb'_toNat, Nat.shiftRight_eq_div_pow, BitVec.ofNat_eq_ofNat, BitVec.toNat_ofNat] <;> omega

/-- Settles O13: the numbers and classes code by code and phase by phase, and the word by its fields. -/
theorem statusWordLayout : Obligations.StatusWordLayout := by
  refine ⟨by decide, by decide, by decide, by decide, fun st => ?_⟩
  obtain ⟨hres, hcode, hphase, hhigh⟩ := fields_word st
  refine ⟨by simp [Status.word], by simp [Status.word], ?_, hres, hcode, hphase, hhigh⟩
  rw [hcode]
  simp [Status.word, Status.err]

/-! ### What reset leaves -/

/-- The state after reset, with any bits where the spec states none: `REQ`, `LASTSTAT` and what is unwritten (R240). -/
def State.resetWith (q : Req) (e : State) : State := State.withUnread e { State.reset with req := q }

/-- A host read of a result faults there: each is unwritten, whatever its bits are (R40, R240). -/
theorem hostRead_resetWith (q : Req) (e : State) {r : HostReg} (hr : r.isResult = true) :
    hostRead r (State.resetWith q e) = .fault (.unwrittenResult r) := by
  cases r with
  | status => cases hr
  | errinfo => cases hr
  | _ => rfl

/-- An acceptance overwrites `REQ` and leaves the other bits where they were (R44). -/
theorem accepted_resetWith (q : Req) (e : State) (o : Byte) (r : Operands) :
    accepted o r (State.resetWith q e) = State.withUnread e (accepted o r State.reset) := by
  unfold accepted
  rcases Op.ofSelector o with _ | op
  · rfl
  · cases op <;> rfl

/-- Two states that differ in bits no agent can read. -/
def SameRead (e s t : State) : Prop := t = State.withUnread e s

section
variable {e : State}

theorem start_sameRead (q : Req) {o : Byte} {r : Operands} {k : State → Result State}
    (hk : ∀ s, Alike (SameRead e) (k s) (k (State.withUnread e s))) :
    Alike (SameRead e) (start o r State.reset k) (start o r (State.resetWith q e) k) := by
  have he : ∀ s, operandError (State.withUnread e s) = operandError s := fun _ => rfl
  rw [start_idle rfl, start_idle rfl, accepted_resetWith, he]
  cases operandError (accepted o r State.reset) with
  | some x => exact .next rfl
  | none => exact hk _

theorem writeFrame_sameRead (pd : List Byte) (s : State) :
    Alike (SameRead e) (writeFrame pd s) (writeFrame pd (State.withUnread e s)) := by
  refine .andThen (R := SameRead e) (.ite Iff.rfl (.next rfl) (.fault _)) ?_
  rintro s _ rfl
  exact .next rfl

theorem finishFw_sameRead (b : List Byte) (s : State) :
    Alike (SameRead e) (finishFw b s) (finishFw b (State.withUnread e s)) := by
  unfold finishFw
  cases fwDecode b with
  | error x => exact .next rfl
  | ok v => exact .next rfl

theorem finishTarget_sameRead (b : List Byte) (s : State) :
    Alike (SameRead e) (finishTarget b s) (finishTarget b (State.withUnread e s)) := by
  have hcfg : (State.withUnread e s).cfg = s.cfg := rfl
  rw [finishTarget, finishTarget, hcfg]
  cases targetDecode s.cfg.uidLenOff b with
  | error x => exact .next rfl
  | ok u =>
    refine .andThen (R := SameRead e) (.ite Iff.rfl (.next rfl) (.fault _)) ?_
    rintro s _ rfl
    exact .next rfl

/-- A request runs the same, whatever those bits are, and keeps the ones it does not write. -/
theorem exec_sameRead (q : Req) (i : Instr) :
    Alike (SameRead e) (exec i State.reset) (exec i (State.resetWith q e)) := by
  cases i with
  | encode r =>
    show Alike _ (execEncode r _) (execEncode r _)
    refine start_sameRead q fun s => .andThen_same (readValid .data s) fun pd => ?_
    refine (writeFrame_sameRead pd s).andThen ?_
    rintro s _ rfl
    exact .next rfl
  | validateAck r =>
    show Alike _ (execValidateAck r _) (execValidateAck r _)
    exact start_sameRead q fun s => .andThen_same (readValid .data s) fun b => .next rfl
  | decodeHeader r =>
    show Alike _ (execDecodeHeader r _) (execDecodeHeader r _)
    refine start_sameRead q fun s => .andThen_same (readValid .data s) fun b => ?_
    cases headerDecode b with
    | error x => exact .next rfl
    | ok v => exact .next rfl
  | exchange r =>
    show Alike _ (execExchange r _) (execExchange r _)
    refine start_sameRead q fun s => .andThen_same (readValid .data s) fun pd => ?_
    refine (writeFrame_sameRead pd s).andThen ?_
    rintro s _ rfl
    exact .next rfl
  | decodeFw r =>
    show Alike _ (execDecodeFw r _) (execDecodeFw r _)
    exact start_sameRead q fun s => .andThen_same (readValid .data s) fun b => finishFw_sameRead b s
  | decodeTarget r =>
    show Alike _ (execDecodeTarget r _) (execDecodeTarget r _)
    exact start_sameRead q fun s => .andThen_same (readValid .data s) fun b => finishTarget_sameRead b s
  | firmwareVersion r =>
    show Alike _ (execFirmwareVersion r _) (execFirmwareVersion r _)
    refine start_sameRead q fun s => (writeFrame_sameRead fwPayload s).andThen ?_
    rintro s _ rfl
    exact .next rfl
  | listPassiveTarget r =>
    show Alike _ (execListPassiveTarget r _) (execListPassiveTarget r _)
    refine start_sameRead q fun s => (writeFrame_sameRead (inListPayload s.req.cardType) s).andThen ?_
    rintro s _ rfl
    exact .next rfl

end

/-- Settles O1: what reset sets by its definition, and the rest whatever bits it leaves elsewhere. -/
theorem resetLeavesSpecValues : Obligations.ResetLeavesSpecValues := by
  refine ⟨rfl, by decide, rfl, rfl, rfl, rfl, fun b i => ?_, fun r hr => ?_, ?_⟩
  · cases b <;> rfl
  · exact hostRead_resetWith State.reset.req State.reset hr
  · rintro q e u rfl
    exact ⟨fun r hr => hostRead_resetWith q e hr, rfl, fun i => (exec_sameRead q i).eq_mapNext⟩

end Sys2Proof.Machine

/-! Proofs of the obligations on the waits (O33, O34), the reads (O36, O37) and the progress of the block (O48). -/

namespace Sys2Proof.Machine

/-! ### A step of a ready-wait -/

section
variable {code : ErrCode} {leave : State → Result State} {s : State}

/-- The delay of a wait (R131). -/
theorem waitStep_delay (hw : s.wsub = true) :
    waitStep code leave s = .next { portDelay s.cfg.pollMs s with wsub := false } :=
  waitStep_eq_next.2 (.inl ⟨hw, rfl⟩)

/-- A probe of a wait, by the status it answers and the wait accumulated (R131). -/
theorem waitStep_status {b : Byte} (hw : s.wsub = false) (hb : s.adapter.drawProbe.1 = .status b) :
    waitStep code leave s =
      if b ∈ s.cfg.readyStatuses then leave (s.probed b)
      else if s.req.timeout = 0 then .next { s.probed b with wsub := true }
      else if s.req.timeout.toNat < s.waitacc + s.cfg.pollMs then
        .next (raise ⟨code, infoOfByte b⟩ { s.probed b with waitacc := s.waitacc + s.cfg.pollMs })
      else .next { s.probed b with waitacc := s.waitacc + s.cfg.pollMs, wsub := true } := by
  rw [waitStep, if_neg (by simp [hw]), portProbe_status hb]
  simp [Params.ready]

/-- A probe of a wait that is never answered (R59, I14). -/
theorem waitStep_never (hw : s.wsub = false) (hb : s.adapter.drawProbe.1 = .never) :
    waitStep code leave s = .next (s.stuck .probe s.adapter.drawProbe.2) :=
  waitStep_eq_next.2 (.inr (.inr ⟨hw, hb, rfl⟩))

end

/-- Leaving the second wait of an operation that reads `n` response bytes (R141). -/
theorem leaveWait2_of_respLen {s : State} {n : Nat} (hn : s.respLen = some n) : leaveWait2 s =
    .next (if n = 0 then succeed { s with rxcnt := Register.of 0 } else { s with phase := .respRead }) := by
  rw [leaveWait2, hn]
  cases n <;> rfl

/-- Settles O33, by the delay and the probe's answer. -/
theorem firstWaitStep : Obligations.FirstWaitStep := by
  intro s hh hi hp
  have hs : step s = wait1Step s := by rw [step_phase hh hi, phaseStep, hp]
  rw [hs]
  refine ⟨fun hw => waitStep_delay hw, fun b hw hb => ?_, fun hw hb => waitStep_never hw hb⟩
  rw [wait1Step, waitStep_status hw hb]
  dsimp only
  split_ifs
  · rfl
  · rfl
  · simp [complete, hp, infoOfByte]
  · rfl

/-- Settles O34, by the delay and the probe's answer. -/
theorem secondWaitStep : Obligations.SecondWaitStep := by
  intro s n hh hi hp hn
  have hs : step s = wait2Step s := by rw [step_phase hh hi, phaseStep, hp]
  rw [hs]
  refine ⟨fun hw => waitStep_delay hw, fun b hw hb => ?_, fun hw hb => waitStep_never hw hb⟩
  have hl : (s.probed b).respLen = some n := hn
  rw [wait2Step, waitStep_status hw hb, leaveWait2_of_respLen hl]
  dsimp only
  split_ifs
  · rfl
  · rfl
  · rfl
  · simp [complete, hp, infoOfByte]
  · rfl

/-! ### The ack read -/

/-- The ack check of bytes too few for an ack (R139). -/
theorem ackError_short {r : List Byte} (h : r.length < 6) : ackError r = some ⟨.ack, infoOfPair 0x02 r.length⟩ :=
  if_pos h

/-- The ack check passes the pattern (R139). -/
theorem ackError_ackPattern : ackError ackPattern = none := by decide

/-- The ack check of 6 bytes that first differ from the pattern at `i` (R139). -/
theorem ackError_mismatch {r : List Byte} {i : Nat} {b : Byte} (hl : r.length = 6) (hb : r[i]? = some b)
    (ht : r.take i = ackPattern.take i) (hne : ackPattern[i]? ≠ some b) :
    ackError r = some ⟨.ack, infoOfPair 0x01 i⟩ := by
  have hi : i < ackPattern.length := by
    obtain ⟨hi, -⟩ := List.getElem?_eq_some_iff.1 hb
    exact hi.trans_eq hl
  have hr : isAck r = false := decide_eq_false fun hr => hne (hr ▸ hb)
  rw [ackError, if_neg (by simp [hl]), hr, firstMismatch_eq hi hb ht hne]
  rfl

/-- The state after an ack read that answered `r`: the bytes kept are in `ACKBUF` (R58, R138). -/
abbrev State.ackStored (r : List Byte) (s : State) : State :=
  { s with
    adapter := s.adapter.drawRead.2, trace := s.trace ++ [.read 6 (some r)]
    ackbuf := s.ackbuf.writeBytes 0 (r.take 6), ackcnt := Register.of (BitVec.ofNat 3 (r.take 6).length) }

section
variable {s : State}

theorem ackReadStep_fail (h : s.adapter.drawRead.1 = .fail) : ackReadStep s =
    .next (raise ⟨.ack, infoOfPair 0x03 0⟩
      { s with adapter := s.adapter.drawRead.2, trace := s.trace ++ [.read 6 none], ackcnt := Register.of 0 }) :=
  portRead_fail h

/-- The bytes are stored before the check (R138, R139). -/
theorem ackReadStep_ok {r : List Byte} (h : s.adapter.drawRead.1 = .ok r) : ackReadStep s =
    .next ((ackError (r.take 6)).elim { s.ackStored r with phase := .settle2 } fun e => raise e (s.ackStored r)) := by
  rw [ackReadStep, portRead_ok h]
  dsimp only [ackLen]
  rw [memWrite_of (by simp [Buffer.capacity]), andThen_next]
  cases ackError (r.take 6) <;> rfl

theorem ackReadStep_never (h : s.adapter.drawRead.1 = .never) :
    ackReadStep s = .next (s.stuck (.read 6) s.adapter.drawRead.2) :=
  portRead_never h

end

/-- Settles O36, by the adapter's answer to the read and the check of the bytes kept. -/
theorem ackReadPhase : Obligations.AckReadPhase := by
  intro s hh hi hp hb
  have hs : step s = ackReadStep s := by rw [step_phase hh hi, phaseStep, hp]
  rw [hs]
  refine ⟨fun ha => ?_, fun r ha hl => ?_, fun r i b ha hl hi6 hri ht hne => ?_, fun r ha ht => ?_, ackReadStep_never⟩
  · rw [ackReadStep_fail ha]
    simp [complete, hp, infoOfPair]
  · have ht : r.take 6 = r := List.take_of_length_le (by omega)
    rw [ackReadStep_ok ha, ht, ackError_short hl, infoOfPair_eq _ _ (by omega)]
    simp [complete, hp, hb, ht, Memory.ofBytes]
  · have hl6 : (r.take 6).length = 6 := by simp [hl]
    have he : ackError (r.take 6) = some ⟨.ack, infoOfPair 0x01 i⟩ := by
      refine ackError_mismatch hl6 ?_ ?_ hne
      · rw [List.getElem?_take_of_lt hi6, hri]
      · rw [List.take_take, Nat.min_eq_left hi6.le]
        exact ht
    rw [ackReadStep_ok ha, he, infoOfPair_eq _ _ (by omega)]
    simp [complete, hp, hb, hl, Memory.ofBytes]
  · have he : ackError (r.take 6) = none := ht ▸ ackError_ackPattern
    rw [ackReadStep_ok ha, he]
    simp [hb, ht, Memory.ofBytes]

/-! ### The response read -/

/-- The state after a response read of `n` bytes that answered `r`: the bytes kept are in `RXBUF` (R58, R142). -/
abbrev State.respStored (n : Nat) (r : List Byte) (s : State) : State :=
  { s with
    adapter := s.adapter.drawRead.2, trace := s.trace ++ [.read n (some r)]
    rxbuf := s.rxbuf.writeBytes 0 (r.take n), rxcnt := Register.of (BitVec.ofNat 9 (r.take n).length) }

section
variable {s : State} {n : Nat} (hn : s.respLen = some n)
include hn

theorem respReadStep_fail (h : s.adapter.drawRead.1 = .fail) : respReadStep s =
    .next (raise ⟨.respRead, 0⟩
      { s with adapter := s.adapter.drawRead.2, trace := s.trace ++ [.read n none], rxcnt := Register.of 0 }) := by
  rw [respReadStep, hn]
  exact portRead_fail h

theorem respReadStep_ok {r : List Byte} (hl : n ≤ 262) (h : s.adapter.drawRead.1 = .ok r) : respReadStep s =
    .next (if s.op = some .exchange then succeed (s.respStored n r)
      else { s.respStored n r with phase := .parse }) := by
  have hle := List.length_take_le n r
  rw [respReadStep, hn]
  dsimp only
  rw [portRead_ok h]
  dsimp only
  rw [memWrite_of (by simp only [Buffer.capacity]; omega), andThen_next]
  exact (apply_ite Host.Outcome.next _ _ _).symm

theorem respReadStep_never (h : s.adapter.drawRead.1 = .never) :
    respReadStep s = .next (s.stuck (.read n) s.adapter.drawRead.2) := by
  rw [respReadStep, hn]
  exact portRead_never h

end

/-- `EXCHANGE` is latched exactly with its selector (R72). -/
theorem op_eq_exchange {s : State} : s.op = some .exchange ↔ s.req.opsel = 0x10 :=
  ⟨fun h => (selector_of_ofSelector h).symm, fun h => by rw [State.op, h]; rfl⟩

/-- Settles O37, by the adapter's answer to the read. -/
theorem responseReadPhase : Obligations.ResponseReadPhase := by
  intro s n hh hi hp hb hn hl
  have hs : step s = respReadStep s := by rw [step_phase hh hi, phaseStep, hp]
  rw [hs]
  refine ⟨fun ha => ?_, fun r ha => ?_, respReadStep_never hn⟩
  · rw [respReadStep_fail hn ha]
    simp [complete, hp]
  · rw [respReadStep_ok hn hl ha, State.respStored, hb]
    simp only [op_eq_exchange]
    rfl

/-! ### Progress of the block -/

/-- A step answers a next state, in which an event is in progress exactly when `never`. -/
def HangsIff (never : Prop) (o : Result State) : Prop :=
  ∃ t, o = .next t ∧ (t.inProgress ≠ none ↔ never)

theorem hangsIff_next {never : Prop} {t : State} (hn : ¬ never) (ht : t.inProgress = none) :
    HangsIff never (.next t) := ⟨t, rfl, by simp [ht, hn]⟩

theorem hangsIff_stuck {never : Prop} {s : State} {c : Call} {a : Adapter} (hn : never) :
    HangsIff never (.next (s.stuck c a)) := ⟨_, rfl, by simp [hn]⟩

/-- The calls of the phase a block is in that the adapter never answers (R59, I14). -/
def State.neverAnswered (s : State) : Prop :=
  s.phase = .send ∧ s.adapter.drawWrite.1 = .never ∨
    (s.phase = .ackRead ∨ s.phase = .respRead) ∧ s.adapter.drawRead.1 = .never ∨
    s.phase.isWait ∧ s.wsub = false ∧ s.adapter.drawProbe.1 = .never

theorem finishFw_inProgress {b : List Byte} {s t : State} (h : finishFw b s = .next t) :
    t.inProgress = s.inProgress := by
  rcases finishFw_eq_next.1 h with ⟨v, -, rfl⟩ | ⟨e, -, rfl⟩ <;> rfl

theorem finishTarget_inProgress {b : List Byte} {s t : State} (h : finishTarget b s = .next t) :
    t.inProgress = s.inProgress := by
  rcases finishTarget_eq_next.1 h with ⟨u, -, rfl⟩ | ⟨e, -, rfl⟩ <;> rfl

/-- The valid bytes of a result buffer of a legal state can be read (R53). -/
theorem readValid_of_inv {s : State} (h : s.Inv) {b : Buffer} {n : Nat} (hb : b ≠ .data) (hc : s.count b = some n) :
    ∃ bs, readValid b s = .next bs := by
  have hf := h.results b hb
  rw [hc] at hf
  obtain ⟨bs, hbs, -⟩ := Memory.readBytes_of_filled hf
  exact ⟨bs, readValid_eq_next.2 ⟨n, hc, hbs⟩⟩

/-- The operations that read a response (R141). -/
theorem op_of_respLen {s : State} {n : Nat} (h : s.respLen = some n) :
    s.op = some .exchange ∨ s.op = some .firmwareVersion ∨ s.op = some .listPassiveTarget := by
  unfold State.respLen at h
  split at h
  · exact .inl ‹_›
  · exact .inr (.inl ‹_›)
  · exact .inr (.inr ‹_›)
  · cases h

section Progress
variable {s : State} (hi : s.inProgress = none)
include hi

theorem hangsIff_waitStep {code : ErrCode} {leave : State → Result State}
    (hl : ∀ b, ∃ t, leave (s.probed b) = .next t ∧ t.inProgress = none) :
    HangsIff (s.wsub = false ∧ s.adapter.drawProbe.1 = .never) (waitStep code leave s) := by
  cases hw : s.wsub with
  | true =>
    rw [waitStep_delay hw]
    exact hangsIff_next nofun hi
  | false =>
    cases hb : s.adapter.drawProbe.1 with
    | never =>
      rw [waitStep_never hw hb]
      exact hangsIff_stuck ⟨rfl, rfl⟩
    | status b =>
      rw [waitStep_status hw hb]
      split_ifs
      · obtain ⟨t, ht, hit⟩ := hl b
        rw [ht]
        exact hangsIff_next nofun hit
      · exact hangsIff_next nofun hi
      · exact hangsIff_next nofun hi
      · exact hangsIff_next nofun hi

theorem hangsIff_wait1Step : HangsIff (s.wsub = false ∧ s.adapter.drawProbe.1 = .never) (wait1Step s) :=
  hangsIff_waitStep hi fun _ => ⟨_, rfl, hi⟩

theorem hangsIff_wait2Step {n : Nat} (hn : s.respLen = some n) :
    HangsIff (s.wsub = false ∧ s.adapter.drawProbe.1 = .never) (wait2Step s) := by
  refine hangsIff_waitStep hi fun b => ⟨_, leaveWait2_of_respLen (s := s.probed b) hn, ?_⟩
  split_ifs
  · exact hi
  · exact hi

theorem hangsIff_ackReadStep : HangsIff (s.adapter.drawRead.1 = .never) (ackReadStep s) := by
  cases ha : s.adapter.drawRead.1 with
  | ok r =>
    rw [ackReadStep_ok ha]
    cases ackError (r.take 6) with
    | none => exact hangsIff_next nofun hi
    | some e => exact hangsIff_next nofun hi
  | fail =>
    rw [ackReadStep_fail ha]
    exact hangsIff_next nofun hi
  | never =>
    rw [ackReadStep_never ha]
    exact hangsIff_stuck rfl

theorem hangsIff_respReadStep {n : Nat} (hn : s.respLen = some n) (hl : n ≤ 262) :
    HangsIff (s.adapter.drawRead.1 = .never) (respReadStep s) := by
  cases ha : s.adapter.drawRead.1 with
  | ok r =>
    rw [respReadStep_ok hn hl ha]
    split_ifs
    · exact hangsIff_next nofun hi
    · exact hangsIff_next nofun hi
  | fail =>
    rw [respReadStep_fail hn ha]
    exact hangsIff_next nofun hi
  | never =>
    rw [respReadStep_never hn ha]
    exact hangsIff_stuck rfl

variable (h : s.Inv)
include h

/-- The frame of an operation in progress is built, so `SEND` can read it (R136). -/
theorem hangsIff_sendStep (hp : s.phase = .send) : HangsIff (s.adapter.drawWrite.1 = .never) (sendStep s) := by
  obtain ⟨hf, -⟩ := h.exchanging (by simp [hp])
  obtain ⟨v, hv⟩ := get_of_written hf
  obtain ⟨w, hw⟩ := readValid_of_inv h (b := .frame) nofun (congrArg (Option.map BitVec.toNat) hv)
  rw [sendStep, hw, andThen_next]
  cases ha : s.adapter.drawWrite.1 with
  | ok =>
    rw [portWrite_ok ha]
    exact hangsIff_next nofun hi
  | fail =>
    rw [portWrite_fail ha]
    exact hangsIff_next nofun hi
  | never =>
    rw [portWrite_never ha]
    exact hangsIff_stuck rfl

/-- The response of a composite was read, so `PARSE` can decode it (R142). -/
theorem hangsIff_parseStep (hp : s.phase = .parse) : HangsIff False (parseStep s) := by
  obtain ⟨hx, hc⟩ := h.parseReady hp
  obtain ⟨-, n, hn, -⟩ := h.exchanging (by simp [hp])
  obtain ⟨v, hv⟩ := get_of_written hc
  obtain ⟨b, hb⟩ := readValid_of_inv h (b := .rxbuf) nofun (congrArg (Option.map BitVec.toNat) hv)
  rcases (op_of_respLen hn).resolve_left hx with ho | ho
  · obtain ⟨t, ht⟩ := finishFw_answers b s
    rw [parseStep, ho]
    simp only [hb, andThen_next, ht]
    exact hangsIff_next nofun ((finishFw_inProgress ht).trans hi)
  · obtain ⟨t, ht⟩ := finishTarget_answers b s
    rw [parseStep, ho]
    simp only [hb, andThen_next, ht]
    exact hangsIff_next nofun ((finishTarget_inProgress ht).trans hi)

/-- The action of its phase always answers, and leaves a legal block stuck exactly on an answer that never comes. -/
theorem hangsIff_phaseStep : HangsIff s.neverAnswered (phaseStep s) := by
  unfold phaseStep State.neverAnswered
  cases hp : s.phase with
  | idle => exact hangsIff_next (by simp) hi
  | send => simpa [Phase.isWait] using hangsIff_sendStep hi h hp
  | wait1 => simpa [Phase.isWait] using hangsIff_wait1Step hi
  | settle1 => exact hangsIff_next (by simp) hi
  | ackRead => simpa [Phase.isWait] using hangsIff_ackReadStep hi
  | settle2 => exact hangsIff_next (by simp) hi
  | wait2 =>
    obtain ⟨-, n, hn, -⟩ := h.exchanging (by simp [hp])
    simpa [Phase.isWait] using hangsIff_wait2Step hi hn
  | respRead =>
    obtain ⟨-, n, hn, hle⟩ := h.exchanging (by simp [hp])
    simpa [Phase.isWait] using hangsIff_respReadStep hi hn hle
  | parse => simpa [Phase.isWait] using hangsIff_parseStep hi h hp
  | reserved n => exact absurd hp (h.phaseLegal n)

end Progress

/-- Settles O48: a step of a blocked block changes nothing, and else it is the action of its phase. -/
theorem blockStepNeverFaultsInside : Obligations.BlockStepNeverFaultsInside := by
  intro s h hh
  rw [step_block hh]
  by_cases hi : s.inProgress = none
  · obtain ⟨t, ht, hn⟩ := hangsIff_phaseStep hi h
    exact ⟨t, (blockStep_of_none hi).trans ht, fun hc => absurd hi hc, fun _ => hn⟩
  · exact ⟨s, blockStep_of_some hi, fun _ => rfl, fun hc => absurd hc hi⟩

end Sys2Proof.Machine

/-! Proof of the obligation on the canonical form of the buffers (O47). -/

namespace Sys2Proof.Machine

/-- The five buffers list strictly rising indices (R54). -/
structure State.Canonical (s : State) : Prop where
  data : s.data.wf = true
  frame : s.frame.wf = true
  ackbuf : s.ackbuf.wf = true
  rxbuf : s.rxbuf.wf = true
  uid : s.uid.wf = true

theorem canonical_iff {s : State} : s.Canonical ↔ ∀ b, (s.buffer b).wf = true := by
  constructor
  · intro h b
    cases b with
    | data => exact h.data
    | frame => exact h.frame
    | ackbuf => exact h.ackbuf
    | rxbuf => exact h.rxbuf
    | uid => exact h.uid
  · exact fun h => ⟨h .data, h .frame, h .ackbuf, h .rxbuf, h .uid⟩

theorem Memory.wf_ofBytes (bs : List Byte) : (Memory.ofBytes bs).wf = true := Memory.wf_writeBytes Memory.wf_nil 0 bs

/-- A completion writes no buffer (R15). -/
theorem canonical_complete {s : State} (h : s.Canonical) (code : ErrCode) (info : Half) :
    (complete code info s).Canonical := { h with }

theorem canonical_finishFw {b : List Byte} {s t : State} (h : s.Canonical) (hf : finishFw b s = .next t) :
    t.Canonical := by
  rcases finishFw_eq_next.1 hf with ⟨v, -, rfl⟩ | ⟨e, -, rfl⟩
  · exact { h with }
  · exact canonical_complete h _ _

theorem canonical_finishTarget {b : List Byte} {s t : State} (h : s.Canonical) (hf : finishTarget b s = .next t) :
    t.Canonical := by
  rcases finishTarget_eq_next.1 hf with ⟨u, -, rfl⟩ | ⟨e, -, rfl⟩
  · exact { h with uid := Memory.wf_writeBytes h.uid 0 u }
  · exact canonical_complete h _ _

/-- The reads and the target decode are the only actions of a phase that write a buffer (R138, R142, R176). -/
theorem canonical_phaseStep {s t : State} (hs : s.Canonical) (h : phaseStep s = .next t) : t.Canonical := by
  rcases phaseStep_cases h with ⟨c, a, -, rfl⟩ | ⟨-, rfl⟩ | ⟨-, w, -, ⟨-, rfl⟩ | ⟨-, rfl⟩⟩ | ⟨-, -, rfl⟩ |
    ⟨-, -, b, -, hb⟩ | ⟨-, rfl⟩ | ⟨-, ha⟩ | ⟨-, rfl⟩ | ⟨-, n, -, hr⟩ | ⟨-, b, -, hf⟩
  · exact { hs with }
  · exact hs
  · exact { hs with }
  · exact { hs with }
  · exact { hs with }
  · rcases hb with ⟨-, -, rfl⟩ | ⟨-, -, -, rfl⟩ | ⟨-, -, -, rfl⟩ | ⟨-, -, rfl⟩ | ⟨-, -, -, rfl⟩ |
      ⟨-, -, -, rfl⟩ <;> exact { hs with }
  · exact { hs with }
  · rcases ha with ⟨-, rfl⟩ | ⟨r, -, v, rfl, hv⟩
    · exact { hs with }
    · have hack := Memory.wf_writeBytes hs.ackbuf 0 (r.take 6)
      rcases hv with ⟨e, -, rfl⟩ | ⟨-, rfl⟩ <;> exact { hs with ackbuf := hack }
  · exact { hs with }
  · rcases hr with ⟨-, rfl⟩ | ⟨r, -, -, v, rfl, hv⟩
    · exact { hs with }
    · have hrx := Memory.wf_writeBytes hs.rxbuf 0 (r.take n)
      rcases hv with ⟨-, rfl⟩ | ⟨-, rfl⟩ <;> exact { hs with rxbuf := hrx }
  · rcases hf with ⟨-, hf⟩ | ⟨-, hf⟩
    · exact canonical_finishFw hs hf
    · exact canonical_finishTarget hs hf

theorem canonical_blockStep {s t : State} (hs : s.Canonical) (h : blockStep s = .next t) : t.Canonical := by
  rcases blockStep_cases h with ⟨-, rfl⟩ | ⟨-, h⟩
  · exact hs
  · exact canonical_phaseStep hs h

/-- The buffers an operation invalidates are emptied (R40). -/
theorem canonical_invalidate {s : State} (h : s.Canonical) (op : Option Op) : (invalidate op s).Canonical := by
  have hn := Memory.wf_nil
  match op with
  | none => exact h
  | some .encode => exact { h with frame := hn }
  | some .validateAck => exact { h with }
  | some .decodeHeader => exact { h with }
  | some .exchange => exact { h with frame := hn, ackbuf := hn, rxbuf := hn }
  | some .decodeFw => exact { h with }
  | some .decodeTarget => exact { h with uid := hn }
  | some .firmwareVersion => exact { h with frame := hn, ackbuf := hn, rxbuf := hn }
  | some .listPassiveTarget => exact { h with frame := hn, ackbuf := hn, rxbuf := hn, uid := hn }

/-- An acceptance writes `DATA` from index 0 on, or keeps it (R33, R44). -/
theorem canonical_accepted {s : State} (h : s.Canonical) (o : Byte) (r : Operands) : (accepted o r s).Canonical := by
  refine canonical_invalidate ?_ _
  refine { h with data := ?_ }
  dsimp only
  split_ifs
  · exact Memory.wf_ofBytes r.data
  · exact h.data

theorem canonical_exec {i : Instr} {s t : State} (hs : s.Canonical) (hw : i.wellFormed) (h : exec i s = .next t) :
    t.Canonical := by
  obtain ⟨-, a, rfl, hc⟩ := exec_cases hw h
  have ha := canonical_accepted hs i.op.selector i.operands
  have hframe := Memory.wf_ofBytes (buildFrame (framedPayload i))
  rcases hc with ⟨e, -, rfl⟩ | ⟨-, ⟨-, -, rfl⟩ | ⟨-, rfl⟩ | ⟨-, ⟨v, -, rfl⟩ | ⟨-, rfl⟩⟩ | ⟨-, hf⟩ | ⟨-, hf⟩ |
    ⟨-, -, rfl⟩⟩
  · exact canonical_complete ha _ _
  · exact { ha with frame := hframe }
  · exact { ha with }
  · exact { ha with }
  · exact canonical_complete ha _ _
  · exact canonical_finishFw ha hf
  · exact canonical_finishTarget ha hf
  · exact { ha with frame := hframe }

/-- Reset empties every buffer (R240). -/
theorem canonical_applyReset (s : State) : (applyReset s).Canonical := by
  have hn := Memory.wf_nil
  exact ⟨hn, hn, hn, hn, hn⟩

/-- Settles O47, by the agent that moves: the block, the host with a reset or a read, or a request. -/
theorem stepKeepsCanonicalMemory : Obligations.StepKeepsCanonicalMemory := by
  intro s t hb h
  have hs := canonical_iff.2 hb
  have hhost (rest : List HostAction) : State.Canonical { s with host := rest } := { hs with }
  refine canonical_iff.1 ?_
  rcases step_cases h with ⟨rest, -, -, hb⟩ | ⟨rest, -, -, rfl⟩ | ⟨rest, -, rfl⟩ | ⟨r, rest, v, -, -, -, rfl⟩ |
    ⟨hd, data, rest, i, -, -, hw, he⟩ | ⟨hd, data, rest, -, -, -, -, rfl⟩
  · exact canonical_blockStep (hhost rest) hb
  · exact hhost rest
  · exact canonical_applyReset _
  · exact { hs with }
  · exact canonical_exec (hhost rest) hw he
  · exact canonical_complete (canonical_accepted (hhost rest) _ _) _ _

end Sys2Proof.Machine

/-! Proof of the obligation on composites as exchanges (O40): each phase, on the latch of the EXCHANGE a composite
expands to. -/

namespace Sys2Proof.Machine

/-! ### The phases with the latch of the expansion -/

section
variable {s : State} (n : Half)

/-- `SEND` reads nothing of the latch (R137). -/
theorem sendStep_asExchange : sendStep (s.asExchange n) = mapNext (State.asExchange n) (sendStep s) := by
  have hr : readValid .frame (s.asExchange n) = readValid .frame s := rfl
  rw [sendStep, sendStep, hr]
  cases readValid .frame s with
  | fault f => rfl
  | refused e => rfl
  | next w =>
    simp only [andThen_next]
    cases ha : s.adapter.drawWrite.1 with
    | ok => rw [portWrite_ok ha, portWrite_ok (s := s.asExchange n) ha]; rfl
    | fail => rw [portWrite_fail ha, portWrite_fail (s := s.asExchange n) ha]; rfl
    | never => rw [portWrite_never ha, portWrite_never (s := s.asExchange n) ha]; rfl

/-- A ready-wait reads `TIMEOUT` only, which the expansion keeps (R91, R131). -/
theorem waitStep_asExchange {code : ErrCode} {leave : State → Result State}
    (hl : ∀ b, leave ((s.probed b).asExchange n) = mapNext (State.asExchange n) (leave (s.probed b))) :
    waitStep code leave (s.asExchange n) = mapNext (State.asExchange n) (waitStep code leave s) := by
  cases hw : s.wsub with
  | true =>
    rw [waitStep_delay hw, waitStep_delay (s := s.asExchange n) hw]
    rfl
  | false =>
    cases hb : s.adapter.drawProbe.1 with
    | never =>
      rw [waitStep_never hw hb, waitStep_never (s := s.asExchange n) hw hb]
      rfl
    | status b =>
      rw [waitStep_status hw hb, waitStep_status (s := s.asExchange n) hw hb, apply_ite (mapNext _),
        apply_ite (mapNext _), apply_ite (mapNext _), ← hl]
      rfl

/-- `WAIT2` is left by the response length, which is the same (R91, R141). -/
theorem leaveWait2_asExchange (hn : s.respLen = some n.toNat) :
    leaveWait2 (s.asExchange n) = mapNext (State.asExchange n) (leaveWait2 s) := by
  rw [leaveWait2_of_respLen hn, leaveWait2_of_respLen (s := s.asExchange n) (n := n.toNat) rfl]
  by_cases h0 : n.toNat = 0
  · rw [if_pos h0, if_pos h0]; rfl
  · rw [if_neg h0, if_neg h0]; rfl

/-- `ACKREAD` reads nothing of the latch (R138, R139). -/
theorem ackReadStep_asExchange : ackReadStep (s.asExchange n) = mapNext (State.asExchange n) (ackReadStep s) := by
  cases ha : s.adapter.drawRead.1 with
  | fail => rw [ackReadStep_fail ha, ackReadStep_fail (s := s.asExchange n) ha]; rfl
  | never => rw [ackReadStep_never ha, ackReadStep_never (s := s.asExchange n) ha]; rfl
  | ok r =>
    rw [ackReadStep_ok ha, ackReadStep_ok (s := s.asExchange n) ha]
    cases ackError (r.take 6) <;> rfl

/-- In every phase before the response read the block's step is the same on the latch of the expansion (R91). -/
theorem phaseStep_asExchange (hn : s.respLen = some n.toNat) (hr : s.phase ≠ .respRead) (hp : s.phase ≠ .parse) :
    phaseStep (s.asExchange n) = mapNext (State.asExchange n) (phaseStep s) := by
  have hph : (s.asExchange n).phase = s.phase := rfl
  rw [phaseStep, phaseStep, hph]
  cases h : s.phase with
  | idle => rfl
  | send => exact sendStep_asExchange n
  | wait1 => exact waitStep_asExchange n fun _ => rfl
  | settle1 => rfl
  | ackRead => exact ackReadStep_asExchange n
  | settle2 => rfl
  | wait2 => exact waitStep_asExchange n fun b => leaveWait2_asExchange (s := s.probed b) n hn
  | respRead => exact absurd h hr
  | parse => exact absurd h hp
  | reserved k => rfl

/-- A response read that answered `r`, of any length asked for: bytes beyond the capacity fault (R52, R142). -/
theorem respReadStep_answered {m : Nat} {r : List Byte} (hm : s.respLen = some m)
    (ha : s.adapter.drawRead.1 = .ok r) : respReadStep s =
      if (r.take m).length ≤ 262 then
        .next (if s.op = some .exchange then succeed (s.respStored m r) else { s.respStored m r with phase := .parse })
      else .fault (.bufferWrite .rxbuf) := by
  rw [respReadStep, hm]
  dsimp only
  rw [portRead_ok ha]
  dsimp only
  by_cases hl : (r.take m).length ≤ 262
  · rw [if_pos hl, memWrite_of (by rwa [Nat.zero_add]), andThen_next]
    exact (apply_ite Host.Outcome.next _ _ _).symm
  · rw [if_neg hl, memWrite_beyond _ (by rw [Nat.zero_add]; exact Nat.lt_of_not_le hl)]
    rfl

/-- The end of a composite that has read its response, as an EXCHANGE ends there: with success (R142). -/
def State.endInParse (t : State) : State := if t.phase = .parse then succeed t else t

/-- The response read completes the EXCHANGE where it takes the composite to `PARSE` (R91, R142). -/
theorem respReadStep_asExchange (hn : s.respLen = some n.toNat) (hp : s.phase = .respRead)
    (ho : s.op ≠ some .exchange) : respReadStep (s.asExchange n) =
      mapNext (State.asExchange n) (mapNext State.endInParse (respReadStep s)) := by
  have hn' : (s.asExchange n).respLen = some n.toNat := rfl
  cases ha : s.adapter.drawRead.1 with
  | fail => rw [respReadStep_fail hn ha, respReadStep_fail hn' ha]; rfl
  | never =>
    have hend : (s.stuck (.read n.toNat) s.adapter.drawRead.2).endInParse = s.stuck _ s.adapter.drawRead.2 :=
      if_neg (by simp [hp])
    rw [respReadStep_never hn ha, respReadStep_never hn' ha]
    exact congrArg (fun t => Host.Outcome.next (t.asExchange n)) hend.symm
  | ok r =>
    have ho' : (s.asExchange n).op = some .exchange := rfl
    rw [respReadStep_answered hn ha, respReadStep_answered hn' ha, if_neg ho, if_pos ho', apply_ite (mapNext _),
      apply_ite (mapNext _)]
    rfl

end

/-- Settles O40: an event in progress blocks both; else the phases say it one by one. -/
theorem compositeRunsAsExchange : Obligations.CompositeRunsAsExchange := by
  intro s n hh hn _ hsel
  have ho : s.op ≠ some .exchange := by
    rw [Ne, op_eq_exchange]
    rcases hsel with h | h <;> rw [h] <;> decide
  have hb : step s = blockStep s := step_block hh
  have hb' : step (s.asExchange n) = blockStep (s.asExchange n) := step_block hh
  rw [hb, hb']
  by_cases hi : s.inProgress = none
  · rw [blockStep_of_none hi, blockStep_of_none (s := s.asExchange n) hi]
    refine ⟨phaseStep_asExchange n hn, fun hp => ?_⟩
    have hp' : (s.asExchange n).phase = .respRead := hp
    rw [phaseStep, phaseStep, hp, hp']
    exact respReadStep_asExchange n hn hp ho
  · rw [blockStep_of_some hi, blockStep_of_some (s := s.asExchange n) hi]
    refine ⟨fun _ _ => rfl, fun hp => ?_⟩
    rw [andThen_next, if_neg (by simp [hp])]
    rfl

end Sys2Proof.Machine

/-! Proofs of the obligations on the encodings (O9 to O12): the decoder and the encoder are inverse, and a line of text
parses to its fields. -/

namespace Sys2Proof.Machine

/-! ### The descriptor of a request -/

/-- What decodes: a descriptor with `DLEN` data bytes and a selector of R72; each of its fields goes to the operands
(R70 to R72). -/
theorem decode_eq_instr {h : Header} {data : List Byte} {i : Instr} :
    decode h data = .instr i ↔ data.length = (Header.dlen h).toNat ∧
      ∃ op, Op.ofSelector (Header.opsel h) = some op ∧ op.instr (Header.operands h data) = i := by
  unfold decode
  split
  · rename_i hl
    split
    · rename_i op hop
      simp [hl, hop]
    · rename_i hop
      simp [hop]
  · rename_i hl
    simp [hl]

/-- Settles O10: the header carries the selector and the fields of the request. -/
theorem decodeOfEncode : Obligations.DecodeOfEncode := by
  intro i hw
  obtain ⟨-, hcard, htime, hrlen, hdlen, hsel⟩ := Laws.HeaderSelector.of_fields i
  have hops : Header.operands i.header i.operands.data = i.operands := by
    rw [Header.operands, hcard, htime, hrlen]
  refine decode_eq_instr.2 ⟨?_, i.op, hsel, ?_⟩
  · exact (hdlen ▸ toNat_dlen hw).symm
  · exact hops ▸ op_instr_operands i

/-- Settles O11: the request has the descriptor's own fields, and a header is assembled from its fields. -/
theorem encodeOfDecode : Obligations.EncodeOfDecode := by
  intro h data i hd
  refine ⟨wellFormed_of_decode hd, ?_⟩
  obtain ⟨hl, op, hop, rfl⟩ := decode_eq_instr.1 hd
  have hlt : data.length < 65536 := hl ▸ (Header.dlen h).isLt
  have hdlen : (Header.operands h data).dlen = Header.dlen h :=
    BitVec.eq_of_toNat_eq ((toNat_dlen (r := Header.operands h data) hlt).trans hl)
  rw [encode, Instr.header, instr_op, instr_operands, selector_of_ofSelector hop, hdlen]
  exact congrArg (·, data) (assembleHeader_fields h)

/-- Settles O9: the decoder evaluates to them. -/
theorem wordsDecodeAsWritten : Obligations.WordsDecodeAsWritten := ⟨rfl, rfl, rfl, rfl, rfl, rfl⟩

/-! ### The text of a line -/

section
variable {l : AsmLine}

/-- Each field of a line reads back from its word, where the line does not have it yet (R90). -/
theorem addField_data (h : l.data = none) (d : List Byte) :
    l.addField ("data=[".toList ++ [' '].intercalate (d.map hexPair) ++ [']']) = some { l with data := some d } := by
  rw [AsmLine.addField, List.append_assoc, stripStart_append]
  simp [h, hexBytes_intercalate]

theorem addField_timeout (h : l.timeout = none) (t : Half) :
    l.addField ("timeout=".toList ++ Nat.toDigits 10 t.toNat) = some { l with timeout := some t } := by
  have hd (w : List Char) : stripStart "data=[".toList ("timeout=".toList ++ w) = none := rfl
  rw [AsmLine.addField, hd, stripStart_append]
  simp [h, fieldNumber_toDigits]

theorem addField_rlen (h : l.rlen = none) (n : Half) :
    l.addField ("rlen=".toList ++ Nat.toDigits 10 n.toNat) = some { l with rlen := some n } := by
  have hd (w : List Char) : stripStart "data=[".toList ("rlen=".toList ++ w) = none := rfl
  have ht (w : List Char) : stripStart "timeout=".toList ("rlen=".toList ++ w) = none := rfl
  rw [AsmLine.addField, hd, ht, stripStart_append]
  simp [h, fieldNumber_toDigits]

theorem addField_cardType (h : l.cardType = none) (c : Byte) :
    l.addField ("cardtype=0x".toList ++ hexPair c) = some { l with cardType := some c } := by
  have hd (w : List Char) : stripStart "data=[".toList ("cardtype=0x".toList ++ w) = none := rfl
  have ht (w : List Char) : stripStart "timeout=".toList ("cardtype=0x".toList ++ w) = none := rfl
  have hr (w : List Char) : stripStart "rlen=".toList ("cardtype=0x".toList ++ w) = none := rfl
  rw [AsmLine.addField, hd, ht, hr, stripStart_append]
  simp [h, fieldNumber_hexPair]

end

/-- An optional field at the head of the remaining words: the line with it is read, or it is not there. -/
theorem foldlM_addField {α : Type} {word : α → List Char} (line : Option α → AsmLine)
    (h : ∀ a, (line none).addField (word a) = some (line (some a))) (o : Option α) (ws : List (Option (List Char))) :
    ((o.map word :: ws).filterMap id).foldlM AsmLine.addField (line none) =
      (ws.filterMap id).foldlM AsmLine.addField (line o) := by
  cases o with
  | none => rfl
  | some a => simp [h]

/-- The fields of a line read back from their words, in the order of R90. -/
theorem foldlM_fieldWords (l : AsmLine) : l.fieldWords.foldlM AsmLine.addField { op := l.op } = some l := by
  obtain ⟨op, data, timeout, rlen, cardType⟩ := l
  calc _ = _ := foldlM_addField (fun d => ⟨op, d, none, none, none⟩) (addField_data rfl) data _
    _ = _ := foldlM_addField (fun t => ⟨op, data, t, none, none⟩) (addField_timeout rfl) timeout _
    _ = _ := foldlM_addField (fun n => ⟨op, data, timeout, n, none⟩) (addField_rlen rfl) rlen _
    _ = _ := foldlM_addField (fun c => ⟨op, data, timeout, rlen, c⟩) (addField_cardType rfl) cardType []

theorem isWord_mnemonic (op : Op) : IsWord op.mnemonic.toList := by
  cases op <;> exact isWord_plain (by simp [Op.mnemonic]) (by simp [Op.mnemonic])

/-- A word that begins with plain characters and goes on with plain ones. -/
theorem isWord_append {a w : List Char} (ha : a ≠ [] ∧ ∀ c ∈ a, c ≠ ' ' ∧ c ≠ '[')
    (hw : ∀ c ∈ w, c ≠ ' ' ∧ c ≠ '[') : IsWord (a ++ w) :=
  isWord_plain (by simp [ha.1]) fun c hc => (List.mem_append.1 hc).elim (ha.2 c) (hw c)

/-- The bytes between the brackets of `data=[…]` do not end them. -/
theorem bracket_not_mem_hexPairs (d : List Byte) : ']' ∉ [' '].intercalate (d.map hexPair) := by
  induction d with
  | nil => decide
  | cons b d ih =>
    have hb : ']' ∉ hexPair b := fun h => (plain_hexPair b _ h).2.2 rfl
    cases d with
    | nil => simpa [List.intercalate] using hb
    | cons c d =>
      rw [List.map_cons, List.map_cons, List.intercalate_cons_cons]
      simpa [hb] using ih

/-- Each field's text is one word, the data bytes between brackets included. -/
theorem isWord_of_mem_fieldWords {l : AsmLine} {w : List Char} (h : w ∈ l.fieldWords) : IsWord w := by
  simp only [AsmLine.fieldWords, List.mem_filterMap, List.mem_cons, List.not_mem_nil, or_false, id_eq,
    exists_eq_right, eq_comm (a := some w), Option.map_eq_some_iff] at h
  rcases h with ⟨d, -, rfl⟩ | ⟨t, -, rfl⟩ | ⟨n, -, rfl⟩ | ⟨c, -, rfl⟩
  · exact isWord_brackets (a := "data=".toList) (by simp) (bracket_not_mem_hexPairs d)
  · exact isWord_append (by simp) (plain_toDigits _)
  · exact isWord_append (by simp) (plain_toDigits _)
  · exact isWord_append (by simp) fun x hx => ⟨(plain_hexPair c x hx).1, (plain_hexPair c x hx).2.1⟩

/-- The operation a mnemonic names (R90). -/
theorem find?_mnemonic (op : Op) : (Op.all.find? fun o => o.mnemonic.toList = op.mnemonic.toList) = some op := by
  cases op <;> decide

/-- The text of a line parses to it (R90). -/
theorem parseLine_text (l : AsmLine) : parseLine l.text = some l := by
  have hwords : ∀ w ∈ l.op.mnemonic.toList :: l.fieldWords, IsWord w := by
    rintro w (_ | ⟨_, hw⟩)
    · exact isWord_mnemonic l.op
    · exact isWord_of_mem_fieldWords hw
  rw [parseLine, AsmLine.text, splitWords_intercalate hwords]
  dsimp only
  rw [find?_mnemonic]
  exact foldlM_fieldWords l

/-- Settles O12: the text parses word by word, and the line's descriptor is the encoding of its request. -/
theorem assembledLineDecodes : Obligations.AssembledLineDecodes := by
  refine ⟨rfl, fun l => ⟨?_, parseLine_text l⟩, fun l hl => ⟨?_, ?_, ?_⟩⟩
  · cases l.op <;> decide
  · have hd : l.operands.dlen.toNat = (l.data.getD []).length := toNat_dlen hl
    rw [← hd]
    simp only [AsmLine.assemble, encode, Instr.header, instr_op, instr_operands, toNat_assembleHeader]
    rfl
  · simp only [AsmLine.assemble, encode, instr_operands]
    rfl
  · exact decodeOfEncode (l.op.instr l.operands) (by rwa [Instr.wellFormed, instr_operands])

end Sys2Proof.Machine

/-! Proofs of the obligations on the wire frames (O14, O15, O16) and on the decode of a composite's response (O39). -/

namespace Sys2Proof.Machine

/-! ### A command frame -/

/-- The payload stands after the direction byte (R80). -/
theorem payload_buildFrame (pd : List Byte) : ((buildFrame pd).drop 6).take pd.length = pd := by
  simp [buildFrame]

/-- `DCS` stands after the payload (R80). -/
theorem checksum_buildFrame (pd : List Byte) :
    (buildFrame pd)[6 + pd.length]? = some (neg8 (tfiHostToChip.toNat + (sum8 pd).toNat)) := by
  simp [buildFrame_getElem?]

/-- The postamble ends the frame (R80). -/
theorem postamble_buildFrame (pd : List Byte) : (buildFrame pd)[7 + pd.length]? = some postamble := by
  rw [show 7 + pd.length = 6 + (pd.length + 1) by omega, buildFrame_getElem?]
  simp

/-- `neg8` is the negation in bytes (R12). -/
theorem add_neg8 (b : Byte) (n : Nat) (h : b = BitVec.ofNat 8 n) : b + neg8 n = 0 := by
  subst h
  apply BitVec.eq_of_toNat_eq
  rw [BitVec.toNat_add, toNat_neg8, BitVec.toNat_ofNat]
  show _ = 0
  omega

/-- Settles O14, field by field. -/
theorem frameLayout : Obligations.FrameLayout := by
  intro pd hl
  have hlen : (BitVec.ofNat 8 (pd.length + 1)).toNat = pd.length + 1 := by
    rw [BitVec.toNat_ofNat, Nat.mod_eq_of_lt (by omega)]
  refine ⟨length_buildFrame pd, rfl, ⟨_, _, rfl, rfl, hlen, ?_, ?_⟩, rfl, payload_buildFrame pd,
    ⟨_, checksum_buildFrame pd, ?_⟩, postamble_buildFrame pd⟩
  · rw [length_buildFrame, hlen]
  · rw [toNat_neg8, hlen]
    omega
  · rw [toNat_neg8, sum8, BitVec.toNat_ofNat, Nat.add_mod_mod]
    rfl

/-- Settles O15: each check byte is the negation of what it is added to. -/
theorem checksumLaws : Obligations.ChecksumLaws := by
  intro pd _
  refine ⟨_, _, _, _, rfl, rfl, rfl, checksum_buildFrame pd, add_neg8 _ _ rfl, ?_⟩
  rw [payload_buildFrame, foldr_add_eq_sum8]
  refine add_neg8 _ _ (BitVec.eq_of_toNat_eq ?_)
  rw [BitVec.toNat_add, BitVec.toNat_ofNat]

/-! ### The ack test -/

theorem isAck_iff {r : List Byte} : isAck r = true ↔ r = ackPattern := decide_eq_true_iff

/-- Settles O16: a sequence is its length and its bytes. -/
theorem ackTestIsExact : Obligations.AckTestIsExact := by
  refine ⟨fun r => ?_, fun i v hi hne => ?_⟩
  · rw [isAck_iff]
    constructor
    · rintro rfl
      exact ⟨rfl, fun _ _ => rfl⟩
    · rintro ⟨hl, hr⟩
      refine List.ext_getElem? fun i => ?_
      by_cases hi : i < 6
      · exact hr i hi
      · rw [List.getElem?_eq_none (by omega), List.getElem?_eq_none (Nat.le_of_not_lt hi)]
  · refine Bool.eq_false_iff.2 fun h => hne ?_
    rw [isAck_iff] at h
    rw [← List.getElem?_set_self (l := ackPattern) (a := v) hi]
    exact congrArg (·[i]?) h.symm

/-! ### A composite's decode -/

/-- What the decode of a composite and the standalone decode of its response show the same, and where their errors
differ (R91). -/
structure State.SameDecode (s t : State) : Prop where
  errCode : s.status.errCode = t.status.errCode
  errinfo : s.errinfo = t.errinfo
  errPhase : s.status.errCode ≠ .ok → s.status.errPhase = .parse ∧ t.status.errPhase = .idle

theorem sameDecode_succeed (s u : State) : (succeed s).SameDecode (succeed u) := ⟨rfl, rfl, fun h => absurd rfl h⟩

/-- An error records the phase it is raised in (R216). -/
theorem sameDecode_raise {s u : State} {e : OpError} (he : e.code ≠ .ok) (hs : s.phase = .parse)
    (hu : u.phase = .idle) : (raise e s).SameDecode (raise e u) :=
  ⟨rfl, rfl, fun _ => ⟨(if_neg he).trans hs, (if_neg he).trans hu⟩⟩

section
variable {s u t t' : State} {b : List Byte} (hs : s.phase = .parse) (hu : u.phase = .idle)
include hs hu

theorem finishFw_sameDecode (h : finishFw b s = .next t) (h' : finishFw b u = .next t') :
    t.SameDecode t' ∧ (t.status.errCode = .ok → t.fwinfo = t'.fwinfo) := by
  cases hd : fwDecode b with
  | ok v =>
    cases h.symm.trans (finishFw_eq_next.2 (.inl ⟨v, hd, rfl⟩))
    cases h'.symm.trans (finishFw_eq_next.2 (.inl ⟨v, hd, rfl⟩))
    exact ⟨sameDecode_succeed _ _, fun _ => rfl⟩
  | error e =>
    have he : e.code ≠ .ok := by rcases fwDecode_error hd with hc | hc <;> rw [hc] <;> decide
    cases h.symm.trans (finishFw_eq_next.2 (.inr ⟨e, hd, rfl⟩))
    cases h'.symm.trans (finishFw_eq_next.2 (.inr ⟨e, hd, rfl⟩))
    exact ⟨sameDecode_raise he hs hu, fun hok => absurd hok he⟩

theorem finishTarget_sameDecode (hcfg : u.cfg = s.cfg) (huid : u.uid = s.uid) (h : finishTarget b s = .next t)
    (h' : finishTarget b u = .next t') :
    t.SameDecode t' ∧ (t.status.errCode = .ok → t.uidlen = t'.uidlen ∧ t.uid = t'.uid) := by
  cases hd : targetDecode s.cfg.uidLenOff b with
  | ok v =>
    cases h.symm.trans (finishTarget_eq_next.2 (.inl ⟨v, hd, rfl⟩))
    cases h'.symm.trans (finishTarget_eq_next.2 (.inl ⟨v, hcfg ▸ hd, rfl⟩))
    exact ⟨sameDecode_succeed _ _, fun _ => ⟨rfl, congrArg (·.writeBytes 0 v) huid.symm⟩⟩
  | error e =>
    have he : e.code ≠ .ok := by rcases targetDecode_error hd with hc | hc <;> rw [hc] <;> decide
    cases h.symm.trans (finishTarget_eq_next.2 (.inr ⟨e, hd, rfl⟩))
    cases h'.symm.trans (finishTarget_eq_next.2 (.inr ⟨e, hcfg ▸ hd, rfl⟩))
    exact ⟨sameDecode_raise he hs hu, fun hok => absurd hok he⟩

end

/-- The step in `PARSE` of a composite that has read `b` (R185, R190). -/
theorem step_parse {s : State} {b : List Byte} (hh : s.host = []) (hi : s.inProgress = none) (hp : s.phase = .parse)
    (hb : readValid .rxbuf s = .next b) :
    (s.req.opsel = 0x30 → step s = finishFw b s) ∧ (s.req.opsel = 0x31 → step s = finishTarget b s) := by
  rw [step_phase hh hi, phaseStep, hp]
  constructor <;> intro ho
  · have hop : s.op = some .firmwareVersion := by rw [State.op, ho]; rfl
    simp only [parseStep, hop, hb, andThen_next]
  · have hop : s.op = some .listPassiveTarget := by rw [State.op, ho]; rfl
    simp only [parseStep, hop, hb, andThen_next]

/-- A request that runs was presented to a block that is not busy (R44). -/
theorem not_busy_of_exec {i : Instr} {s t : State} (h : exec i s = .next t) : s.status.busy = false := by
  cases hb : s.status.busy with
  | false => rfl
  | true =>
    rw [exec_busy hb] at h
    cases h

/-- Settles O39: both decode the same bytes, the one in `PARSE`, the other in its acceptance step. -/
theorem compositeDecodesAsStandalone : Obligations.CompositeDecodesAsStandalone := by
  intro s u t t' r n hh hi hp hcfg hn hl h262 hb hstep
  have hread : readValid .rxbuf s = .next r.data := readValid_of (by simp [State.count, hn, hl]) hb
  obtain ⟨hfw, htarget⟩ := step_parse hh hi hp hread
  refine ⟨fun ho he => ?_, fun ho huid he => ?_⟩
  · rw [hfw ho] at hstep
    rw [exec_decodeFw (not_busy_of_exec he) h262] at he
    obtain ⟨⟨hcode, hinfo, hphase⟩, hres⟩ := finishFw_sameDecode hp (accepted_phase _ _ _) hstep he
    exact ⟨hcode, hinfo, hres, hphase⟩
  · have huid' : (accepted 0x21 r u).uid = s.uid := huid.symm
    rw [htarget ho] at hstep
    rw [exec_decodeTarget (not_busy_of_exec he) h262] at he
    obtain ⟨⟨hcode, hinfo, hphase⟩, hres⟩ := finishTarget_sameDecode hp (accepted_phase _ _ _)
      ((accepted_cfg _ _ _).trans hcfg) huid' hstep he
    exact ⟨hcode, hinfo, hres, hphase⟩

end Sys2Proof.Machine

/-! Proof of the obligation that a Frame Codec result depends on the request only (O25). -/

namespace Sys2Proof.Machine

/-! ### Completions with the same result -/

/-- The completions of one request in two states: the same flags, `ERRINFO` and output `f`, both in `IDLE`, and no event
appended to the trace `tr` (R100). -/
structure State.SameResult {α : Type} (f : State → α) (tr : List Event) (s t : State) : Prop where
  status : t.status = s.status
  errinfo : t.errinfo = s.errinfo
  output : f t = f s
  idle : t.phase = .idle
  trace : s.trace = tr

/-- What ENCODE writes (R103). -/
def State.encodeOutput (s : State) : Memory × Option (BitVec 9) := (s.frame, s.flen.get)

/-- The frame of a longer payload does not fit `FRAME` (R52, R54, R81). -/
theorem writeFrame_of_lt_length {pd : List Byte} {s : State} (hl : 254 < pd.length) :
    writeFrame pd s = .fault (.bufferWrite .frame) := by
  have hfit : Buffer.frame.capacity < 0 + (buildFrame pd).length := by
    simp only [Buffer.capacity, length_buildFrame]
    omega
  rw [writeFrame, memWrite_beyond s hfit, andThen_fault]

/-- ENCODE begins with an empty `FRAME` (R40). -/
theorem accepted_encode_frame (r : Operands) (s : State) : (accepted 0x01 r s).frame = [] := rfl

section
variable {α : Type} {f : State → α} {tr : List Event} {s t : State}

/-- A completion takes from the state it completes the phase, the output and the trace, and from no other register. -/
theorem sameResult_complete (code : ErrCode) (info : Half) (hp : t.phase = s.phase)
    (hf : f (complete code info t) = f (complete code info s)) (ht : s.trace = tr) :
    State.SameResult f tr (complete code info s) (complete code info t) where
  status := by simp only [complete, hp]
  errinfo := rfl
  output := hf
  idle := rfl
  trace := ht

variable (hcfg : s.cfg = t.cfg) (hs : s.status.busy = false) (ht : t.status.busy = false)
include hcfg

/-- The checks of R74 read the latch and the parameters only. -/
theorem operandError_accepted_congr (o : Byte) (r : Operands) :
    operandError (accepted o r s) = operandError (accepted o r t) := by
  simp only [operandError, op_accepted, accepted_req, accepted_cfg, hcfg]

include hs ht

/-- An operation on the request's data runs alike from two states when its rule does and its output is invalidated
alike (R40, R45, R74). -/
theorem start_sameResult {o : Byte} {r : Operands} {k : State → List Byte → Result State} (hl : r.data.length ≤ 262)
    (hf : ∀ e, f (raise e (accepted o r t)) = f (raise e (accepted o r s)))
    (hk : Alike (State.SameResult f s.trace) (k (accepted o r s) r.data) (k (accepted o r t) r.data)) :
    Alike (State.SameResult f s.trace) (start o r s fun a => andThen (readValid .data a) (k a))
      (start o r t fun a => andThen (readValid .data a) (k a)) := by
  rw [start_idle hs, start_idle ht, ← operandError_accepted_congr hcfg]
  cases operandError (accepted o r s) with
  | some e =>
    have hp : (accepted o r t).phase = (accepted o r s).phase := by simp
    exact .next (sameResult_complete e.code e.info hp (hf e) (accepted_trace o r s))
  | none =>
    simp only [readValid_data_accepted hl, andThen_next]
    exact hk

variable {r : Operands} (hl : r.data.length ≤ 262)
include hl

/-- The frame is written over an empty `FRAME`, or it does not fit and both stop. -/
theorem exec_encode_sameResult :
    Alike (State.SameResult State.encodeOutput s.trace) (exec (.encode r) s) (exec (.encode r) t) := by
  show Alike _ (execEncode r s) (execEncode r t)
  refine start_sameResult hcfg hs ht hl (fun _ => rfl) ?_
  by_cases hfit : r.data.length ≤ 254
  · simp only [writeFrame_of_length hfit (accepted_encode_frame r _), andThen_next]
    exact .next (sameResult_complete .ok 0 rfl rfl rfl)
  · simp only [writeFrame_of_lt_length (not_le.1 hfit), andThen_fault]
    exact .fault _

theorem exec_validateAck_sameResult :
    Alike (State.SameResult (·.ackok.get) s.trace) (exec (.validateAck r) s) (exec (.validateAck r) t) := by
  show Alike _ (execValidateAck r s) (execValidateAck r t)
  exact start_sameResult hcfg hs ht hl (fun _ => rfl) (.next (sameResult_complete .ok 0 rfl rfl rfl))

theorem exec_decodeHeader_sameResult :
    Alike (State.SameResult (·.hdr.get) s.trace) (exec (.decodeHeader r) s) (exec (.decodeHeader r) t) := by
  show Alike _ (execDecodeHeader r s) (execDecodeHeader r t)
  refine start_sameResult hcfg hs ht hl (fun _ => rfl) ?_
  cases headerDecode r.data with
  | error e => exact .next (sameResult_complete e.code e.info rfl rfl rfl)
  | ok v => exact .next (sameResult_complete .ok 0 rfl rfl rfl)

end

/-- Settles O25, by the operation: a request that runs from one state runs alike from the other. -/
theorem codecDependsOnRequestOnly : Obligations.CodecDependsOnRequestOnly := by
  intro r s₁ s₂ t₁ hcfg hb hl
  refine ⟨fun h => ?_, fun h => ?_, fun h => ?_⟩
  · obtain ⟨t₂, ht₂, hr⟩ := (exec_encode_sameResult hcfg (not_busy_of_exec h) hb hl).of_next h
    obtain ⟨hframe, hflen⟩ := Prod.mk.inj hr.output
    exact ⟨t₂, ht₂, hr.status, hr.errinfo, hframe, hflen, hr.idle, hr.trace⟩
  · obtain ⟨t₂, ht₂, hr⟩ := (exec_validateAck_sameResult hcfg (not_busy_of_exec h) hb hl).of_next h
    exact ⟨t₂, ht₂, hr.status, hr.errinfo, hr.output, hr.idle, hr.trace⟩
  · obtain ⟨t₂, ht₂, hr⟩ := (exec_decodeHeader_sameResult hcfg (not_busy_of_exec h) hb hl).of_next h
    exact ⟨t₂, ht₂, hr.status, hr.errinfo, hr.output, hr.idle, hr.trace⟩

end Sys2Proof.Machine

/-! Proofs of the obligations on the settle phases (O35), the runs of the waits (O41 to O43), the run of a whole
exchange (O44) and what ends an operation (O56). -/

namespace Sys2Proof.Machine

/-! ### The settle phases -/

/-- Settles O35: the action of both phases is the delay, with no test of its length. -/
theorem settlePhases : Obligations.SettlePhases := by
  intro s hh hi
  rw [step_phase hh hi]
  refine ⟨fun hp => ?_, fun hp => ?_⟩
  · rw [phaseStep, hp]
    rfl
  · rw [phaseStep, hp]
    rfl

/-! ### Runs of a ready-wait -/

/-- The error of a wait that times out (R131). -/
def Phase.timeoutCode : Phase → ErrCode
  | .wait1 => .timeout1
  | _ => .timeout2

/-- What follows a ready probe of a wait (R131, R141). -/
def Phase.leaveWait : Phase → State → Result State
  | .wait1 => fun s => .next { s with phase := .settle1 }
  | _ => leaveWait2

/-- `WAITACC` after `n` more probes that were not ready (R131, R134). -/
def State.accAfter (s : State) (n : Nat) : Nat :=
  if s.req.timeout = 0 then s.waitacc else s.waitacc + n * s.cfg.pollMs

/-- The state after probes that answered `js`, none of them ready, with the delay after each (R131). -/
abbrev State.polled (js : List Byte) (rest : List ProbeAnswer) (s : State) : State :=
  { s with
    laststat := js.getLastD s.laststat
    waitacc := s.accAfter js.length
    trace := s.trace ++ pollEvents s.cfg.pollMs js
    adapter := { s.adapter with probes := rest } }

/-- The state after such probes, and then one that answered `b` (R131, R132). -/
abbrev State.probedAfter (js : List Byte) (b : Byte) (rest : List ProbeAnswer) (s : State) : State :=
  { s.polled js rest with laststat := b, trace := s.trace ++ pollEvents s.cfg.pollMs js ++ [.probe b] }

/-- The next answer to a probe is the next one listed (R56). -/
theorem drawProbe_of_probes {a : Adapter} {x : ProbeAnswer} {rest : List ProbeAnswer} (h : a.probes = x :: rest) :
    a.drawProbe = (x, { a with probes := rest }) := by
  rw [Adapter.drawProbe, h]

/-- The next answer to a write is the next one listed (R56). -/
theorem drawWrite_of_writes {a : Adapter} {x : WriteAnswer} {rest : List WriteAnswer} (h : a.writes = x :: rest) :
    a.drawWrite = (x, { a with writes := rest }) := by
  rw [Adapter.drawWrite, h]

/-- The next answer to a read is the next one listed (R56). -/
theorem drawRead_of_reads {a : Adapter} {x : ReadAnswer} {rest : List ReadAnswer} (h : a.reads = x :: rest) :
    a.drawRead = (x, { a with reads := rest }) := by
  rw [Adapter.drawRead, h]

theorem run_one (s : State) : run 1 s = step s := by
  rw [run_succ]
  cases step s <;> rfl

/-- No polls change nothing. -/
theorem polled_nil (s : State) : s.polled [] s.adapter.probes = s := by
  have hacc : s.accAfter 0 = s.waitacc := by simp [State.accAfter]
  simp [State.polled, hacc, pollEvents]

/-- Polls after polls are polls (R131). -/
theorem polled_polled (b : Byte) (js : List Byte) (ps rest : List ProbeAnswer) (s : State) :
    (s.polled [b] ps).polled js rest = s.polled (b :: js) rest := by
  have hacc : (s.polled [b] ps).accAfter js.length = s.accAfter (b :: js).length := by
    simp only [State.accAfter, List.length_cons, List.length_nil]
    split_ifs
    · rfl
    · ring
  rw [State.polled, hacc]
  simp only [State.polled, pollEvents, List.getLastD_cons, List.getLastD_nil, List.flatMap_cons, List.flatMap_nil,
    List.append_nil, List.append_assoc]

section Waits
variable {s : State} {js : List Byte} {b : Byte} {rest : List ProbeAnswer} (hh : s.host = [])
  (hi : s.inProgress = none) (hp : s.phase.isWait)
include hh hi hp

/-- A step in either wait (R131). -/
theorem step_wait : step s = waitStep s.phase.timeoutCode s.phase.leaveWait s := by
  rw [step_phase hh hi]
  rcases hp with hp | hp <;> rw [phaseStep, hp] <;> rfl

variable (hw : s.wsub = false)
include hw

/-- A probe in either wait, answered `b` (R131). -/
theorem step_probe (ha : s.adapter.probes = .status b :: rest) : step s =
    if b ∈ s.cfg.readyStatuses then s.phase.leaveWait (s.probed b)
    else if s.req.timeout = 0 then .next { s.probed b with wsub := true }
    else if s.req.timeout.toNat < s.waitacc + s.cfg.pollMs then
      .next (raise ⟨s.phase.timeoutCode, infoOfByte b⟩ { s.probed b with waitacc := s.waitacc + s.cfg.pollMs })
    else .next { s.probed b with waitacc := s.waitacc + s.cfg.pollMs, wsub := true } := by
  rw [step_wait hh hi hp, waitStep_status hw (by rw [drawProbe_of_probes ha])]

/-- One probe that is not ready, within the timeout, and the delay after it (R131). -/
theorem run_poll (ha : s.adapter.probes = .status b :: rest) (hb : b ∉ s.cfg.readyStatuses)
    (ht : s.req.timeout = 0 ∨ s.waitacc + s.cfg.pollMs ≤ s.req.timeout.toNat) :
    run 2 s = .next (s.polled [b] rest) := by
  have hprobe : step s = .next { s.probed b with waitacc := s.accAfter 1, wsub := true } := by
    rw [step_probe hh hi hp hw ha, if_neg hb]
    by_cases h0 : s.req.timeout = 0
    · rw [if_pos h0, State.accAfter, if_pos h0]
    · rw [if_neg h0, if_neg (Nat.not_lt.2 (ht.resolve_left h0)), State.accAfter, if_neg h0, Nat.one_mul]
  rw [run_succ, hprobe, andThen_next, run_one]
  refine Eq.trans (step_wait hh hi hp) ((waitStep_delay rfl).trans ?_)
  simp [portDelay, State.emit, drawProbe_of_probes ha, pollEvents, hw]

variable (hn : ∀ x ∈ js, x ∉ s.cfg.readyStatuses)
include hn

/-- Any number of probes that are not ready, within the timeout (R131, R132, R134). -/
theorem run_polls (ha : s.adapter.probes = js.map .status ++ rest)
    (ht : s.req.timeout = 0 ∨ s.waitacc + js.length * s.cfg.pollMs ≤ s.req.timeout.toNat) :
    run (2 * js.length) s = .next (s.polled js rest) := by
  induction js generalizing s with
  | nil =>
    obtain rfl : s.adapter.probes = rest := ha
    rw [polled_nil]
    rfl
  | cons b js ih =>
    obtain ⟨hb, hn⟩ := List.forall_mem_cons.1 hn
    have hlen : (b :: js).length * s.cfg.pollMs = s.cfg.pollMs + js.length * s.cfg.pollMs := by
      rw [List.length_cons]
      ring
    have hpoll : run 2 s = .next (s.polled [b] (js.map .status ++ rest)) :=
      run_poll hh hi hp hw ha hb (ht.imp_right fun h => by omega)
    have hrest := ih (s := s.polled [b] (js.map .status ++ rest)) hh hi hp hw hn rfl <| by
      by_cases h0 : s.req.timeout = 0
      · exact .inl h0
      · refine .inr (le_of_eq_of_le ?_ (ht.resolve_left h0))
        simp only [State.accAfter, if_neg h0, List.length_cons, List.length_nil]
        ring
    rw [show 2 * (b :: js).length = 2 + 2 * js.length by rw [List.length_cons]; ring, run_add, hpoll, andThen_next,
      hrest, polled_polled]

/-- Probes that are not ready, within the timeout, and then a ready one: the wait is left (R131, R132). -/
theorem run_readyAfterPolls (hb : b ∈ s.cfg.readyStatuses) (ha : s.adapter.probes = js.map .status ++ .status b :: rest)
    (ht : s.req.timeout = 0 ∨ s.waitacc + js.length * s.cfg.pollMs ≤ s.req.timeout.toNat) :
    run (2 * js.length + 1) s = s.phase.leaveWait (s.probedAfter js b rest) := by
  rw [run_add, run_polls hh hi hp hw hn ha ht, andThen_next, run_one,
    step_probe (s := s.polled js (.status b :: rest)) hh hi hp hw rfl, if_pos hb]
  rfl

/-- Probes that are not ready, within the timeout, and then one that exceeds it: the wait fails (R131, R132). -/
theorem run_timeOutAfterPolls (hb : b ∉ s.cfg.readyStatuses)
    (ha : s.adapter.probes = js.map .status ++ .status b :: rest) (h0 : s.req.timeout ≠ 0)
    (ht : s.waitacc + js.length * s.cfg.pollMs ≤ s.req.timeout.toNat)
    (hx : s.req.timeout.toNat < s.accAfter js.length + s.cfg.pollMs) :
    run (2 * js.length + 1) s = .next (raise ⟨s.phase.timeoutCode, infoOfByte b⟩
      { s.probedAfter js b rest with waitacc := s.accAfter js.length + s.cfg.pollMs }) := by
  rw [run_add, run_polls hh hi hp hw hn ha (.inr ht), andThen_next, run_one,
    step_probe (s := s.polled js (.status b :: rest)) hh hi hp hw rfl, if_neg hb, if_neg h0, if_pos hx]
  rfl

end Waits

/-- Settles O41: after the polls, the ready probe leaves the wait. -/
theorem waitSucceedsAfterPolls : Obligations.WaitSucceedsAfterPolls := by
  intro s js b rest hh hi hw h0 hn hb ha ht hp
  have hacc : s.accAfter js.length = if s.req.timeout = 0 then 0 else js.length * s.cfg.pollMs := by
    rw [State.accAfter, h0, Nat.zero_add]
  refine (run_readyAfterPolls hh hi (hp.imp_right And.left) hw hn hb ha (by rwa [h0, Nat.zero_add])).trans ?_
  rcases hp with hp | ⟨hp, n, hr⟩
  · rw [hp, ← hacc]
    rfl
  · rw [hp, ← hacc]
    exact leaveWait2_of_respLen (s := s.probedAfter js b rest) hr

/-- Settles O42: the polls leave the accumulated wait within the timeout, and one more interval exceeds it. -/
theorem waitTimesOut : Obligations.WaitTimesOut := by
  rintro s js b rest hh hi ⟨-, hpoll, -⟩ hw h0 ht hn hlen ha hp
  obtain ⟨hn, hb⟩ := List.forall_mem_append.1 hn
  have hwithin : js.length * s.cfg.pollMs ≤ s.req.timeout.toNat := by
    rw [hlen]
    exact Nat.div_mul_le_self ..
  have hexceeds : s.req.timeout.toNat < js.length * s.cfg.pollMs + s.cfg.pollMs := by
    rw [hlen, ← Nat.succ_mul, Nat.mul_comm]
    exact Nat.lt_mul_div_succ _ hpoll
  have hacc : s.accAfter js.length = js.length * s.cfg.pollMs := by rw [State.accAfter, if_neg ht, h0, Nat.zero_add]
  refine (run_timeOutAfterPolls hh hi hp hw hn (hb b (List.mem_singleton_self b)) ha ht
    (by rwa [h0, Nat.zero_add]) (by rwa [hacc])).trans (congrArg (α := State) Host.Outcome.next ?_)
  rcases hp with hp | hp <;> simp [complete, hp, hacc, Phase.timeoutCode, infoOfByte, Nat.succ_mul]

/-- Settles O43: without a timeout any number of polls stays in the wait. -/
theorem zeroTimeoutWaitsForEver : Obligations.ZeroTimeoutWaitsForEver := by
  intro s js rest hh hi hp hw h0 ht hn ha
  refine ⟨_, run_polls hh hi hp hw hn ha (.inl ht), rfl, ?_, hw, rfl, rfl, rfl⟩
  simp [State.accAfter, ht, h0]

/-! ### The run of a whole exchange -/

/-- A run from `s` comes to `t`. -/
def State.Reaches (s t : State) : Prop := ∃ k, run k s = .next t

theorem State.Reaches.of_step {s t : State} (h : step s = .next t) : s.Reaches t := ⟨1, (run_one s).trans h⟩

theorem State.Reaches.trans {s t u : State} (hst : s.Reaches t) (htu : t.Reaches u) : s.Reaches u := by
  obtain ⟨j, hj⟩ := hst
  obtain ⟨k, hk⟩ := htu
  exact ⟨j + k, by rw [run_add, hj, andThen_next, hk]⟩

/-- What a run from `t` comes to, a run from before `t` comes to as well. -/
theorem State.Reaches.exists_trans {s t : State} {P : State → Prop} (hst : s.Reaches t) (ht : ∃ u, t.Reaches u ∧ P u) :
    ∃ u, s.Reaches u ∧ P u := by
  obtain ⟨u, htu, hu⟩ := ht
  exact ⟨u, hst.trans htu, hu⟩

section Exchange
variable {s : State} {w js ack resp : List Byte} {b : Byte} {n : Nat} {ws : List WriteAnswer} {ps : List ProbeAnswer}
  {rs : List ReadAnswer} (hh : s.host = []) (hi : s.inProgress = none)
include hh hi

/-- `SEND`, with the answer `ok` listed, leads to `WAIT1` (R137). -/
theorem reaches_wait1 (hp : s.phase = .send) (hf : readValid .frame s = .next w)
    (ha : s.adapter.writes = .ok :: ws) :
    s.Reaches (enterWait .wait1
      { s with trace := s.trace ++ [.write w true], adapter := { s.adapter with writes := ws } }) := by
  refine .of_step ?_
  rw [step_send hh hi hp hf, portWrite_ok (by rw [drawWrite_of_writes ha]), drawWrite_of_writes ha]
  rfl

/-- `SETTLE1` leads to `ACKREAD` (R140). -/
theorem reaches_ackRead (hp : s.phase = .settle1) :
    s.Reaches { s with trace := s.trace ++ [.delay s.cfg.settleMs], phase := .ackRead } :=
  .of_step ((settlePhases s hh hi).1 hp)

/-- `ACKREAD`, with an answer listed that begins with the pattern, leads to `SETTLE2` (R138, R139). -/
theorem reaches_settle2 (hp : s.phase = .ackRead) (hbuf : s.ackbuf = []) (ha : s.adapter.reads = .ok ack :: rs)
    (hack : ack.take 6 = ackPattern) :
    s.Reaches { s with
      trace := s.trace ++ [.read 6 (some ack)], adapter := { s.adapter with reads := rs }
      ackbuf := Memory.ofBytes (ack.take 6), ackcnt := Register.of 6, phase := .settle2 } := by
  obtain ⟨-, -, -, hread, -⟩ := ackReadPhase s hh hi hp hbuf
  have hd := drawRead_of_reads ha
  rw [hd] at hread
  exact .of_step (hread ack rfl hack)

/-- `SETTLE2` leads to `WAIT2` (R140). -/
theorem reaches_wait2 (hp : s.phase = .settle2) :
    s.Reaches (enterWait .wait2 { s with trace := s.trace ++ [.delay s.cfg.settleMs] }) :=
  .of_step ((settlePhases s hh hi).2 hp)

/-- `RESPREAD`, with an answer listed, ends an EXCHANGE (R142). -/
theorem reaches_endRespRead (hp : s.phase = .respRead) (hbuf : s.rxbuf = []) (ho : s.req.opsel = 0x10)
    (hr : s.respLen = some n) (hl : n ≤ 262) (ha : s.adapter.reads = .ok resp :: rs) :
    s.Reaches (succeed { s with
      trace := s.trace ++ [.read n (some resp)], adapter := { s.adapter with reads := rs }
      rxbuf := Memory.ofBytes (resp.take n), rxcnt := Register.of (BitVec.ofNat 9 (resp.take n).length) }) := by
  obtain ⟨-, hread, -⟩ := responseReadPhase s n hh hi hp hbuf hr hl
  have hd := drawRead_of_reads ha
  rw [hd] at hread
  have h := hread resp rfl
  rw [if_pos ho] at h
  exact .of_step h

section Polls
variable (hw : s.wsub = false) (h0 : s.waitacc = 0) (hn : ∀ x ∈ js, x ∉ s.cfg.readyStatuses)
  (hb : b ∈ s.cfg.readyStatuses) (ha : s.adapter.probes = js.map .status ++ .status b :: ps)
  (ht : s.req.timeout = 0 ∨ js.length * s.cfg.pollMs ≤ s.req.timeout.toNat)
include hw h0 hn hb ha ht

/-- The polls and the ready probe of `WAIT1` lead to `SETTLE1` (R131, R132). -/
theorem reaches_settle1 (hp : s.phase = .wait1) : s.Reaches { s.probedAfter js b ps with phase := .settle1 } := by
  have hrun := run_readyAfterPolls hh hi (.inl hp) hw hn hb ha (by rwa [h0, Nat.zero_add])
  rw [hp] at hrun
  exact ⟨_, hrun⟩

/-- The polls and the ready probe of `WAIT2` end an operation that asks for no bytes, and else lead to `RESPREAD`
(R131, R132, R141). -/
theorem reaches_leaveWait2 (hp : s.phase = .wait2) (hr : s.respLen = some n) :
    s.Reaches (if n = 0 then succeed { s.probedAfter js b ps with rxcnt := Register.of 0 }
      else { s.probedAfter js b ps with phase := .respRead }) := by
  have hrun := run_readyAfterPolls hh hi (.inr hp) hw hn hb ha (by rwa [h0, Nat.zero_add])
  rw [hp] at hrun
  exact ⟨_, hrun.trans (leaveWait2_of_respLen (s := s.probedAfter js b ps) hr)⟩

/-- The second half of a successful EXCHANGE: its second wait and, when it asks for bytes, its response read
(R141 to R143). -/
theorem reaches_exchangeEnd (hp : s.phase = .wait2) (hbuf : s.rxbuf = []) (ho : s.req.opsel = 0x10)
    (hr : s.respLen = some n) (hl : n ≤ 262) (hread : s.adapter.reads = .ok resp :: rs) :
    ∃ t, s.Reaches t ∧ t.phase = .idle ∧ t.status = ⟨false, true, .ok, .idle⟩ ∧ t.errinfo = 0 ∧
      t.ackcnt = s.ackcnt ∧ t.ackbuf = s.ackbuf ∧ t.rxcnt = Register.of (BitVec.ofNat 9 (resp.take n).length) ∧
      t.rxbuf = Memory.ofBytes (resp.take n) ∧
      t.trace = s.trace ++ pollEvents s.cfg.pollMs js ++ [Event.probe b] ++
        if n = 0 then [] else [Event.read n (some resp)] := by
  have hwait := reaches_leaveWait2 hh hi hw h0 hn hb ha ht hp hr
  by_cases hz : n = 0
  · subst hz
    exact ⟨_, hwait, rfl, rfl, rfl, rfl, rfl, rfl, hbuf, by simp⟩
  · rw [if_neg hz] at hwait ⊢
    have hlast := reaches_endRespRead (s := { s.probedAfter js b ps with phase := .respRead }) hh hi rfl hbuf ho hr hl
      hread
    exact ⟨_, hwait.trans hlast, rfl, rfl, rfl, rfl, rfl, rfl, rfl, rfl⟩

end Polls

/-- The first half of a successful EXCHANGE: the write, the first wait, and the ack read between the settle delays
(R137 to R140, R143). -/
theorem reaches_secondWait (hp : s.phase = .send) (hf : readValid .frame s = .next w) (hbuf : s.ackbuf = [])
    (hn : ∀ x ∈ js, x ∉ s.cfg.readyStatuses) (hb : b ∈ s.cfg.readyStatuses)
    (ht : s.req.timeout = 0 ∨ js.length * s.cfg.pollMs ≤ s.req.timeout.toNat)
    (hwrite : s.adapter.writes = .ok :: ws) (hprobe : s.adapter.probes = js.map .status ++ .status b :: ps)
    (hread : s.adapter.reads = .ok ack :: rs) (hack : ack.take 6 = ackPattern) :
    s.Reaches (enterWait .wait2 { s with
      laststat := b, ackbuf := Memory.ofBytes (ack.take 6), ackcnt := Register.of 6
      trace := s.trace ++ [.write w true] ++ pollEvents s.cfg.pollMs js ++ [Event.probe b] ++
        [.delay s.cfg.settleMs] ++ [.read 6 (some ack)] ++ [.delay s.cfg.settleMs]
      adapter := { s.adapter with writes := ws, probes := ps, reads := rs } }) := by
  refine (reaches_wait1 hh hi hp hf hwrite).trans ?_
  refine .trans (reaches_settle1 hh hi rfl rfl hn hb hprobe ht rfl) ?_
  refine .trans (reaches_ackRead hh hi rfl) ?_
  refine .trans (reaches_settle2 hh hi rfl hbuf hread hack) ?_
  exact reaches_wait2 hh hi rfl

end Exchange

/-- The valid bytes of `FRAME` are the frame that was built (R101). -/
theorem readValid_framed {pd : List Byte} {s : State} (p : Phase) (h : pd.length ≤ 254) :
    readValid .frame { s.framed pd with phase := p } = .next (buildFrame pd) := by
  refine readValid_of ?_ (Memory.readBytes_ofBytes _)
  have hc := toNat_count (w := 9) (show pd.length + 8 < 2 ^ 9 by omega)
  simp [State.count, hc]

/-- Settles O44: the acceptance enters `SEND`, and the two halves of the run follow. -/
theorem exchangeEventSequence : Obligations.ExchangeEventSequence := by
  intro s r js₁ js₂ ack resp b₁ b₂ ws rs ps hcfg hbusy hh hi hl hr hb₁ hb₂ hn ht hw hp hread hack
  obtain ⟨hn₁, hn₂⟩ := List.forall_mem_append.1 hn
  have h254 : r.data.length ≤ 254 := hl.trans hcfg.1
  have hfirst := reaches_secondWait (s := { (accepted 0x10 r s).framed r.data with phase := .send }) hh hi rfl
    (readValid_framed .send h254) rfl hn₁ hb₁ (ht.imp_right And.left) hw hp hread hack
  obtain ⟨t, ⟨k, hrun⟩, hphase, hstatus, herrinfo, hackcnt, hackbuf, hrxcnt, hrxbuf, htrace⟩ := hfirst.exists_trans <|
    reaches_exchangeEnd hh hi rfl rfl hn₂ hb₂ rfl (ht.imp_right And.right) rfl rfl rfl rfl hr rfl
  refine ⟨_, t, k, exec_exchange hbusy hl h254 hr, hrun, hphase, hstatus, herrinfo, hackcnt, hackbuf, hrxcnt, hrxbuf,
    htrace.trans ?_⟩
  simp [latch, ← BitVec.toNat_inj]

/-! ### What ends an operation -/

theorem State.CompletesTo.done {s t : State} (h : s.CompletesTo t) : t.status.done = true := by
  cases h <;> rfl

/-- The action of a phase leaves the flags as they are, or completes (R25, R26). -/
theorem phaseStep_status {s t : State} (h : phaseStep s = .next t) :
    t.status = s.status ∨ t.status.done = true := by
  rcases phaseStep_cases h with ⟨c, a, -, rfl⟩ | ⟨-, rfl⟩ | ⟨-, w, -, ⟨-, rfl⟩ | ⟨-, rfl⟩⟩ | ⟨-, -, rfl⟩ |
    ⟨-, -, b, -, hb⟩ | ⟨-, rfl⟩ | ⟨-, ha⟩ | ⟨-, rfl⟩ | ⟨-, n, -, hr⟩ | ⟨-, b, -, hf⟩
  · exact .inl rfl
  · exact .inl rfl
  · exact .inl rfl
  · exact .inr rfl
  · exact .inl rfl
  · rcases hb with ⟨-, -, rfl⟩ | ⟨-, -, -, rfl⟩ | ⟨-, -, -, rfl⟩ | ⟨-, -, rfl⟩ | ⟨-, -, -, rfl⟩ | ⟨-, -, -, rfl⟩
    · exact .inl rfl
    · exact .inr rfl
    · exact .inl rfl
    · exact .inl rfl
    · exact .inr rfl
    · exact .inl rfl
  · exact .inl rfl
  · rcases ha with ⟨-, rfl⟩ | ⟨r, -, v, rfl, ⟨e, -, rfl⟩ | ⟨-, rfl⟩⟩
    · exact .inr rfl
    · exact .inr rfl
    · exact .inl rfl
  · exact .inl rfl
  · rcases hr with ⟨-, rfl⟩ | ⟨r, -, -, v, rfl, ⟨-, rfl⟩ | ⟨-, rfl⟩⟩
    · exact .inr rfl
    · exact .inr rfl
    · exact .inl rfl
  · rcases hf with ⟨-, hf⟩ | ⟨-, hf⟩
    · exact .inr (finishFw_completesTo hf).done
    · exact .inr (finishTarget_completesTo hf).done

theorem blockStep_status {s t : State} (h : blockStep s = .next t) : t.status = s.status ∨ t.status.done = true := by
  rcases blockStep_cases h with ⟨-, rfl⟩ | ⟨-, h⟩
  · exact .inl rfl
  · exact phaseStep_status h

/-- Settles O56, by the agent that moves: a busy block takes no request, and a host read leaves the flags and the
latch. -/
theorem onlyResetAbortsAnOperation : Obligations.OnlyResetAbortsAnOperation := by
  intro s t _ hbusy h
  rcases step_cases h with ⟨rest, -, -, hb⟩ | ⟨rest, -, hb, rfl⟩ | ⟨rest, hh, -⟩ | ⟨r, rest, v, -, -, -, rfl⟩ |
    ⟨hd, data, rest, i, -, -, -, he⟩ | ⟨hd, data, rest, -, hb, -, -, rfl⟩
  · have hreq := (blockStep_frame hb).req
    rcases blockStep_status hb with hs | hdone
    · exact .inl ⟨hs ▸ hbusy, hreq⟩
    · exact .inr (.inl ⟨hdone, hreq⟩)
  · exact absurd hbusy (by simp [hb])
  · exact .inr (.inr ⟨rest, hh⟩)
  · exact .inl ⟨hbusy, rfl⟩
  · exact absurd hbusy (by simpa using not_busy_of_exec he)
  · exact absurd hbusy (by simp [hb])

end Sys2Proof.Machine

/-! Proofs of the obligations on the errors of the decodes (O21, O23) and on the `PARSE` step (O38). -/

namespace Sys2Proof.Machine

/-! ### Completion with an error -/

/-- An error records its code, its information and the phase it is raised in (R216). -/
theorem raise_of_ne_ok {e : OpError} (he : e.code ≠ .ok) (s : State) :
    raise e s = { s with status := ⟨false, true, e.code, s.phase⟩, errinfo := e.info, phase := .idle } := by
  rw [raise, complete, if_neg he]

theorem fwDecode_error_code_ne_ok {b : List Byte} {e : OpError} (h : fwDecode b = .error e) : e.code ≠ .ok := by
  rcases fwDecode_error h with hc | hc <;> simp [hc]

theorem targetDecode_error_code_ne_ok {u : Nat} {b : List Byte} {e : OpError} (h : targetDecode u b = .error e) :
    e.code ≠ .ok := by
  rcases targetDecode_error h with hc | hc <;> simp [hc]

theorem finishFw_raises {b : List Byte} {e : OpError} (s : State) (h : fwDecode b = .error e) :
    finishFw b s = .next { s with status := ⟨false, true, e.code, s.phase⟩, errinfo := e.info, phase := .idle } := by
  rw [← raise_of_ne_ok (fwDecode_error_code_ne_ok h)]
  exact finishFw_eq_next.2 (.inr ⟨e, h, rfl⟩)

theorem finishTarget_raises {b : List Byte} {e : OpError} {s : State} (h : targetDecode s.cfg.uidLenOff b = .error e) :
    finishTarget b s =
      .next { s with status := ⟨false, true, e.code, s.phase⟩, errinfo := e.info, phase := .idle } := by
  rw [← raise_of_ne_ok (targetDecode_error_code_ne_ok h)]
  exact finishTarget_eq_next.2 (.inr ⟨e, h, rfl⟩)

/-! ### The errors of DECODE_FW -/

theorem fwDecode_short {b : List Byte} (h : b.length < 11) : fwDecode b = .error (truncatedError 11) := dif_pos h

/-- A firmware response that first differs from the prefix at `i` (R170). -/
theorem fwDecode_mismatch {b : List Byte} {i : Nat} {g : Byte} (hl : 11 ≤ b.length) (hi : i < 6) (hg : b[i]? = some g)
    (ht : b.take i = fwPrefix.take i) (hne : fwPrefix[i]? ≠ some g) :
    fwDecode b = .error ⟨.unexpectedResponse, infoOfPair g i⟩ := by
  rw [fwDecode, dif_neg (by omega), firstMismatch_eq hi hg ht hne]

/-- Settles O21, by the check that fails. -/
theorem decodeFwReportsErrors : Obligations.DecodeFwReportsErrors := by
  intro r s hb hl
  rw [exec_decodeFw hb hl]
  refine ⟨fun h => ?_, fun i b h hi hg ht hne => ?_⟩
  · rw [finishFw_raises _ (fwDecode_short h)]
    simp [accepted, invalidate, latch, Operands.dlen, hl, truncatedError, infoOfLength]
  · rw [finishFw_raises _ (fwDecode_mismatch h hi hg ht hne), infoOfPair_eq b i (by omega)]
    simp [accepted, invalidate, latch, Operands.dlen, hl]

/-! ### The errors of DECODE_TARGET -/

section
variable {u : Nat} {b : List Byte}

theorem targetDecode_short (h : b.length < 8) : targetDecode u b = .error (truncatedError 8) := dif_pos h

/-- A response that does not count one target (R176). -/
theorem targetDecode_count {c : Byte} (hc : b[7]? = some c) (hne : c ≠ maxTargets) :
    targetDecode u b = .error ⟨.targetCount, infoOfByte c⟩ := by
  obtain ⟨h7, rfl⟩ := List.getElem?_eq_some_iff.1 hc
  rw [targetDecode, dif_neg (by omega), if_pos hne]

/-- A response with one target that ends before the UID-length byte (R176). -/
theorem targetDecode_noLength (hc : b[7]? = some maxTargets) (hu : b.length ≤ u) :
    targetDecode u b = .error (truncatedError (u + 1)) := by
  obtain ⟨h7, hc⟩ := List.getElem?_eq_some_iff.1 hc
  rw [targetDecode, dif_neg (by omega), if_neg (not_not.2 hc), dif_pos (by omega)]

/-- A response with one target that ends before the last byte of the UID (R176). -/
theorem targetDecode_missingUid {l : Byte} (hc : b[7]? = some maxTargets) (hl : b[u]? = some l)
    (hn : b.length < u + 1 + l.toNat) : targetDecode u b = .error (truncatedError (u + 1 + l.toNat)) := by
  obtain ⟨h7, hc⟩ := List.getElem?_eq_some_iff.1 hc
  obtain ⟨hu, rfl⟩ := List.getElem?_eq_some_iff.1 hl
  rw [targetDecode, dif_neg (by omega), if_neg (not_not.2 hc), dif_neg (by omega), if_pos hn]

end

/-- `ERRINFO` of `E_TARGET_COUNT` is the count as a number (R210). -/
theorem infoOfByte_eq (c : Byte) : infoOfByte c = BitVec.ofNat 16 c.toNat :=
  (BitVec.ofNat_toNat 16 c).symm

/-- Settles O23, by the check that fails. -/
theorem decodeTargetReportsErrors : Obligations.DecodeTargetReportsErrors := by
  intro r s code info hb hl herr
  have hd : targetDecode (accepted 0x21 r s).cfg.uidLenOff r.data = .error ⟨code, BitVec.ofNat 16 info⟩ := by
    rw [accepted_cfg]
    rcases herr with ⟨h, rfl, rfl⟩ | ⟨c, hc, hne, rfl, rfl⟩ | ⟨hc, hu, rfl, rfl⟩ | ⟨l, hc, hu, hn, rfl, rfl⟩
    · exact targetDecode_short h
    · rw [← infoOfByte_eq]
      exact targetDecode_count hc hne
    · exact targetDecode_noLength hc hu
    · exact targetDecode_missingUid hc hu hn
  rw [exec_decodeTarget hb hl, finishTarget_raises hd]
  simp [accepted, invalidate, latch, Operands.dlen, hl]

/-! ### The `PARSE` step -/

/-- Settles O38, by the composite latched and the result of its decode. -/
theorem parsePhase : Obligations.ParsePhase := by
  intro s b n hh hi hp hcnt hn hb
  have hread : readValid .rxbuf s = .next b := readValid_of (by simp [State.count, hcnt, hn]) hb
  obtain ⟨hfw, htarget⟩ := step_parse hh hi hp hread
  refine ⟨fun ho => ?_, fun ho huid => ?_⟩
  · rw [hfw ho]
    cases hd : fwDecode b with
    | ok v => exact finishFw_eq_next.2 (.inl ⟨v, hd, rfl⟩)
    | error e => rw [finishFw_raises s hd, hp]
  · rw [htarget ho]
    cases hd : targetDecode s.cfg.uidLenOff b with
    | ok u => exact finishTarget_eq_next.2 (.inl ⟨u, hd, by rw [huid]; rfl⟩)
    | error e => rw [finishTarget_raises hd, hp]

end Sys2Proof.Machine

/-! Proofs of the obligations on class (d) errors (O54) and on reset at any time (O2). -/

namespace Sys2Proof.Machine

/-! ### Class (d) errors -/

/-- The class (d) errors have `IDLE` alone in their `ERRPHASE` column (R210). -/
theorem ErrCode.idle_of_callerMisuse {c : ErrCode} {p : Phase} (hc : c.errClass = some .callerMisuse)
    (hp : c.raisedIn p) : p = .idle := by
  cases c with
  | badOp | badLength | payloadTooLong => exact hp
  | _ => simp [ErrCode.errClass] at hc

/-- A step of the block raises no class (d) error: an error it takes records its phase, which is not `IDLE`, and in
`IDLE` nothing changes (R22, R212, R216). -/
theorem status_of_blockStep_callerMisuse {s t : State} (hs : s.Inv) (h : blockStep s = .next t)
    (hd : t.status.done = true) (hc : t.status.errCode.errClass = some .callerMisuse) : t.status = s.status := by
  by_cases hp : s.phase = .idle
  · rw [blockStep_idle hp h]
  · have hcol := (inv_blockStep hs h).errColumn
    rcases blockStep_completesTo hs hp h hd with ⟨v⟩ | ⟨e, v, he, hk⟩
    · cases hc
    · have hidle := ErrCode.idle_of_callerMisuse hc hcol
      exact absurd (by simpa [he, hk.phase] using hidle) hp

/-- Settles O54, by the agent that moves: the block raises no such error, a reset leaves `DONE` clear, the host's
other actions keep `STATUS`, and the acceptance of a request makes no event. -/
theorem misuseErrorsMakeNoEvent : Obligations.MisuseErrorsMakeNoEvent := by
  intro s t hs h hd hc
  rcases step_cases h with ⟨rest, -, -, hb⟩ | ⟨rest, -, -, rfl⟩ | ⟨rest, -, rfl⟩ | ⟨r, rest, v, -, -, -, rfl⟩ |
    ⟨hdr, data, rest, i, hh, -, hw, he⟩ | ⟨hdr, data, rest, hh, -, -, -, rfl⟩
  · have hst := status_of_blockStep_callerMisuse (inv_host hs) hb hd hc
    exact .inr ⟨(congrArg Status.done hst).symm.trans hd, hst⟩
  · exact .inr ⟨hd, rfl⟩
  · cases hd
  · exact .inr ⟨hd, rfl⟩
  · have htrace := exec_trace hw he
    exact .inl ⟨hdr, data, rest, hh, htrace⟩
  · exact .inl ⟨hdr, data, rest, hh, by simp⟩

/-! ### Reset -/

theorem step_reset {s : State} {rest : List HostAction} (hh : s.host = .reset :: rest) :
    step s = .next (applyReset { s with host := rest }) := by
  simp only [step, portStep, hh]

/-- Settles O2: the step is the reset of the block, whatever the block was doing. -/
theorem resetAtAnyTime : Obligations.ResetAtAnyTime := fun _ _ hh => step_reset hh

end Sys2Proof.Machine

/-! Proofs of the obligations on the parameters (O53) and on a request presented while busy (O3). -/

namespace Sys2Proof.Machine

/-! ### The parameters -/

theorem finishFw_cfg {b : List Byte} {s t : State} (h : finishFw b s = .next t) : t.cfg = s.cfg := by
  rcases finishFw_eq_next.1 h with ⟨v, -, rfl⟩ | ⟨e, -, rfl⟩ <;> rfl

theorem finishTarget_cfg {b : List Byte} {s t : State} (h : finishTarget b s = .next t) : t.cfg = s.cfg := by
  rcases finishTarget_eq_next.1 h with ⟨u, -, rfl⟩ | ⟨e, -, rfl⟩ <;> rfl

/-- The phases read the parameters, for the delays and the ready test, and write none (R131, R140). -/
theorem phaseStep_cfg {s t : State} (h : phaseStep s = .next t) : t.cfg = s.cfg := by
  rcases phaseStep_cases h with ⟨c, a, -, rfl⟩ | ⟨-, rfl⟩ | ⟨-, w, -, ⟨-, rfl⟩ | ⟨-, rfl⟩⟩ | ⟨-, -, rfl⟩ |
    ⟨-, -, b, -, hb⟩ | ⟨-, rfl⟩ | ⟨-, ha⟩ | ⟨-, rfl⟩ | ⟨-, n, -, hr⟩ | ⟨-, b, -, hf⟩
  · rfl
  · rfl
  · rfl
  · rfl
  · rfl
  · rcases hb with ⟨-, -, rfl⟩ | ⟨-, -, -, rfl⟩ | ⟨-, -, -, rfl⟩ | ⟨-, -, rfl⟩ | ⟨-, -, -, rfl⟩ |
      ⟨-, -, -, rfl⟩ <;> rfl
  · rfl
  · rcases ha with ⟨-, rfl⟩ | ⟨r, -, v, rfl, ⟨e, -, rfl⟩ | ⟨-, rfl⟩⟩ <;> rfl
  · rfl
  · rcases hr with ⟨-, rfl⟩ | ⟨r, -, -, v, rfl, ⟨-, rfl⟩ | ⟨-, rfl⟩⟩ <;> rfl
  · rcases hf with ⟨-, hf⟩ | ⟨-, hf⟩
    · exact finishFw_cfg hf
    · exact finishTarget_cfg hf

theorem blockStep_cfg {s t : State} (h : blockStep s = .next t) : t.cfg = s.cfg := by
  rcases blockStep_cases h with ⟨-, rfl⟩ | ⟨-, h⟩
  · rfl
  · exact phaseStep_cfg h

/-- A request carries no parameter: they are not configurable per call (R9, R243). -/
theorem exec_cfg {i : Instr} {s t : State} (hw : i.wellFormed) (h : exec i s = .next t) : t.cfg = s.cfg := by
  obtain ⟨-, a, rfl, hc⟩ := exec_cases hw h
  have ha := accepted_cfg i.op.selector i.operands s
  rcases hc with ⟨e, -, rfl⟩ | ⟨-, ⟨-, -, rfl⟩ | ⟨-, rfl⟩ | ⟨-, ⟨v, -, rfl⟩ | ⟨-, rfl⟩⟩ | ⟨-, hf⟩ | ⟨-, hf⟩ |
    ⟨-, -, rfl⟩⟩
  · exact ha
  · exact ha
  · exact ha
  · exact ha
  · exact ha
  · exact (finishFw_cfg hf).trans ha
  · exact (finishTarget_cfg hf).trans ha
  · exact ha

/-- Settles O53, by the agent that moves: the block, the host with a reset or a read, or a request. -/
theorem parametersNeverChange : Obligations.ParametersNeverChange := by
  intro s t h
  rcases step_cases h with ⟨rest, -, -, hb⟩ | ⟨rest, -, -, rfl⟩ | ⟨rest, -, rfl⟩ | ⟨r, rest, v, -, -, -, rfl⟩ |
    ⟨hd, data, rest, i, -, -, hw, he⟩ | ⟨hd, data, rest, -, -, -, -, rfl⟩
  · exact blockStep_cfg (s := { s with host := rest }) hb
  · rfl
  · exact applyReset_cfg { s with host := rest }
  · rfl
  · exact exec_cfg (s := { s with host := rest }) hw he
  · exact accepted_cfg _ _ { s with host := rest }

/-! ### A request while busy -/

/-- A busy block refuses a descriptor before it decodes it (R44). -/
theorem present_busy {h : Header} {data : List Byte} {s : State} (hb : s.status.busy = true) :
    present h data s = .refused .busy := if_pos hb

/-- Settles O3: `BUSY` is the same once the presentation is taken off the host's list. -/
theorem requestWhileBusyRefused : Obligations.RequestWhileBusyRefused := by
  intro s h data rest hh hb
  rw [step_request hh]
  exact present_busy hb

end Sys2Proof.Machine
